-- ==== Sys2Proof/Word.lean ====
section
/-! DEFINITION. The value types of the block: the 32-bit command, operand and response words (R76), bytes,
line levels, pulse items and pulse sequences (R18). Every duration, start time and counter is a natural
number, because all arithmetic of the rules is on natural numbers with no wrap-around (R20). -/

namespace Sys2Proof

/-- A command word, an operand word or a response word: one 32-bit unit (R76). -/
abbrev Word := BitVec 32

/-- Eight bits: a byte on the bus, the `DATA` field, or a quarter of a word on a byte transport (R76). -/
abbrev Byte := BitVec 8

/-- A pin identifier `0 .. 255` (R8, R33). -/
abbrev Pin := BitVec 8

/-- A channel field of a command word, `0 .. 15` (R102). The channels that exist are those below `NCH` (R7). -/
abbrev Chan := BitVec 4

/-- `Level ::= LOW | HIGH` (R18). On the transmit side and in a responder's drive, `high` means "released". -/
inductive Level where
  | low
  | high
  deriving DecidableEq, Repr, Inhabited

/-- A PulseItem `(level, dur)`, the duration in ticks (R18). A captured duration is a natural number and is
never truncated (R120). -/
structure Item where
  level : Level
  dur   : Nat
  deriving DecidableEq, Repr, Inhabited

/-- `Seq ::= List Item`, a PulseSequence (R18). -/
abbrev Seq := List Item

/-- `Presence ::= PRESENT | ABSENT` (R18). -/
inductive Presence where
  | present
  | absent
  deriving DecidableEq, Repr

end Sys2Proof
end

