-- ==== Sys2Proof/Syntax.lean ====
section
/-! DEFINITION. The commands of the port (R103): one constructor per row of spec/opcode_table.json, and the
operands they carry (R102, R105, R106). -/

namespace Sys2Proof

/-- A timing profile: seven durations in ticks, in the order of R140. -/
structure Profile where
  resetLow     : Nat
  write1Low    : Nat
  write1High   : Nat
  write0Low    : Nat
  write0High   : Nat
  sampleOffset : Nat
  rxIdleGap    : Nat
  deriving DecidableEq, Repr

/-- The profile select of VALIDATE and BIND (R105). A custom profile arrives in seven operand words (R106);
`PSEL = 0b11` is illegal and has no constructor. -/
inductive ProfileSel where
  | std
  | od
  | custom (p : Profile)
  deriving DecidableEq, Repr

/-- The eight commands (R103). -/
inductive Instr where
  | validate (sel : ProfileSel)
  | reset
  | writeBit (b : Bool)
  | readBit
  | writeByte (v : Byte)
  | readByte
  | bind (pin : Pin) (tx rx : Chan) (sel : ProfileSel)
  | unbind
  deriving DecidableEq, Repr

end Sys2Proof
end

