-- ==== Sys2Proof/WellFormed.lean ====
section
/-! DEFINITION. Which commands have an encoding. The widths of pin, channels, bit and byte are in their types;
what is left to check is that each of the seven durations of a custom profile fits its operand word's
`DURW = 15` bits (R10, R106). -/

namespace Sys2Proof

/-- `DURW`, the width in bits of a duration field (R10). -/
def durw : Nat := 15

/-- The duration fits in `ow[14:0]` (R106). -/
def durFits (d : Nat) : Bool := decide (d < 2 ^ durw)

/-- All seven durations fit (R106). -/
def Profile.fits (p : Profile) : Bool :=
  durFits p.resetLow && durFits p.write1Low && durFits p.write1High && durFits p.write0Low &&
  durFits p.write0High && durFits p.sampleOffset && durFits p.rxIdleGap

/-- A profile select that can be encoded. -/
def ProfileSel.wf : ProfileSel → Bool
  | .std      => true
  | .od       => true
  | .custom p => p.fits

/-- A command that can be encoded: the round trip of Decode.lean holds for exactly these. -/
def Instr.wf : Instr → Bool
  | .validate sel   => sel.wf
  | .reset          => true
  | .writeBit _     => true
  | .readBit        => true
  | .writeByte _    => true
  | .readByte       => true
  | .bind _ _ _ sel => sel.wf
  | .unbind         => true

end Sys2Proof
end

