-- ==== Sys2Proof/Decode.lean ====
section
/-! DEFINITION. From words to a command and back (R101 to R109): the table of R104, the decoder, the encoder, and
the little-endian byte transport of R76. The decoder names why it rejects; the port turns a rejection (a) to (d)
of R108 into the model fault `F_ILLEGAL_COMMAND`. -/

namespace Sys2Proof

/-- The field `w[lo+len-1 : lo]` (R17). -/
def field (w : Word) (lo len : Nat) : BitVec len := w.extractLsb' lo len

/-- The mnemonics of R103. -/
inductive Mnemonic where
  | validate | reset | writeBit | readBit | writeByte | readByte | bind | unbind
  deriving DecidableEq, Repr

/-- One row of the table of R104: a command word `cw` is the row's when `cw &&& mask = pattern`. -/
structure Row where
  name    : Mnemonic
  pattern : Word
  mask    : Word
  deriving DecidableEq, Repr

/-- The table of R104, in its order. -/
def opcodeRows : List Row := [
  ⟨.validate,  0x00000001#32, 0xFCFFFFFF#32⟩,
  ⟨.reset,     0x00000002#32, 0xFFFFFFFF#32⟩,
  ⟨.writeBit,  0x00000003#32, 0xFFFFFEFF#32⟩,
  ⟨.readBit,   0x00000004#32, 0xFFFFFFFF#32⟩,
  ⟨.writeByte, 0x00000005#32, 0xFFFF00FF#32⟩,
  ⟨.readByte,  0x00000006#32, 0xFFFFFFFF#32⟩,
  ⟨.bind,      0x00000007#32, 0xFC0000FF#32⟩,
  ⟨.unbind,    0x00000008#32, 0xFFFFFFFF#32⟩]

/-- `cw` selects the row (R104). -/
def rowSelects (r : Row) (cw : Word) : Bool := cw &&& r.mask == r.pattern

/-- The row that the opcode `cw[3:0]` names (R103). -/
def rowFor (cw : Word) : Option Row := opcodeRows.find? fun r => field r.pattern 0 4 == field cw 0 4

/-- `CommandLength(cw)` (R107). -/
def commandLength (cw : Word) : Nat :=
  if (field cw 0 4 = 0x1#4 ∨ field cw 0 4 = 0x7#4) ∧ field cw 24 2 = 0b10#2 then 8 else 1

/-- Why a command is illegal: the four cases of R108. -/
inductive Illegal where
  /-- (a) `OP` is 0x0 or 0x9 to 0xF. -/
  | opcode
  /-- (b) a reserved bit or an unused field is not 0. -/
  | reservedBit
  /-- (c) `PSEL = 0b11`. -/
  | profileSelect
  /-- (d) an operand word has `ow[31:15] != 0`. -/
  | operandBits
  deriving DecidableEq, Repr

/-- What the decoder answers. -/
inductive Decoded where
  | ok (i : Instr)
  | illegal (why : Illegal)
  /-- Not a complete command: not 1 word, or not 8 words where R107 asks for 8. The port accepts no such list (R77). -/
  | incomplete
  deriving DecidableEq, Repr

/-- The duration of one operand word, `ow[14:0]` (R106). -/
def durOf (ow : Word) : Nat := (field ow 0 durw).toNat

/-- `ow[31:15] = 0` (R106). -/
def operandClear (ow : Word) : Bool := field ow 15 17 == 0#17

/-- `DecodeCustomProfile` (R106), from exactly seven operand words. -/
def decodeCustomProfile : List Word → Option Profile
  | [w0, w1, w2, w3, w4, w5, w6] =>
    some ⟨durOf w0, durOf w1, durOf w2, durOf w3, durOf w4, durOf w5, durOf w6⟩
  | _ => none

/-- The profile select of a VALIDATE or BIND word and its operand words (R105, R106, R108 (c) and (d)). -/
def decodeSel (psel : BitVec 2) (ows : List Word) (k : ProfileSel → Instr) : Decoded :=
  if psel = 0b00#2 then .ok (k .std)
  else if psel = 0b01#2 then .ok (k .od)
  else if psel = 0b10#2 then
    match decodeCustomProfile ows with
    | some p => if ows.all operandClear then .ok (k (.custom p)) else .illegal .operandBits
    | none   => .incomplete
  else .illegal .profileSelect

/-- The decoder on a command word and the operand words that follow it, complete by R107. -/
def decodeComplete (cw : Word) (ows : List Word) : Decoded :=
  match rowFor cw with
  | none   => .illegal .opcode
  | some r =>
    if rowSelects r cw then
      match r.name with
      | .validate  => decodeSel (field cw 24 2) ows .validate
      | .reset     => .ok .reset
      | .writeBit  => .ok (.writeBit (cw.getLsbD 8))
      | .readBit   => .ok .readBit
      | .writeByte => .ok (.writeByte (field cw 8 8))
      | .readByte  => .ok .readByte
      | .bind      => decodeSel (field cw 24 2) ows (.bind (field cw 8 8) (field cw 16 4) (field cw 20 4))
      | .unbind    => .ok .unbind
    else .illegal .reservedBit

/-- The decoder: a command is its complete word list (R77), whose length its first word tells (R107). -/
def decode : List Word → Decoded
  | []        => .incomplete
  | cw :: ows => if ows.length + 1 = commandLength cw then decodeComplete cw ows else .incomplete

/-- `Illegal(words)` of R109: one of the cases (a) to (d) of R108. -/
def isIllegal (ws : List Word) : Bool :=
  match decode ws with
  | .illegal _ => true
  | _          => false

/-- `PSEL` of a profile select (R105). -/
def pselOf : ProfileSel → BitVec 2
  | .std      => 0b00#2
  | .od       => 0b01#2
  | .custom _ => 0b10#2

/-- The operand word of a duration (R106). -/
def operandWord (d : Nat) : Word := BitVec.ofNat 32 d

/-- The operand words of a profile select (R106). -/
def operandWords : ProfileSel → List Word
  | .std      => []
  | .od       => []
  | .custom p => [operandWord p.resetLow, operandWord p.write1Low, operandWord p.write1High,
      operandWord p.write0Low, operandWord p.write0High, operandWord p.sampleOffset, operandWord p.rxIdleGap]

/-- The command word, written as the patterns of R104 are: bit 31 first. -/
def commandWord : Instr → Word
  | .validate sel       => 0#6 ++ pselOf sel ++ 0#16 ++ 0#4 ++ 0x1#4
  | .reset              => 0#28 ++ 0x2#4
  | .writeBit b         => 0#23 ++ BitVec.ofBool b ++ 0#4 ++ 0x3#4
  | .readBit            => 0#28 ++ 0x4#4
  | .writeByte v        => 0#16 ++ v ++ 0#4 ++ 0x5#4
  | .readByte           => 0#28 ++ 0x6#4
  | .bind pin tx rx sel => 0#6 ++ pselOf sel ++ rx ++ tx ++ pin ++ 0#4 ++ 0x7#4
  | .unbind             => 0#28 ++ 0x8#4

/-- The encoder: the command word and its operand words (R104, R106). -/
def encode : Instr → List Word
  | .validate sel       => commandWord (.validate sel) :: operandWords sel
  | .reset              => [commandWord .reset]
  | .writeBit b         => [commandWord (.writeBit b)]
  | .readBit            => [commandWord .readBit]
  | .writeByte v        => [commandWord (.writeByte v)]
  | .readByte           => [commandWord .readByte]
  | .bind pin tx rx sel => commandWord (.bind pin tx rx sel) :: operandWords sel
  | .unbind             => [commandWord .unbind]

/-- A word on a byte transport: four bytes, the least significant first (R76). -/
def bytesOfWord (w : Word) : List Byte := [field w 0 8, field w 8 8, field w 16 8, field w 24 8]

/-- Words as a transport carries them (R76). -/
def bytesOfWords (ws : List Word) : List Byte := ws.flatMap bytesOfWord

/-- Words read back from a byte transport (R76); a number of bytes that is no multiple of four is no word list. -/
def wordsOfBytes : List Byte → Option (List Word)
  | []                      => some []
  | b0 :: b1 :: b2 :: b3 :: bs => (wordsOfBytes bs).map ((b3 ++ b2 ++ b1 ++ b0) :: ·)
  | _                       => none

/-- The decoder on bytes (R76, R77). -/
def decodeBytes (bs : List Byte) : Decoded :=
  match wordsOfBytes bs with
  | some ws => decode ws
  | none    => .incomplete

/-- The words of an instruction whose bits are `w`, bit 0 the least significant bit of the first word, every bit
from `nbits` on being 0: as many words as R107 asks of the first one. -/
def tableWords (nbits w : Nat) : List Word :=
  let v := w % 2 ^ nbits
  (List.range (commandLength (BitVec.ofNat 32 v))).map fun k => BitVec.ofNat 32 (v >>> (32 * k))

/-- The command the decoder reads from an instruction whose bits are `w`. -/
def decodeTableWord (nbits w : Nat) : Option Instr :=
  match decodeBytes (bytesOfWords (tableWords nbits w)) with
  | .ok i => some i
  | _     => none

end Sys2Proof
end

