-- ==== Sys2Proof/Config.lean ====
section
/-! DEFINITION. The parameters an implementation fixes (R7 to R15), the draws of the environment (R16), and the
free value the machine takes its draws from when no input has been placed. -/

namespace Sys2Proof

/-- The parameters of R7, R8 and R11 to R15. A state carries them and no step changes them, so a statement over
every state is a statement over every setting. `NINST` (R9) is the length of the state's list of instances, and
`DURW` (R10) is fixed at 15 by the encodings of R106 and R120. -/
structure Params where
  /-- `NCH` (R7), default 8. -/
  nch           : Nat
  /-- `VALID_PINS` (R8), OPEN. -/
  validPins     : List Pin
  /-- `TICK_NS` (R11), default 1000. -/
  tickNs        : Nat
  /-- `CAPTURE_MARGIN` (R12), default 1000. -/
  captureMargin : Nat
  /-- `QUEUE_DEPTH` (R13), default 1. -/
  queueDepth    : Nat
  /-- `RX_MAX_ITEMS` (R14), default 64. -/
  rxMaxItems    : Nat
  /-- `VALIDATE_EXTRA` (R15), default true. -/
  validateExtra : Bool
  deriving DecidableEq, Repr

/-- The constraints the rules put on the parameters (R7, R13, R14). -/
def Params.wf (p : Params) : Bool :=
  decide (2 ≤ p.nch) && decide (p.nch ≤ 16) && decide (1 ≤ p.queueDepth) && decide (2 ≤ p.rxMaxItems)

/-- The spec's defaults (R7, R11 to R15). DESIGN CHOICE: `VALID_PINS` is OPEN (R8) and holds every pin here;
unsafe for a claim about this one value, log entry 3. -/
def Params.default : Params where
  nch           := 8
  validPins     := (List.range 256).map (BitVec.ofNat 8)
  tickNs        := 1000
  captureMargin := 1000
  queueDepth    := 1
  rxMaxItems    := 64
  validateExtra := true

/-- The draws of one bus slot (R16, R200). `resp` is the responders' combined drive from the trigger on, as a
sequence whose `low` items drive the line and whose `high` items, and everything after the last item, release
it. A slot ends by its deadline (R222), so every waveform of R200 is one of these up to that tick. -/
structure SlotEnv where
  txConnected : Bool
  rxAlive     : Bool
  resp        : Seq
  deriving DecidableEq, Repr, Inhabited

/-- One move of the environment. Which comes next is a draw: callers reach a port in any order (R337), and the
steps of two instances interleave in any way (R80). -/
inductive Event where
  /-- Caller `caller` issues the words to port `inst` (R100); `allocOk` is the draw a BIND takes (R16, R294). -/
  | issue (inst caller : Nat) (words : List Word) (allocOk : Bool)
  /-- One tick of the `gap` before the next trigger of `inst` (R251); the draw `gap` is how many of these come. -/
  | gapTick (inst : Nat)
  /-- The trigger of the next slot of `inst`, with the slot's draws (R210). -/
  | trigger (inst : Nat) (env : SlotEnv)
  /-- One tick of the slot in flight on `inst` (R237); `grant` is the draw a release of the lock takes (R250). -/
  | tick (inst : Nat) (grant : Nat)
  deriving DecidableEq, Repr, Inhabited

/-- Free value: the `n`-th move of the environment when none has been placed in the state. It has no body, so
nothing can be proved of it beyond its type (R16: the model admits every value of each draw). -/
opaque Config.freeEvent : Nat → Event

end Sys2Proof
end

