-- ==== Sys2Proof/Machine/State.lean ====
section
/-! DEFINITION. The state of the system (R30 to R50) as plain data, its power-on value (R49, R360), and the
reasons a step can stop.

A register the rules leave without a value ("no value", R48, R49) is `none` then; that is the spec's own state, and
no rule reads it. The model's own fields, which the spec does not name, are marked so. -/

namespace Sys2Proof.Machine

/-- A bus command with its operand: what a caller waits with (R36), and the command of the operation in flight
(R38, whose `kind` is the constructor). -/
inductive BusCmd where
  | reset
  | writeBit (b : Bool)
  | readBit
  | writeByte (v : Byte)
  | readByte
  deriving DecidableEq, Repr

/-- The slot kinds of R204. -/
inductive SlotKind where
  | resetSlot
  | writeSlot (b : Bool)
  | readSlot
  deriving DecidableEq, Repr

/-- `SESSION` (R37). -/
inductive Session where
  | idle
  | triggered
  | capturing
  | draining
  deriving DecidableEq, Repr

/-- `SLOT_RESULT` (R45). -/
inductive SlotResult where
  | done
  | presence (p : Presence)
  | bit (b : Bool)
  | captureTimeout
  deriving DecidableEq, Repr

/-- The reasons of a model fault (R325, R48). -/
inductive FaultReason where
  | illegalCommand
  | notBound
  | alreadyBound
  | inFlightMutation
  | captureOverflow
  | queueOverflow
  /-- The model fault of R48: a rule would read a field that holds no value. R325 gives it no name (log entry 5). No step
  of a coherent state raises it. -/
  | noValue
  deriving DecidableEq, Repr

/-- The only terminator of a batch (R72). -/
inductive Terminator where
  | idleGap
  deriving DecidableEq, Repr

/-- A batch (R72). -/
structure Batch where
  items : Seq
  term  : Terminator
  deriving DecidableEq, Repr

/-- `LOCK` (R36). -/
inductive Lock where
  | free
  | held (caller : Nat)
  deriving DecidableEq, Repr

/-- One caller waiting for the lock, with its pending command (R36). -/
structure Waiter where
  caller : Nat
  cmd    : BusCmd
  deriving DecidableEq, Repr

/-- `OP` when it is not `NONE` (R38). -/
structure Op where
  /-- `kind`, with the operand the command carries (DEDUCED, log entry 6). -/
  cmd     : BusCmd
  /-- The index of the current bit slot of a byte operation, else 0. -/
  slot    : Fin 8
  /-- The bits READ_BYTE has assembled so far, else 0. -/
  acc     : Byte
  /-- The model's own: ticks since the lock grant, the duration a host observes (R47, R380). -/
  elapsed : Nat
  deriving DecidableEq, Repr

/-- The registers a binding gives a value: `PIN`, `TXCH`, `RXCH`, `PROFILE` (R33 to R35). -/
structure Binding where
  pin     : Pin
  tx      : Chan
  rx      : Chan
  profile : Profile
  deriving DecidableEq, Repr

/-- `INST[i]` (R32 to R40, R45). -/
structure Inst where
  /-- `BOUND` is 1 exactly when this is `some` (R32), and only then do `PIN`, `TXCH`, `RXCH`, `PROFILE` hold a
  value (R33 to R35). -/
  binding     : Option Binding
  /-- `LOCK` (R36). -/
  lock        : Lock
  /-- `WAITERS` (R36). -/
  waiters     : List Waiter
  /-- `SESSION` (R37). -/
  session     : Session
  /-- `OP`; `none` is `NONE` (R38). -/
  op          : Option Op
  /-- `QUEUE`, oldest batch first; `none` while no queue is allocated (R39). -/
  queue       : Option (List Batch)
  /-- `FAULT`; `none` is `NONE` (R40). -/
  fault       : Option FaultReason
  /-- `SESS_T` (R45). -/
  sessT       : Option Nat
  /-- `DEADLINE` (R45). -/
  deadline    : Option Nat
  /-- `CAP_END` (R45). -/
  capEnd      : Option Nat
  /-- `DECODE_ITEMS` (R45). -/
  decodeItems : Option Seq
  /-- `SLOT_RESULT` (R45). -/
  slotResult  : Option SlotResult
  /-- The model's own: the draws of the slot in flight (R16, R200). -/
  env         : Option SlotEnv
  deriving DecidableEq, Repr

/-- `BOUND` (R32). -/
def Inst.bound (x : Inst) : Bool := x.binding.isSome

/-- `TXE[c]`, the generate engine of a channel (R43). -/
structure TxEngine where
  busy : Bool
  seq  : Option Seq
  t    : Option Nat
  deriving DecidableEq, Repr

/-- `RXE[c]`, the capture engine of a channel (R44). -/
structure RxEngine where
  armed : Bool
  items : Seq
  lvl   : Option Level
  len   : Option Nat
  t     : Option Nat
  deriving DecidableEq, Repr

/-- `CHAN_OWNER` or `PIN_OWNER` (R41, R42): the owned entries `(identifier, instance)`, identifiers strictly
rising; an identifier not listed is `FREE`. -/
abbrev Owners := List (Nat × Nat)

/-- The model's own: the command a port has just taken, as `exec` finds it. -/
structure PortCmd where
  inst    : Nat
  caller  : Nat
  /-- The draw a BIND takes (R16, R294). -/
  allocOk : Bool
  deriving DecidableEq, Repr

/-- The model's own: a response a port has returned (R110). -/
structure Response where
  inst   : Nat
  caller : Nat
  word   : Word
  /-- Ticks from the lock grant to the response, 0 for VALIDATE, BIND and UNBIND (R380). -/
  ticks  : Nat
  deriving DecidableEq, Repr

/-- The state of the system (R30). -/
structure State where
  /-- The parameters (R7 to R15); no step changes them. -/
  params    : Params
  /-- `INST[0 .. NINST-1]`; `NINST` is the length (R9). -/
  insts     : List Inst
  /-- `CHAN_OWNER` (R41). -/
  chanOwner : Owners
  /-- `PIN_OWNER` (R42). -/
  pinOwner  : Owners
  /-- `TXE[0 .. NCH-1]` (R43). -/
  txe       : List TxEngine
  /-- `RXE[0 .. NCH-1]` (R44). -/
  rxe       : List RxEngine
  /-- The model's own: the command just taken from a caller. -/
  port      : PortCmd
  /-- The model's own: the callers with a command outstanding, each blocked until its response (R100). -/
  blocked   : List Nat
  /-- The model's own: the responses returned so far, newest first (R110). -/
  responses : List Response
  /-- The model's own: moves of the environment placed as input, the next one first. -/
  script    : List Event
  /-- The model's own: how many moves have been drawn from `Config.freeEvent`. -/
  drawn     : Nat
  deriving DecidableEq, Repr

/-- An instance at power-on (R49). -/
def Inst.powerOn : Inst where
  binding     := none
  lock        := .free
  waiters     := []
  session     := .idle
  op          := none
  queue       := none
  fault       := none
  sessT       := none
  deadline    := none
  capEnd      := none
  decodeItems := none
  slotResult  := none
  env         := none

/-- A generate engine at power-on (R43, R49). -/
def TxEngine.powerOn : TxEngine := ⟨false, none, none⟩

/-- A capture engine at power-on (R44, R49). -/
def RxEngine.powerOn : RxEngine := ⟨false, [], none, none, none⟩

/-- The power-on state of a system with parameters `p` and `n` instances (R49, R360). -/
def State.powerOn (p : Params) (n : Nat) : State where
  params    := p
  insts     := List.replicate n Inst.powerOn
  chanOwner := []
  pinOwner  := []
  txe       := List.replicate p.nch TxEngine.powerOn
  rxe       := List.replicate p.nch RxEngine.powerOn
  port      := ⟨0, 0, false⟩
  blocked   := []
  responses := []
  script    := []
  drawn     := 0

/-- Power-on with the spec's default parameters. DESIGN CHOICE: two instances, `NINST` being OPEN (R9); unsafe for
a claim about this number, log entry 3. -/
def State.reset : State := State.powerOn Params.default 2

/-- Why a step stops the whole model. A model fault (R325, R48) is none of these: it is state, `INST[i].FAULT`. -/
inductive Fault where
  /-- Raised when a command is issued to an instance index that is not below `NINST` (R9, R70). Safe: the model stops. -/
  | noSuchInstance
  deriving DecidableEq, Repr

/-- Why an instruction has no meaning. -/
inductive Refusal where
  /-- Raised by an arm of `exec` whose instruction is not modelled; no arm is one now. Safe: the model stops. -/
  | notModelled (mnemonic : String)
  deriving DecidableEq, Repr

/-- What a step of this machine answers. -/
abbrev Result := Host.Outcome State Fault Refusal

end Sys2Proof.Machine
end

