-- ==== Sys2Proof/Machine/Operands.lean ====
section
/-! DEFINITION. The timing-profile manager (R140 to R151): the canonical profiles, the profile an operand selects,
and validation. -/

namespace Sys2Proof.Machine

/-- The Standard canonical profile (R141). -/
def standard : Profile := ⟨480, 6, 64, 60, 10, 13, 72⟩

/-- The Overdrive canonical profile (R142). -/
def overdrive : Profile := ⟨70, 1, 8, 8, 3, 3, 13⟩

/-- `ProfileOf` (R148). -/
def profileOf : ProfileSel → Profile
  | .std      => standard
  | .od       => overdrive
  | .custom p => p

/-- Check V1: every duration is nonzero (R143). -/
def checkV1 (P : Profile) : Bool :=
  P.resetLow != 0 && P.write1Low != 0 && P.write1High != 0 && P.write0Low != 0 && P.write0High != 0 &&
  P.sampleOffset != 0 && P.rxIdleGap != 0

/-- Check V2: `write1Low < write0Low` (R144). -/
def checkV2 (P : Profile) : Bool := decide (P.write1Low < P.write0Low)

/-- Check V3: `sampleOffset < rxIdleGap` (R145). -/
def checkV3 (P : Profile) : Bool := decide (P.sampleOffset < P.rxIdleGap)

/-- Check V4: `sampleOffset < write0Low` (R146). -/
def checkV4 (P : Profile) : Bool := decide (P.sampleOffset < P.write0Low)

/-- Check V5: `rxIdleGap` exceeds the four durations of a bit slot (R146). -/
def checkV5 (P : Profile) : Bool :=
  decide (max (max P.write1Low P.write1High) (max P.write0Low P.write0High) < P.rxIdleGap)

/-- `validate(P) = OK` (R146); V4 and V5 apply when `VALIDATE_EXTRA` is true. -/
def validProfile (p : Params) (P : Profile) : Bool :=
  checkV1 P && checkV2 P && checkV3 P && (!p.validateExtra || (checkV4 P && checkV5 P))

end Sys2Proof.Machine
end

