-- ==== Sys2Proof/Machine/Codec.lean ====
section
/-! DEFINITION. The pulse codec (R170 to R181): pure functions from a request to a pulse sequence and from a captured
sequence to an outcome; and the 16-bit PulseItem word (R120). -/

namespace Sys2Proof.Machine

/-- The total duration of a sequence (R18). -/
def dur : Seq → Nat
  | []      => 0
  | x :: xs => x.dur + dur xs

/-- `encodeReset` (R170). -/
def encodeReset (P : Profile) : Seq := [⟨.low, P.resetLow⟩, ⟨.high, P.rxIdleGap⟩]

/-- `encodeWriteBit` (R171). -/
def encodeWriteBit (b : Bool) (P : Profile) : Seq :=
  if b then [⟨.low, P.write1Low⟩, ⟨.high, P.write1High⟩] else [⟨.low, P.write0Low⟩, ⟨.high, P.write0High⟩]

/-- `encodeReadTrigger` (R172). -/
def encodeReadTrigger (P : Profile) : Seq := [⟨.low, P.write1Low⟩, ⟨.high, P.write1High⟩]

/-- `start(items, k)` (R174). -/
def startOf (items : Seq) (k : Nat) : Nat := dur (items.take k)

/-- The level at tick `t` of a sequence whose first item starts at tick `s` (R174). -/
def levelFrom (s : Nat) : Seq → Nat → Level
  | [],      _ => .high
  | x :: xs, t => if s ≤ t ∧ t < s + x.dur then x.level else levelFrom (s + x.dur) xs t

/-- `levelAt(items, t)` (R174). -/
def levelAt (items : Seq) (t : Nat) : Level := levelFrom 0 items t

/-- The scan of `decodePresence` over items whose first starts at tick `s` (R176). -/
def presenceFrom (P : Profile) (s : Nat) : Seq → Presence
  | []      => .absent
  | x :: xs =>
    if x.level = .low ∧ P.resetLow < s then
      if s < P.resetLow + P.rxIdleGap then .present else .absent
    else presenceFrom P (s + x.dur) xs

/-- `decodePresence(items, P)` (R176). -/
def decodePresence (items : Seq) (P : Profile) : Presence := presenceFrom P 0 items

/-- `decodeReadBit(items, P)` (R178). -/
def decodeReadBit (items : Seq) (P : Profile) : Bool := levelAt items P.sampleOffset == .high

/-- `LOW = 0`, `HIGH = 1` (R18). -/
def levelBit : Level → BitVec 1
  | .low  => 0#1
  | .high => 1#1

/-- `EncodeItem` (R120). -/
def encodeItem (x : Item) : BitVec 16 := levelBit x.level ++ BitVec.ofNat 15 x.dur

/-- `DecodeItem` (R120). -/
def decodeItem (w : BitVec 16) : Item :=
  ⟨if w.getLsbD 15 then .high else .low, (w.extractLsb' 0 15).toNat⟩

/-- The TX sequence of a slot kind (R204). -/
def txSeq (k : SlotKind) (P : Profile) : Seq :=
  match k with
  | .resetSlot   => encodeReset P
  | .writeSlot b => encodeWriteBit b P
  | .readSlot    => encodeReadTrigger P

/-- Whether a slot kind captures (R203, R204). -/
def SlotKind.captures : SlotKind → Bool
  | .resetSlot   => true
  | .writeSlot _ => false
  | .readSlot    => true

/-- `DecodeSlot` (R226). A write slot is never decoded: it has no capture (R203). -/
def decodeSlot (k : SlotKind) (items : Seq) (P : Profile) : SlotResult :=
  match k with
  | .resetSlot   => .presence (decodePresence items P)
  | .writeSlot _ => .done
  | .readSlot    => .bit (decodeReadBit items P)

/-- The line at tick `t` of a slot (R201, R202): low when the connected master or a responder drives it low. -/
def line (env : SlotEnv) (seq : Seq) (t : Nat) : Level :=
  if (env.txConnected = true ∧ levelAt seq t = .low) ∨ levelAt env.resp t = .low then .low else .high

/-- `DEADLINE` of a capture slot (R222). -/
def captureDeadline (p : Params) (P : Profile) (seq : Seq) : Nat := dur seq + P.rxIdleGap + p.captureMargin

end Sys2Proof.Machine
end

