-- ==== Sys2Proof/Machine/Flags.lean ====
section
/-! DEFINITION. The block has no condition codes (R46). A command's outcome is its response word: the status
codes, the result encodings and the word's layout (R110 to R113). -/

namespace Sys2Proof.Machine

/-- The status names of R111. -/
inductive Status where
  | ok
  | timingError
  | initError
  | captureTimeout
  deriving DecidableEq, Repr

/-- The code of a status (R111). -/
def statusCode : Status → BitVec 4
  | .ok             => 0#4
  | .timingError    => 1#4
  | .initError      => 2#4
  | .captureTimeout => 3#4

/-- `respond(status, data)`: `zext_32({data[7:0], 0b0000, status[3:0]})` (R110). -/
def responseWord (st : Status) (data : Byte) : Word := 0#16 ++ data ++ 0#4 ++ statusCode st

/-- `STATUS` of a response word (R110). -/
def responseStatus (w : Word) : BitVec 4 := w.extractLsb' 0 4

/-- `DATA` of a response word (R110). -/
def responseData (w : Word) : Byte := w.extractLsb' 8 8

/-- `zext_8` of a presence (R112, R113). -/
def presenceData : Presence → Byte
  | .present => 1#8
  | .absent  => 0#8

/-- `zext_8` of a bit (R112, R113). -/
def bitData (b : Bool) : Byte := if b then 1#8 else 0#8

end Sys2Proof.Machine
end

