-- ==== Sys2Proof/Machine/Ops.lean ====
section
/-! DEFINITION. The named operations over the state: reading and writing its parts, the ownership tables, raising a
model fault, returning a response, the bus lock, and the capture queue.

Raising a model fault (R326) is the block's only exception entry. It has no return: nothing traps (R340, R341). -/

namespace Sys2Proof.Machine

/-! ### Parts of the state -/

/-- `INST[i]`. -/
def State.inst? (s : State) (i : Nat) : Option Inst := s.insts[i]?

/-- `INST[i] <- x`. -/
def State.setInst (s : State) (i : Nat) (x : Inst) : State := { s with insts := s.insts.set i x }

/-- `TXE[c]`. -/
def State.tx? (s : State) (c : Chan) : Option TxEngine := s.txe[c.toNat]?

/-- `RXE[c]`. -/
def State.rx? (s : State) (c : Chan) : Option RxEngine := s.rxe[c.toNat]?

/-- `TXE[c] <- e`. -/
def State.setTx (s : State) (c : Chan) (e : TxEngine) : State := { s with txe := s.txe.set c.toNat e }

/-- `RXE[c] <- e`. -/
def State.setRx (s : State) (c : Chan) (e : RxEngine) : State := { s with rxe := s.rxe.set c.toNat e }

/-- `TXE[c].busy <- 0`, when the channel exists. -/
def State.quietTx (s : State) (c : Chan) : State :=
  match s.tx? c with
  | some e => s.setTx c { e with busy := false }
  | none   => s

/-- `RXE[c].armed <- 0; RXE[c].items <- []`, when the channel exists. -/
def State.quietRx (s : State) (c : Chan) : State :=
  match s.rx? c with
  | some e => s.setRx c { e with armed := false, items := [] }
  | none   => s

/-- The drive of a generate engine: `levelAt(seq, t)` while busy, released otherwise (R43, R201). -/
def TxEngine.drive (e : TxEngine) : Level :=
  match e.busy, e.seq, e.t with
  | true, some seq, some t => levelAt seq t
  | _, _, _                => .high

/-! ### The ownership tables (R41, R42) -/

/-- The owner of identifier `k`; `none` is `FREE`. -/
def ownerOf : Owners → Nat → Option Nat
  | [],           _ => none
  | (k', i) :: o, k => if k' = k then some i else ownerOf o k

/-- `OWNER[k] <- OWNED(i)`, keeping identifiers rising. -/
def claim : Owners → Nat → Nat → Owners
  | [],            k, i => [(k, i)]
  | (k', i') :: o, k, i =>
    if k < k' then (k, i) :: (k', i') :: o
    else if k = k' then (k, i) :: o
    else (k', i') :: claim o k i

/-- `OWNER[k] <- FREE`. -/
def release : Owners → Nat → Owners
  | [],           _ => []
  | (k', i) :: o, k => if k' = k then release o k else (k', i) :: release o k

/-- The canonical form of an ownership table: identifiers strictly rising. -/
abbrev Owners.wf (o : Owners) : Prop := o.Pairwise fun a b => a.1 < b.1

/-! ### Model faults (R325, R326) -/

/-- `raise Fault(reason)` on instance `i`: the sticky fault is set and nothing else changes, so the command ends with
no response and its caller stays blocked (R326, R328). A fault already set is kept (R40). -/
def raiseFault (s : State) (i : Nat) (r : FaultReason) : State :=
  match s.inst? i with
  | none   => s
  | some x =>
    match x.fault with
    | some _ => s
    | none   => s.setInst i { x with fault := some r }

/-! ### Responses (R100, R110) -/

/-- `respond(status, data)` from instance `i` to `caller`, whose command took `ticks` ticks: the caller is no longer
blocked (R100). -/
def respond (s : State) (i caller : Nat) (st : Status) (data : Byte) (ticks : Nat) : State :=
  { s with
    responses := ⟨i, caller, responseWord st data, ticks⟩ :: s.responses
    blocked := s.blocked.erase caller }

/-- The response of a command that takes effect in one step, to the caller at the port (R78, R380). -/
def respondPort (s : State) (st : Status) (data : Byte) : State :=
  respond s s.port.inst s.port.caller st data 0

/-! ### The port (R109, R335) -/

/-- A command at the port of an instance: no instance, no command; a faulted instance takes no step and its caller
stays blocked (R326); otherwise the command runs on the instance. -/
def onPort (s : State) (run : Inst → Result) : Result :=
  match s.inst? s.port.inst with
  | none   => .fault .noSuchInstance
  | some x =>
    match x.fault with
    | some _ => .next s
    | none   => run x

/-- The port takes a command from a caller, who blocks until the response (R100). -/
def State.accept (s : State) (i caller : Nat) (allocOk : Bool) : State :=
  { s with port := ⟨i, caller, allocOk⟩, blocked := caller :: s.blocked }

/-! ### The bus lock (R36, R250) -/

/-- `OP <- (kind, 0, 0)` of a command just granted the lock (R250). -/
def opStart (cmd : BusCmd) : Op := ⟨cmd, 0, 0#8, 0⟩

/-- `AcquireLock(i, c, kind)` (R250): the lock if it is free, else a place among the waiters. -/
def acquireLock (x : Inst) (caller : Nat) (cmd : BusCmd) : Inst :=
  match x.lock with
  | .free   => { x with lock := .held caller, op := some (opStart cmd) }
  | .held _ => { x with waiters := x.waiters ++ [⟨caller, cmd⟩] }

/-- The waiter that the draw `grant` picks, and the others (R16, R250): every waiter is picked by some draw. -/
def pickWaiter (ws : List Waiter) (grant : Nat) : Option (Waiter × List Waiter) :=
  match ws[grant % ws.length]? with
  | some w => some (w, ws.eraseIdx (grant % ws.length))
  | none   => none

/-- `Release(i)` (R250): the lock goes to the waiter drawn, or becomes free. -/
def releaseLock (x : Inst) (grant : Nat) : Inst :=
  match pickWaiter x.waiters grant with
  | none         => { x with op := none, lock := .free }
  | some (w, ws) => { x with op := some (opStart w.cmd), lock := .held w.caller, waiters := ws }

/-! ### The capture queue (R71) -/

/-- `QueuePush`; `none` when the queue is full. -/
def queuePush (depth : Nat) (q : List Batch) (b : Batch) : Option (List Batch) :=
  if q.length < depth then some (q ++ [b]) else none

/-- `QueuePop`; `none` when the queue is empty and the session waits. -/
def queuePop : List Batch → Option (Batch × List Batch)
  | []     => none
  | b :: q => some (b, q)

/-- `QueueFlush`. -/
def queueFlush (_q : List Batch) : List Batch := []

/-! ### Time in nanoseconds (R11, R381) -/

/-- `ticks` ticks in nanoseconds. -/
def nanoseconds (p : Params) (ticks : Nat) : Nat := ticks * p.tickNs

end Sys2Proof.Machine
end

