-- ==== Sys2Proof/Machine/Session.lean ====
section
/-! DEFINITION. The channel session: the trigger of a slot (R210), the generate engine (R211), the capture engine and
idle-gap detection (R213 to R218), the session wait and the capture timeout (R222 to R226), and the order of steps
within one tick (R237).

These rules read and write one instance and the two engines of its binding; `Xcvr` is those three together. -/

namespace Sys2Proof.Machine

/-- An instance with the generate engine of its `TXCH` and the capture engine of its `RXCH`. -/
structure Xcvr where
  inst : Inst
  tx   : TxEngine
  rx   : RxEngine
  deriving DecidableEq, Repr

/-- What a tick reads and does not write: the parameters, the binding's profile, the kind and the draws of the slot,
its TX sequence, and the tick `t = SESS_T` at its start. -/
structure SlotCtx where
  params  : Params
  profile : Profile
  kind    : SlotKind
  env     : SlotEnv
  seq     : Seq
  t       : Nat
  deriving DecidableEq, Repr

/-- The end of one step of a tick: it goes on, or it raises a model fault, with what the steps before it wrote (R328). A
step that would read a register that holds no value raises `noValue` (R48). -/
inductive TickResult where
  | ok (u : Xcvr)
  | raise (r : FaultReason) (u : Xcvr)
  deriving DecidableEq, Repr

/-- The next step of a tick runs only if the one before it went on. -/
def andThen (a : TickResult) (f : Xcvr → TickResult) : TickResult :=
  match a with
  | .ok u      => f u
  | .raise r u => .raise r u

/-! ### The trigger (R210) -/

/-- `Trigger(i, k, seq)` with the slot's draws: a capture slot flushes the queue, arms the capture engine and sets the
deadline, and its session passes through `Triggered` to `Capturing` at once (R210, R232). -/
def trigger (p : Params) (P : Profile) (k : SlotKind) (env : SlotEnv) (u : Xcvr) : Xcvr :=
  let tx' : TxEngine := ⟨true, some (txSeq k P), some 0⟩
  if k.captures then
    { inst := { u.inst with
        queue    := u.inst.queue.map queueFlush
        deadline := some (captureDeadline p P (txSeq k P))
        sessT    := some 0
        session  := .capturing
        env      := some env }
      tx := tx'
      rx := ⟨true, [], none, some 0, some 0⟩ }
  else
    { inst := { u.inst with sessT := some 0, session := .triggered, env := some env }
      tx := tx'
      rx := u.rx }

/-! ### The steps of a tick (R237) -/

/-- Step 1: the generate engine is done at `t = dur(seq)` (R211). -/
def txDone (k : SlotCtx) (u : Xcvr) : Xcvr :=
  if k.t = dur k.seq then { u with tx := { u.tx with busy := false } } else u

/-- The condition of the idle gap (R215). -/
def idleGapReached (k : SlotCtx) (rx : RxEngine) : Bool :=
  rx.armed && k.env.rxAlive && decide (0 < k.t) && rx.lvl == some Level.high && rx.len == some k.profile.rxIdleGap

/-- Step 2: `RxIdleCheck` (R215), with the push of R71. -/
def rxIdleCheck (k : SlotCtx) (u : Xcvr) : TickResult :=
  if idleGapReached k u.rx then
    match u.inst.queue with
    | none   => .raise .noValue u
    | some q =>
      match queuePush k.params.queueDepth q ⟨u.rx.items, .idleGap⟩ with
      | none    => .raise .queueOverflow u
      | some q' =>
        .ok { u with
          inst := { u.inst with queue := some q', capEnd := some k.t }
          rx := { u.rx with armed := false } }
  else .ok u

/-- Step 3: the session pops a batch if one is present (R223). -/
def popBatch (u : Xcvr) : Xcvr :=
  match u.inst.session, u.inst.queue.bind queuePop with
  | .capturing, some (b, q) =>
    { u with inst := { u.inst with queue := some q, decodeItems := some b.items, session := .draining } }
  | _, _ => u

/-- `OnTimeout(i)` at deadline `d` (R224): completed items are decoded as a normal end, and none is a hard error. -/
def onTimeout (d : Nat) (u : Xcvr) : Xcvr :=
  let x := { u.inst with queue := u.inst.queue.map queueFlush, capEnd := some d }
  let rx' := { u.rx with armed := false }
  if u.rx.items = [] then
    { u with inst := { x with slotResult := some .captureTimeout, session := .idle }, rx := rx' }
  else
    { u with inst := { x with decodeItems := some u.rx.items, session := .draining }, rx := rx' }

/-- Step 4: the capture timeout, if the session still waits at `t = DEADLINE` (R224, R225). -/
def timeoutCheck (k : SlotCtx) (u : Xcvr) : TickResult :=
  match u.inst.session with
  | .capturing =>
    match u.inst.deadline with
    | none   => .raise .noValue u
    | some d => if k.t = d then .ok (onTimeout d u) else .ok u
  | _ => .ok u

/-- Step 5: the completion transitions out of `Triggered` and `Draining` (R226, R230). -/
def complete (k : SlotCtx) (u : Xcvr) : TickResult :=
  match u.inst.session with
  | .triggered =>
    if k.t = dur k.seq ∧ k.kind.captures = false then
      .ok { u with inst := { u.inst with session := .idle, slotResult := some .done } }
    else .ok u
  | .draining =>
    if dur k.seq ≤ k.t then
      match u.inst.decodeItems with
      | none       => .raise .noValue u
      | some items =>
        .ok { u with inst := { u.inst with
          session := .idle, slotResult := some (decodeSlot k.kind items k.profile) } }
    else .ok u
  | .idle => .ok u
  | .capturing => .ok u

/-- Step 6: `RxSample` (R214, R218), while the engine is armed. An engine on a dead channel records nothing (R213), and
its clock goes on (R346). -/
def rxSample (k : SlotCtx) (u : Xcvr) : TickResult :=
  if u.rx.armed = false then .ok u
  else if k.env.rxAlive = false then .ok { u with rx := { u.rx with t := some (k.t + 1) } }
  else
    let v := line k.env k.seq k.t
    if k.t = 0 then
      .ok { u with rx := { u.rx with lvl := some v, len := some 1, t := some (k.t + 1) } }
    else
      match u.rx.lvl, u.rx.len with
      | some l, some n =>
        if v = l then .ok { u with rx := { u.rx with len := some (n + 1), t := some (k.t + 1) } }
        else if u.rx.items.length = k.params.rxMaxItems then .raise .captureOverflow u
        else
          .ok { u with rx := { u.rx with
            items := u.rx.items ++ [⟨l, n⟩], lvl := some v, len := some 1, t := some (k.t + 1) } }
      | _, _ => .raise .noValue u

/-- Step 7: the generate engine drives its level for this tick, and its clock advances, in lock-step with the session
timer, to the end of the slot (R43, R211, R346). -/
def txDrive (u : Xcvr) : Xcvr := { u with tx := { u.tx with t := u.tx.t.map (· + 1) } }

/-- One more tick of the operation in flight (R380). -/
def opTick (o : Op) : Op := { o with elapsed := o.elapsed + 1 }

/-- Step 8: `SESS_T <- t + 1`. -/
def sessAdvance (k : SlotCtx) (u : Xcvr) : Xcvr :=
  { u with inst := { u.inst with sessT := some (k.t + 1), op := u.inst.op.map opTick } }

/-- Steps 6 to 8, which run only while the slot is not over (R237). -/
def slotGoesOn (k : SlotCtx) (u : Xcvr) : TickResult :=
  if u.inst.session = .idle then .ok u
  else andThen (rxSample k u) fun u => .ok (sessAdvance k (txDrive u))

/-- One tick of the slot in flight, its steps in the order of R237. The slot is over when `SESSION` is `Idle` after it. -/
def slotTick (k : SlotCtx) (u : Xcvr) : TickResult :=
  andThen (rxIdleCheck k (txDone k u)) fun u =>
  andThen (timeoutCheck k (popBatch u)) fun u =>
  andThen (complete k u) (slotGoesOn k)

end Sys2Proof.Machine
end

