-- ==== Sys2Proof/Machine/Bus.lean ====
section
/-! DEFINITION. The bus commands (R250 to R272): what each does at the port, the slot an operation runs next, what a
completed slot does to the operation, and the moves of an instance with an operation in flight. -/

namespace Sys2Proof.Machine

/-! ### At the port (R109, R250) -/

/-- A bus command at the port (R109): on an unbound instance the fault `F_NOT_BOUND`, else it takes the lock or waits
for it (R250). Its slots run in later steps. -/
def busCommand (cmd : BusCmd) (s : State) : Result :=
  onPort s fun x =>
    match x.binding with
    | none   => .next (raiseFault s s.port.inst .notBound)
    | some _ => .next (s.setInst s.port.inst (acquireLock x s.port.caller cmd))

/-- RESET (R255). -/
def execReset (s : State) : Result := busCommand .reset s

/-- WRITE_BIT (R258). -/
def execWriteBit (b : Bool) (s : State) : Result := busCommand (.writeBit b) s

/-- READ_BIT (R261). -/
def execReadBit (s : State) : Result := busCommand .readBit s

/-- WRITE_BYTE (R264). -/
def execWriteByte (v : Byte) (s : State) : Result := busCommand (.writeByte v) s

/-- READ_BYTE (R267). -/
def execReadByte (s : State) : Result := busCommand .readByte s

/-! ### The operation in flight -/

/-- The slot the operation runs now (R255 to R267): a byte goes least-significant bit first (R75). -/
def slotKindOf (o : Op) : SlotKind :=
  match o.cmd with
  | .reset       => .resetSlot
  | .writeBit b  => .writeSlot b
  | .readBit     => .readSlot
  | .writeByte v => .writeSlot (v.getLsbD o.slot.val)
  | .readByte    => .readSlot

/-- What a completed slot leaves to do (R255 to R267). -/
inductive AfterSlot where
  /-- The operation goes on with another slot. -/
  | nextSlot (o : Op)
  /-- The operation ends with this response. -/
  | finished (st : Status) (data : Byte)
  /-- The slot's result holds no value of the kind the command reads (R48); no coherent state has one. -/
  | noValue
  deriving DecidableEq, Repr

/-- `acc | (b << j)` (R267). -/
def accWith (acc : Byte) (j : Fin 8) (b : Bool) : Byte := acc ||| (bitData b <<< j.val)

/-- RESET after its slot (R255). -/
def afterReset : SlotResult → AfterSlot
  | .presence p     => .finished .ok (presenceData p)
  | .captureTimeout => .finished .captureTimeout 0#8
  | .done           => .noValue
  | .bit _          => .noValue

/-- WRITE_BIT after its slot (R258), whose result it does not read. -/
def afterWriteBit : AfterSlot := .finished .ok 0#8

/-- READ_BIT after its slot (R261). -/
def afterReadBit : SlotResult → AfterSlot
  | .bit b          => .finished .ok (bitData b)
  | .captureTimeout => .finished .captureTimeout 0#8
  | .done           => .noValue
  | .presence _     => .noValue

/-- WRITE_BYTE after slot `o.slot` (R264), whose result it does not read. -/
def afterWriteByte (o : Op) : AfterSlot :=
  if o.slot.val < 7 then .nextSlot { o with slot := o.slot + 1 } else .finished .ok 0#8

/-- READ_BYTE after slot `o.slot` (R267): a timeout ends it at once and the partial byte is lost. -/
def afterReadByte (o : Op) : SlotResult → AfterSlot
  | .bit b =>
    if o.slot.val < 7 then .nextSlot { o with slot := o.slot + 1, acc := accWith o.acc o.slot b }
    else .finished .ok (accWith o.acc o.slot b)
  | .captureTimeout => .finished .captureTimeout 0#8
  | .done           => .noValue
  | .presence _     => .noValue

/-- The bus operation takes the result of its slot (R252). -/
def afterSlot (o : Op) (r : SlotResult) : AfterSlot :=
  match o.cmd with
  | .reset       => afterReset r
  | .writeBit _  => afterWriteBit
  | .readBit     => afterReadBit r
  | .writeByte _ => afterWriteByte o
  | .readByte    => afterReadByte o r

/-! ### The moves of an instance -/

/-- The instance with its two engines, as the binding names them. -/
def gather (s : State) (x : Inst) (b : Binding) : Option Xcvr :=
  match s.tx? b.tx, s.rx? b.rx with
  | some tx, some rx => some ⟨x, tx, rx⟩
  | _, _             => none

/-- Write the instance and its two engines back. -/
def scatter (s : State) (i : Nat) (b : Binding) (u : Xcvr) : State :=
  ((s.setInst i u.inst).setTx b.tx u.tx).setRx b.rx u.rx

/-- What a tick reads, when every register it reads holds a value (R48). -/
def slotCtx (s : State) (x : Inst) (b : Binding) (tx : TxEngine) : Option SlotCtx :=
  match x.op, x.env, tx.seq, x.sessT with
  | some o, some env, some seq, some t => some ⟨s.params, b.profile, slotKindOf o, env, seq, t⟩
  | _, _, _, _                         => none

/-- A completed slot hands `SLOT_RESULT` to the bus operation (R236, R252), which runs another slot or releases the lock
and then responds to the holder (R253). Where there is no operation, no result or no holder to read, it is the model fault
of R48. -/
def slotDone (s : State) (i : Nat) (grant : Nat) : Result :=
  match s.inst? i with
  | none   => .next s
  | some x =>
    match x.op, x.slotResult, x.lock with
    | some o, some r, .held c =>
      match afterSlot o r with
      | .nextSlot o'      => .next (s.setInst i { x with op := some o' })
      | .finished st data => .next (respond (s.setInst i (releaseLock x grant)) i c st data o.elapsed)
      | .noValue          => .next (raiseFault s i .noValue)
    | _, _, _ => .next (raiseFault s i .noValue)

/-- What a tick of instance `i` leaves (R237, R326). -/
def afterTick (s : State) (i : Nat) (b : Binding) (grant : Nat) : TickResult → Result
  | .raise r u => .next (raiseFault (scatter s i b u) i r)
  | .ok u      => if u.inst.session = .idle then slotDone (scatter s i b u) i grant else .next (scatter s i b u)

/-- One tick of the slot in flight on instance `i` (R237). An instance that is faulted (R326) or has no slot in flight
takes no step. A tick that would read a register holding no value is the model fault of R48. -/
def tickInst (s : State) (i : Nat) (grant : Nat) : Result :=
  match s.inst? i with
  | none   => .next s
  | some x =>
    if x.fault.isSome ∨ x.session = .idle then .next s
    else
      match x.binding with
      | none   => .next (raiseFault s i .noValue)
      | some b =>
        match gather s x b with
        | none   => .next (raiseFault s i .noValue)
        | some u =>
          match slotCtx s x b u.tx with
          | none   => .next (raiseFault s i .noValue)
          | some k => afterTick s i b grant (slotTick k u)

/-- The trigger of the next slot on instance `i` (R210, R251): only with an operation in flight, `SESSION = Idle` and
the generate engine not busy; otherwise the instance takes no step. A trigger that would read a binding that holds no
value is the model fault of R48. -/
def triggerInst (s : State) (i : Nat) (env : SlotEnv) : Result :=
  match s.inst? i with
  | none   => .next s
  | some x =>
    if x.fault.isSome ∨ x.session ≠ .idle then .next s
    else
      match x.op with
      | none   => .next s
      | some o =>
        match x.binding with
        | none   => .next (raiseFault s i .noValue)
        | some b =>
          match gather s x b with
          | none   => .next (raiseFault s i .noValue)
          | some u =>
            if u.tx.busy then .next s
            else .next (scatter s i b (trigger s.params b.profile (slotKindOf o) env u))

/-- One tick of the gap before the next trigger of instance `i`, the line released (R251): only with an operation in
flight and `SESSION = Idle`. -/
def gapInst (s : State) (i : Nat) : Result :=
  match s.inst? i with
  | none   => .next s
  | some x =>
    if x.fault.isSome ∨ x.session ≠ .idle then .next s
    else .next (s.setInst i { x with op := x.op.map opTick })

end Sys2Proof.Machine
end

