-- ==== Sys2Proof/Machine/Lifecycle.lean ====
section
/-! DEFINITION. BIND and UNBIND (R290 to R298). -/

namespace Sys2Proof.Machine

/-- The causes of `INIT_ERROR` (R292 to R294). They all give the same response (R295). -/
def bindRefused (s : State) (pin : Pin) (tx rx : Chan) : Bool :=
  decide (s.params.nch ≤ tx.toNat) || decide (s.params.nch ≤ rx.toNat) || tx == rx ||
  (ownerOf s.chanOwner tx.toNat).isSome || (ownerOf s.chanOwner rx.toNat).isSome ||
  !(s.params.validPins.contains pin) || (ownerOf s.pinOwner pin.toNat).isSome ||
  !s.port.allocOk

/-- The ownership a successful BIND writes (R290, R293). -/
def claimAll (s : State) (i : Nat) (b : Binding) : State :=
  { s with
    chanOwner := claim (claim s.chanOwner b.tx.toNat i) b.rx.toNat i
    pinOwner  := claim s.pinOwner b.pin.toNat i }

/-- The instance after a successful BIND (R290). -/
def boundInst (x : Inst) (b : Binding) : Inst :=
  { x with binding := some b, queue := some [], session := .idle, op := none }

/-- What a successful BIND writes (R290). -/
def bindInst (s : State) (i : Nat) (x : Inst) (b : Binding) : State :=
  (((claimAll s i b).setInst i (boundInst x b)).quietTx b.tx).quietRx b.rx

/-- BIND (R290): `TIMING_ERROR` comes before every cause of `INIT_ERROR`, and a BIND that answers either writes nothing
(R295). -/
def execBind (pin : Pin) (tx rx : Chan) (sel : ProfileSel) (s : State) : Result :=
  onPort s fun x =>
    match x.binding with
    | some _ => .next (raiseFault s s.port.inst .alreadyBound)
    | none   =>
      if validProfile s.params (profileOf sel) = false then .next (respondPort s .timingError 0#8)
      else if bindRefused s pin tx rx then .next (respondPort s .initError 0#8)
      else .next (respondPort (bindInst s s.port.inst x ⟨pin, tx, rx, profileOf sel⟩) .ok 0#8)

/-- The ownership UNBIND gives back (R296). -/
def releaseAll (s : State) (b : Binding) : State :=
  { s with
    chanOwner := release (release s.chanOwner b.tx.toNat) b.rx.toNat
    pinOwner  := release s.pinOwner b.pin.toNat }

/-- The instance after UNBIND (R49, R296): `LOCK`, `WAITERS` and `FAULT` stay, `SESSION` is `Idle` and `OP` is `NONE`,
and no other register holds a value. -/
def unboundInst (x : Inst) : Inst :=
  { x with
    binding := none, session := .idle, op := none, queue := none
    sessT := none, deadline := none, capEnd := none, decodeItems := none, slotResult := none, env := none }

/-- What UNBIND writes (R296). -/
def unbindInst (s : State) (i : Nat) (x : Inst) (b : Binding) : State :=
  (((releaseAll s b).setInst i (unboundInst x)).quietTx b.tx).quietRx b.rx

/-- UNBIND (R296). -/
def execUnbind (s : State) : Result :=
  onPort s fun x =>
    match x.binding with
    | none   => .next (raiseFault s s.port.inst .notBound)
    | some b =>
      if x.lock ≠ .free ∨ x.session ≠ .idle then .next (raiseFault s s.port.inst .inFlightMutation)
      else .next (respondPort (unbindInst s s.port.inst x b) .ok 0#8)

end Sys2Proof.Machine
end

