-- ==== Sys2Proof/Machine/Profile.lean ====
section
/-! DEFINITION. VALIDATE (R147). -/

namespace Sys2Proof.Machine

/-- VALIDATE (R147): checks a profile; it reads no binding, takes no lock and writes no state. -/
def execValidate (sel : ProfileSel) (s : State) : Result :=
  onPort s fun _ =>
    if validProfile s.params (profileOf sel) then .next (respondPort s .ok 0#8)
    else .next (respondPort s .timingError 0#8)

end Sys2Proof.Machine
end

