-- ==== Sys2Proof/Machine/Port.lean ====
section
/-! DEFINITION. The moves of the environment on the whole system (R80, R100, R109, R337). -/

namespace Sys2Proof.Machine

/-- The environment's next move: the next one placed, else a free value (R16). -/
def nextEvent (s : State) : Event :=
  match s.script with
  | e :: _ => e
  | []     => Config.freeEvent s.drawn

/-- The state once that move has been taken. -/
def popEvent (s : State) : State :=
  match s.script with
  | _ :: es => { s with script := es }
  | []      => { s with drawn := s.drawn + 1 }

/-- A command the port has accepted: an illegal one raises `F_ILLEGAL_COMMAND` (R108, R109), unless the instance is
faulted already and takes no step (R326). -/
def runDecoded (d : Decoded) (s : State) : Result :=
  match d with
  | .ok i       => exec i s
  | .illegal _  => onPort s fun _ => .next (raiseFault s s.port.inst .illegalCommand)
  | .incomplete => .next s

/-- A caller issues a command (R100, R109). A caller has at most one command outstanding (R100), and the port accepts
no partial command (R77): either way nothing happens. -/
def issue (s : State) (i caller : Nat) (words : List Word) (allocOk : Bool) : Result :=
  if caller ∈ s.blocked ∨ decode words = .incomplete then .next s
  else runDecoded (decode words) (s.accept i caller allocOk)

/-- One move of the environment. -/
def runEvent (e : Event) (s : State) : Result :=
  match e with
  | .issue i caller words allocOk => issue s i caller words allocOk
  | .gapTick i                    => gapInst s i
  | .trigger i env                => triggerInst s i env
  | .tick i grant                 => tickInst s i grant

/-- A caller with no command outstanding. -/
def freshCaller (s : State) : Nat := s.blocked.foldr (fun c m => max (c + 1) m) 0

/-- The move that issues the words to instance 0, with a queue allocation that succeeds. -/
def placedIssue (s : State) (words : List Word) : Event := .issue 0 (freshCaller s) words true

end Sys2Proof.Machine
end

