-- ==== Sys2Proof/Machine/Step.lean ====
section
/-! DEFINITION. One step of the system, and the placing of a command as its next move. -/

namespace Sys2Proof.Machine

/-- One step: the environment's next move. -/
def step (s : State) : Host.Outcome State Fault Refusal := runEvent (nextEvent s) (popEvent s)

/-- The command whose bits are `w` as the next move (log entry 4). -/
def State.withFetchWord (s : State) (nbits w : Nat) : State :=
  { s with script := placedIssue s (tableWords nbits w) :: s.script }

end Sys2Proof.Machine
end

