-- ==== Sys2Proof/Machine/ClosedForm.lean ====
section
/-! DEFINITION. The capture and the slot in closed form (R219, R238). The machine does not use them: they are the rules'
second description of the same slot, which the tick rules are claimed to meet. -/

namespace Sys2Proof.Machine

/-- One more tick of level `v` after the given runs: it lengthens the last run or starts another. -/
def addTick : Seq → Level → Seq
  | [],           v => [⟨v, 1⟩]
  | [x],          v => if x.level = v then [⟨v, x.dur + 1⟩] else [x, ⟨v, 1⟩]
  | x :: y :: xs, v => x :: addTick (y :: xs) v

/-- The runs of a waveform over the ticks `0 .. n-1`, the last one cut at `n` (R219). -/
def runsOf (obs : Nat → Level) : Nat → Seq
  | 0     => []
  | n + 1 => addTick (runsOf obs n) (obs n)

/-- `T_idle` (R219): the first `S_k + G` of a high run of at least `G` ticks; `none` when the runs have none. -/
def idleTick (G : Nat) (s : Nat) : Seq → Option Nat
  | []      => none
  | x :: xs => if x.level = .high ∧ G ≤ x.dur then some (s + G) else idleTick G (s + x.dur) xs

/-- The runs, the first starting at tick `s`, that an edge completes before tick `tCap` (R219). -/
def completedBefore (tCap : Nat) (s : Nat) : Seq → Seq
  | []      => []
  | x :: xs =>
    if s + x.dur < tCap then x :: completedBefore tCap (s + x.dur) xs else completedBefore tCap (s + x.dur) xs

/-- The outcome of a capture (R219). -/
inductive Captured where
  | batch (items : Seq) (t : Nat)
  | timeout (items : Seq) (t : Nat)
  | overflow
  deriving DecidableEq, Repr

/-- `Capture(obs, G, D, rxAlive, M)` (R219). The runs over `0 .. D-1` decide it: a high run reaches the idle gap by
tick `D` exactly when at least `G` of its ticks are among them, and the run still open at `D` is not completed. -/
def capture (obs : Nat → Level) (G D : Nat) (rxAlive : Bool) (M : Nat) : Captured :=
  if rxAlive = false then .timeout [] D
  else
    match idleTick G 0 (runsOf obs D) with
    | some T =>
      if M < (completedBefore T 0 (runsOf obs D)).length then .overflow
      else .batch (completedBefore T 0 (runsOf obs D)) T
    | none =>
      if M < (completedBefore D 0 (runsOf obs D)).length then .overflow
      else .timeout (completedBefore D 0 (runsOf obs D)) D

/-- The capture of a slot (R219, R238). -/
def slotCapture (p : Params) (k : SlotKind) (P : Profile) (env : SlotEnv) : Captured :=
  capture (line env (txSeq k P)) P.rxIdleGap (captureDeadline p P (txSeq k P)) env.rxAlive p.rxMaxItems

/-- `CAP_END` and `DECODE_ITEMS` once the capture of a slot of instance `x` has ended (R215, R223, R224): a timeout with no
items hands nothing to the codec, and an overflow ends nothing. -/
def captureRegs (x : Inst) : Captured → Option Nat × Option Seq
  | .batch items t   => (some t, some items)
  | .timeout [] t    => (some t, x.decodeItems)
  | .timeout items t => (some t, some items)
  | .overflow        => (x.capEnd, x.decodeItems)

/-- The outcome of a slot: its result and its completion tick, or the capture overflow (R238). -/
inductive SlotOutcome where
  | finished (r : SlotResult) (t : Nat)
  | overflow
  deriving DecidableEq, Repr

/-- `RunSlot` (R238), on the parameters and the slot's draws. -/
def runSlot (p : Params) (k : SlotKind) (P : Profile) (env : SlotEnv) : SlotOutcome :=
  if k.captures = false then .finished .done (dur (txSeq k P))
  else
    match slotCapture p k P env with
    | .overflow         => .overflow
    | .batch items T    => .finished (decodeSlot k items P) (max (dur (txSeq k P)) T)
    | .timeout [] D     => .finished .captureTimeout D
    | .timeout items D  => .finished (decodeSlot k items P) D

end Sys2Proof.Machine
end

