-- ==== Sys2Proof/Safety.lean ====
section
/-! DEFINITION. What counts as a coherent state and a healthy bus, and the runs that statements speak of. -/

namespace Sys2Proof.Machine

/-! ### Coherent states -/

/-- What a binding of instance `i` owns and meets: two different channels that exist, a valid pin, all three owned by
`i`, and a profile that passed validation and fits its fields (R34, R35, R41, R42, R290). -/
structure BindingOwned (s : State) (i : Nat) (b : Binding) : Prop where
  txExists : b.tx.toNat < s.params.nch
  rxExists : b.rx.toNat < s.params.nch
  distinct : b.tx ≠ b.rx
  pinValid : b.pin ∈ s.params.validPins
  txOwned  : ownerOf s.chanOwner b.tx.toNat = some i
  rxOwned  : ownerOf s.chanOwner b.rx.toNat = some i
  pinOwned : ownerOf s.pinOwner b.pin.toNat = some i
  profile  : validProfile s.params b.profile = true
  fits     : b.profile.fits = true

/-- The ownership tables are canonical and say exactly which bound instance holds which identifier (R41, R42), and
there is one engine of each kind per channel (R43, R44). -/
structure OwnershipOk (s : State) : Prop where
  chanForm : Owners.wf s.chanOwner
  pinForm  : Owners.wf s.pinOwner
  txCount  : s.txe.length = s.params.nch
  rxCount  : s.rxe.length = s.params.nch
  bound    : ∀ i x b, s.inst? i = some x → x.binding = some b → BindingOwned s i b
  chans    : ∀ c i, ownerOf s.chanOwner c = some i →
    ∃ x b, s.inst? i = some x ∧ x.binding = some b ∧ (c = b.tx.toNat ∨ c = b.rx.toNat)
  pins     : ∀ c i, ownerOf s.pinOwner c = some i →
    ∃ x b, s.inst? i = some x ∧ x.binding = some b ∧ c = b.pin.toNat

/-- The lock, the operation and the session agree (R36 to R39): an operation is in flight exactly while the lock is
held, nobody waits for a free lock, and an unbound instance has neither operation, slot nor queue. -/
structure LockOk (x : Inst) : Prop where
  opHeld  : x.op = none ↔ x.lock = .free
  waiters : x.lock = .free → x.waiters = []
  flight  : x.session ≠ .idle → x.op ≠ none
  unbound : x.binding = none → x.lock = .free ∧ x.session = .idle
  queue   : x.queue.isSome = x.binding.isSome

/-- The generate engine `t` ticks after the trigger of a sequence, before tick `t` (R43, R211, R346). -/
def txAt (seq : Seq) (t : Nat) : TxEngine := ⟨decide (t ≤ dur seq), some seq, some t⟩

/-- The capture engine `t` ticks after it was armed, while the capture goes on (R213 to R218): a dead engine records
nothing; a live one has a current run, no longer than the capture and, when high, no longer than the idle gap. -/
structure RxOk (p : Params) (P : Profile) (env : SlotEnv) (t : Nat) (rx : RxEngine) : Prop where
  armed : rx.armed = true
  room  : rx.items.length ≤ p.rxMaxItems
  clock : rx.t = some t
  dead  : env.rxAlive = false → rx.items = [] ∧ rx.len = some 0
  start : t = 0 → rx.items = [] ∧ rx.len = some 0
  run   : env.rxAlive = true → 0 < t →
    ∃ l n, rx.lvl = some l ∧ rx.len = some n ∧ 0 < n ∧ n ≤ t ∧ (l = .high → n ≤ P.rxIdleGap)

/-- The slot of a bound instance that is not faulted, by the state of its session (R230 to R236). The queue is empty
between ticks, because a batch is popped at the tick it is pushed (R223). -/
def SlotOk (p : Params) (P : Profile) (x : Inst) (tx : TxEngine) (rx : RxEngine) : Prop :=
  x.queue = some [] ∧
  match x.session with
  | .idle => tx.busy = false ∧ rx.armed = false
  | .triggered => ∃ o env t, x.op = some o ∧ x.env = some env ∧ x.sessT = some t ∧
      (slotKindOf o).captures = false ∧ tx = txAt (txSeq (slotKindOf o) P) t ∧
      t ≤ dur (txSeq (slotKindOf o) P) ∧ rx.armed = false
  | .capturing => ∃ o env t, x.op = some o ∧ x.env = some env ∧ x.sessT = some t ∧
      (slotKindOf o).captures = true ∧ tx = txAt (txSeq (slotKindOf o) P) t ∧
      x.deadline = some (captureDeadline p P (txSeq (slotKindOf o) P)) ∧
      t ≤ captureDeadline p P (txSeq (slotKindOf o) P) ∧ RxOk p P env t rx
  | .draining => ∃ o env t items, x.op = some o ∧ x.env = some env ∧ x.sessT = some t ∧
      (slotKindOf o).captures = true ∧ tx = txAt (txSeq (slotKindOf o) P) t ∧
      t ≤ dur (txSeq (slotKindOf o) P) ∧ x.decodeItems = some items ∧ rx.armed = false

/-- A coherent state. It holds at power-on, and every step keeps it. -/
structure State.Coherent (s : State) : Prop where
  params  : s.params.wf = true
  count   : 1 ≤ s.insts.length
  callers : s.blocked.Nodup
  owners  : OwnershipOk s
  locks   : ∀ i x, s.inst? i = some x → LockOk x
  slots   : ∀ i x b tx rx, s.inst? i = some x → x.fault = none → x.binding = some b →
    s.tx? b.tx = some tx → s.rx? b.rx = some rx → SlotOk s.params b.profile x tx rx

/-! ### The bus -/

/-- A healthy bus (R16): both channels work. -/
abbrev healthy (e : SlotEnv) : Prop := e.rxAlive = true ∧ e.txConnected = true

/-- A healthy bus whose responders drive as `resp` says. -/
def healthyBus (resp : Seq) : SlotEnv := ⟨true, true, resp⟩

/-- A responder that drives low over the ticks `a .. b-1`. -/
def lowOver (a b : Nat) : Seq := [⟨.high, a⟩, ⟨.low, b - a⟩]

/-! ### Instances -/

/-- Instance `i` is bound by `b`, is not faulted, and is `x`. -/
structure LiveBound (s : State) (i : Nat) (x : Inst) (b : Binding) : Prop where
  inst  : s.inst? i = some x
  live  : x.fault = none
  bound : x.binding = some b

/-- The TX sequence of the operation's slot on the binding's profile (R204). -/
abbrev opSeq (b : Binding) (o : Op) : Seq := txSeq (slotKindOf o) b.profile

/-- The deadline of the operation's slot (R222). -/
abbrev opDeadline (p : Params) (b : Binding) (o : Op) : Nat := captureDeadline p b.profile (opSeq b o)

/-- What a tick of instance `x` finds: its binding, the operation in flight, the slot's draws, the timer at tick `n`, and
the two engines. -/
structure SlotAt (s : State) (x : Inst) (b : Binding) (o : Op) (env : SlotEnv) (n : Nat) (tx : TxEngine)
    (rx : RxEngine) : Prop where
  bound : x.binding = some b
  inOp  : x.op = some o
  draws : x.env = some env
  timer : x.sessT = some n
  gen   : s.tx? b.tx = some tx
  cap   : s.rx? b.rx = some rx

/-- The idle gap is reached at tick `n` (R215): the live, armed engine has seen the line high for exactly `rxIdleGap`
ticks. -/
structure GapAt (P : Profile) (env : SlotEnv) (n : Nat) (rx : RxEngine) : Prop where
  armed : rx.armed = true
  alive : env.rxAlive = true
  later : 0 < n
  high  : rx.lvl = some .high
  full  : rx.len = some P.rxIdleGap

/-- The edge at tick `n` completes one item more than the engine holds (R214, R218). -/
structure OverflowAt (p : Params) (b : Binding) (o : Op) (env : SlotEnv) (n : Nat) (rx : RxEngine) : Prop where
  armed : rx.armed = true
  alive : env.rxAlive = true
  later : 0 < n
  full  : rx.items.length = p.rxMaxItems
  edge  : rx.lvl.isSome = true ∧ rx.lvl ≠ some (line env (opSeq b o) n)

/-- The instance a move addresses. -/
def eventTarget : Event → Nat
  | .issue i _ _ _ => i
  | .gapTick i     => i
  | .trigger i _   => i
  | .tick i _      => i

/-- The bus command a command word stands for, if it is one (R109). -/
def busCmdOf : Instr → Option BusCmd
  | .validate _    => none
  | .reset         => some .reset
  | .writeBit b    => some (.writeBit b)
  | .readBit       => some .readBit
  | .writeByte v   => some (.writeByte v)
  | .readByte      => some .readByte
  | .bind _ _ _ _  => none
  | .unbind        => none

/-- The mnemonic of a command (R103). -/
def mnemonicOf : Instr → Mnemonic
  | .validate _    => .validate
  | .reset         => .reset
  | .writeBit _    => .writeBit
  | .readBit       => .readBit
  | .writeByte _   => .writeByte
  | .readByte      => .readByte
  | .bind _ _ _ _  => .bind
  | .unbind        => .unbind

/-! ### Runs -/

/-- The moves one after another, stopping at the first fault or refusal. -/
def runEvents : List Event → State → Result
  | [],      s => .next s
  | e :: es, s =>
    match runEvent e s with
    | .next s'   => runEvents es s'
    | .fault r   => .fault r
    | .refused r => .refused r

/-- One slot of instance `i` as moves: the gap, the trigger with the slot's draws, and the ticks `0 .. T` of a slot that
completes at tick `T` (R236, R251). -/
def slotEvents (i gap : Nat) (env : SlotEnv) (T grant : Nat) : List Event :=
  List.replicate gap (.gapTick i) ++ .trigger i env :: List.replicate (T + 1) (.tick i grant)

/-- The moves of a byte operation: `n` slots, slot `j` with its own gap, draws and completion tick (R264, R267). -/
def byteEvents (i n : Nat) (gap : Nat → Nat) (env : Nat → SlotEnv) (T : Nat → Nat) (grant : Nat) : List Event :=
  (List.range n).flatMap fun j => slotEvents i (gap j) (env j) (T j) grant

/-- The ticks those moves take (R380). -/
def byteTicks (n : Nat) (gap T : Nat → Nat) : Nat := ((List.range n).map fun j => gap j + T j).sum

/-- A bus command can start at once at the port: the state is coherent, and the port's instance is bound by `b`, not
faulted, and its lock is free (R250). -/
structure Ready (s : State) (x : Inst) (b : Binding) : Prop where
  coherent : s.Coherent
  target   : LiveBound s s.port.inst x b
  free     : x.lock = .free

/-- The state with one more response, to the caller at the port. -/
def answered (s : State) (word : Word) (ticks : Nat) : State :=
  { s with
    responses := ⟨s.port.inst, s.port.caller, word, ticks⟩ :: s.responses
    blocked   := s.blocked.erase s.port.caller }

/-- The command at the port of `s`, followed by the moves, ends in `u`: the caller has the response and is not blocked, the
instance rests with its lock free, and nothing outside the instance and its two engines has changed (R253, R298). -/
structure Completes (cmd : Instr) (s : State) (b : Binding) (moves : List Event) (word : Word) (ticks : Nat)
    (u : State) : Prop where
  runs      : ∃ t, exec cmd s = .next t ∧ runEvents moves t = .next u
  responses : u.responses = (answered s word ticks).responses
  blocked   : u.blocked = (answered s word ticks).blocked
  rested    : ∃ y, u.inst? s.port.inst = some y ∧ y.binding = some b ∧ y.fault = none ∧ y.lock = .free ∧
    y.waiters = [] ∧ y.op = none ∧ y.session = .idle ∧ y.queue = some []
  insts     : ∀ j, j ≠ s.port.inst → u.inst? j = s.inst? j
  engines   : ∀ c, (c ≠ b.tx → u.tx? c = s.tx? c) ∧ (c ≠ b.rx → u.rx? c = s.rx? c)
  owners    : u.chanOwner = s.chanOwner ∧ u.pinOwner = s.pinOwner
  rest      : u.params = s.params ∧ u.port = s.port ∧ u.script = s.script ∧ u.drawn = s.drawn

end Sys2Proof.Machine
end

