-- ==== Sys2Proof/Certificates/Slice0/Obligations.lean ====
section
/-! DEFINITION. The statements for the provers. Each docstring names the rules of spec/ it formalises. Where a statement
names a tick count, a queue of moves or the port, those are the model's own (log entries 2, 4, 6 and 7). -/

open Sys2Proof Sys2Proof.Machine

/-! ### Words and commands -/

/-- R104, R106, R107: decoding the words of a command that can be encoded gives the command back, with every operand at
every value the encoding admits. -/
def Obligations.DecodeEncodeRoundTrip : Prop :=
  ∀ i : Instr, i.wf = true → decode (encode i) = .ok i

/-- R104, R106: a word list that decodes is the encoding of what it decodes to, so no command has two encodings. -/
def Obligations.DecodedWordsReencode : Prop :=
  ∀ (ws : List Word) (i : Instr), decode ws = .ok i → i.wf = true ∧ encode i = ws

/-- R104: a decoded command's first word is selected by the row of its mnemonic and by no other row. -/
def Obligations.OneRowSelectsEachCommand : Prop :=
  ∀ (cw : Word) (ows : List Word) (i : Instr), decode (cw :: ows) = .ok i →
    ∀ r ∈ opcodeRows, rowSelects r cw = true ↔ r.name = mnemonicOf i

/-- R108: a complete command is illegal exactly in the cases (a) to (d), and is one of the eight commands otherwise; an
illegal command raises `F_ILLEGAL_COMMAND` and changes no other state of the block. -/
def Obligations.IllegalCommandCases : Prop :=
  (∀ (cw : Word) (ows : List Word), ows.length + 1 = commandLength cw →
    (isIllegal (cw :: ows) = true ↔
      (field cw 0 4 = 0x0#4 ∨ 0x9#4 ≤ field cw 0 4) ∨
      (∃ r ∈ opcodeRows, field r.pattern 0 4 = field cw 0 4 ∧ cw &&& r.mask ≠ r.pattern) ∨
      ((field cw 0 4 = 0x1#4 ∨ field cw 0 4 = 0x7#4) ∧ field cw 24 2 = 0b11#2) ∨
      (∃ ow ∈ ows, field ow 15 17 ≠ 0#17)) ∧
    (isIllegal (cw :: ows) = false → ∃ i, decode (cw :: ows) = .ok i)) ∧
  (∀ (s : State) (i c : Nat) (x : Inst) (ws : List Word) (a : Bool),
    s.inst? i = some x → x.fault = none → c ∉ s.blocked → isIllegal ws = true →
    issue s i c ws a = .next ((s.accept i c a).setInst i { x with fault := some .illegalCommand }))

/-- Test vectors E-1 to E-12 of 95_test_vectors.md: words of every mnemonic decode to their command. The seven operand words
of E-3 and E-11, which the vectors leave open, are those of the Standard profile here (R106). -/
def Obligations.SampleWordsDecode : Prop :=
  decode [0x00000001#32] = .ok (.validate .std) ∧ decode [0x01000001#32] = .ok (.validate .od) ∧
  decode [0x02000001#32, 0x000001E0#32, 0x00000006#32, 0x00000040#32, 0x0000003C#32, 0x0000000A#32, 0x0000000D#32,
    0x00000048#32] = .ok (.validate (.custom ⟨480, 6, 64, 60, 10, 13, 72⟩)) ∧
  decode [0x00000002#32] = .ok .reset ∧ decode [0x00000003#32] = .ok (.writeBit false) ∧
  decode [0x00000103#32] = .ok (.writeBit true) ∧
  decode [0x00000004#32] = .ok .readBit ∧ decode [0x0000A505#32] = .ok (.writeByte 0xA5#8) ∧
  decode [0x00000006#32] = .ok .readByte ∧ decode [0x00100407#32] = .ok (.bind 4#8 0#4 1#4 .std) ∧
  decode [0x01320507#32] = .ok (.bind 5#8 2#4 3#4 .od) ∧
  decode [0x02100407#32, 0x000001E0#32, 0x00000006#32, 0x00000040#32, 0x0000003C#32, 0x0000000A#32, 0x0000000D#32,
    0x00000048#32] = .ok (.bind 4#8 0#4 1#4 (.custom ⟨480, 6, 64, 60, 10, 13, 72⟩)) ∧
  decode [0x00000008#32] = .ok .unbind

/-- R76: a transport carries words as four bytes, least significant first, and the words come back. -/
def Obligations.BytesCarryWords : Prop :=
  ∀ ws : List Word, wordsOfBytes (bytesOfWords ws) = some ws ∧ decodeBytes (bytesOfWords ws) = decode ws ∧
    ∀ w, bytesOfWords [w] = [w.extractLsb' 0 8, w.extractLsb' 8 8, w.extractLsb' 16 8, w.extractLsb' 24 8]

/-- R120: the 16-bit word of an item keeps its level and its duration, for every duration a field can hold. -/
def Obligations.ItemWordKeepsItem : Prop :=
  (∀ x : Item, 1 ≤ x.dur → x.dur ≤ 32767 → decodeItem (encodeItem x) = x) ∧
  (∀ w : BitVec 16, encodeItem (decodeItem w) = w)

/-- R110, R111: the response word has the status in bits 3..0, the data in bits 15..8 and zeros elsewhere; the codes are
`OK` 0, `TIMING_ERROR` 1, `INIT_ERROR` 2 and `CAPTURE_TIMEOUT` 3. -/
def Obligations.ResponseWordFields : Prop :=
  ∀ d : Byte,
    (∀ st : Status,
      responseStatus (responseWord st d) = (match st with
        | .ok => 0#4 | .timingError => 1#4 | .initError => 2#4 | .captureTimeout => 3#4) ∧
      responseData (responseWord st d) = d ∧
      (responseWord st d).extractLsb' 4 4 = 0#4 ∧ (responseWord st d).extractLsb' 16 16 = 0#16) ∧
    statusCode .ok = 0#4 ∧ statusCode .timingError = 1#4 ∧ statusCode .initError = 2#4 ∧
    statusCode .captureTimeout = 3#4

/-! ### Profiles and the codec -/

/-- R143 to R146: what validation accepts. -/
def Obligations.ValidationChecks : Prop :=
  ∀ (p : Params) (P : Profile), validProfile p P = true ↔
    (P.resetLow ≠ 0 ∧ P.write1Low ≠ 0 ∧ P.write1High ≠ 0 ∧ P.write0Low ≠ 0 ∧ P.write0High ≠ 0 ∧
      P.sampleOffset ≠ 0 ∧ P.rxIdleGap ≠ 0) ∧
    P.write1Low < P.write0Low ∧ P.sampleOffset < P.rxIdleGap ∧
    (p.validateExtra = true → P.sampleOffset < P.write0Low ∧
      P.write1Low < P.rxIdleGap ∧ P.write1High < P.rxIdleGap ∧
      P.write0Low < P.rxIdleGap ∧ P.write0High < P.rxIdleGap)

/-- R141, R142, R150: the canonical profiles, which pass every check. -/
def Obligations.CanonicalProfilesPass : Prop :=
  standard = { resetLow := 480, write1Low := 6, write1High := 64, write0Low := 60, write0High := 10, sampleOffset := 13, rxIdleGap := 72 } ∧
  overdrive = { resetLow := 70, write1Low := 1, write1High := 8, write0Low := 8, write0High := 3, sampleOffset := 3, rxIdleGap := 13 } ∧
  ∀ p : Params, validProfile p standard = true ∧ validProfile p overdrive = true

/-- R173: every sequence the encoders produce for a validated profile is a low item and a high item, none of them empty. -/
def Obligations.EncodersGiveLowThenHigh : Prop :=
  ∀ (p : Params) (P : Profile) (k : SlotKind), validProfile p P = true →
    ∃ a b, txSeq k P = [⟨.low, a⟩, ⟨.high, b⟩] ∧ 1 ≤ a ∧ 1 ≤ b

/-- R174: the level at a tick is that of the item that covers it, and high past the last item. -/
def Obligations.LevelAtCoveringItem : Prop :=
  ∀ (items : Seq) (t : Nat),
    (∀ k x, items[k]? = some x → startOf items k ≤ t → t < startOf items k + x.dur → levelAt items t = x.level) ∧
    (dur items ≤ t → levelAt items t = .high)

/-- R176: a presence is the first low item that begins after `resetLow`, and only if it begins before
`resetLow + rxIdleGap`. -/
def Obligations.FirstPostResetLowDecides : Prop :=
  ∀ (items : Seq) (P : Profile), decodePresence items P = .present ↔
    ∃ k x, items[k]? = some x ∧ x.level = .low ∧ P.resetLow < startOf items k ∧
      startOf items k < P.resetLow + P.rxIdleGap ∧
      ∀ j y, j < k → items[j]? = some y → y.level = .low → startOf items j ≤ P.resetLow

/-- R180: a written bit looped back reads as itself, both from the transmitted sequence and from what the capture engine
records of it (when the idle gap fits before the deadline `D`). -/
def Obligations.LoopedBackBitReadsBack : Prop :=
  ∀ (p : Params) (P : Profile) (b : Bool) (D : Nat),
    p.wf = true → validProfile p P = true → P.write1Low ≤ P.sampleOffset → P.sampleOffset < P.write0Low →
    (if b then P.write1Low else P.write0Low) + P.rxIdleGap ≤ D →
    decodeReadBit (encodeWriteBit b P) P = b ∧
    capture (levelAt (encodeWriteBit b P)) P.rxIdleGap D true p.rxMaxItems =
      .batch [⟨.low, if b then P.write1Low else P.write0Low⟩]
        ((if b then P.write1Low else P.write0Low) + P.rxIdleGap) ∧
    decodeReadBit [⟨.low, if b then P.write1Low else P.write0Low⟩] P = b

/-! ### The slot -/

/-- R216: the form of a batch. Its items alternate in level and begin with the level of tick 0, which is low for a
connected master; its last item is low; every high item is shorter than the idle gap; and the items give the line at
every tick of the capture, which is high after the last of them. -/
def Obligations.BatchForm : Prop :=
  (∀ (obs : Nat → Level) (G D M T : Nat) (items : Seq), 1 ≤ G → capture obs G D true M = .batch items T →
    (∀ k x y, items[k]? = some x → items[k + 1]? = some y → x.level ≠ y.level) ∧
    (∀ x, items[0]? = some x → x.level = obs 0) ∧
    (∀ x, items.getLast? = some x → x.level = .low) ∧
    (∀ x ∈ items, x.level = .high → x.dur < G) ∧
    T = dur items + G ∧ ∀ t, t < T → obs t = levelAt items t) ∧
  (∀ (p : Params) (P : Profile) (k : SlotKind) (env : SlotEnv), validProfile p P = true → env.txConnected = true →
    line env (txSeq k P) 0 = .low)

/-- R210: a trigger. A capture slot flushes the queue, arms the capture engine, sets the deadline and goes on to
`Capturing`; a write slot stops at `Triggered`; both start the generate engine. Nothing else changes. That `lvl` has no
value at arming and `len` is 0 is log entry 13. -/
def Obligations.TriggerStartsSlot : Prop :=
  ∀ (s : State) (i : Nat) (x : Inst) (b : Binding) (o : Op) (env : SlotEnv) (tx : TxEngine) (rx : RxEngine),
    LiveBound s i x b → x.session = .idle → x.op = some o → s.tx? b.tx = some tx → tx.busy = false →
    s.rx? b.rx = some rx →
    ((slotKindOf o).captures = true → triggerInst s i env = .next
      (((s.setInst i { x with
          queue := x.queue.map fun _ => []
          deadline := some (dur (txSeq (slotKindOf o) b.profile) + b.profile.rxIdleGap + s.params.captureMargin)
          sessT := some 0, session := .capturing, env := some env }).setTx b.tx
        { busy := true, seq := some (txSeq (slotKindOf o) b.profile), t := some 0 }).setRx b.rx
        { armed := true, items := [], lvl := none, len := some 0, t := some 0 })) ∧
    ((slotKindOf o).captures = false → triggerInst s i env = .next
      (((s.setInst i { x with sessT := some 0, session := .triggered, env := some env }).setTx b.tx
        { busy := true, seq := some (txSeq (slotKindOf o) b.profile), t := some 0 }).setRx b.rx rx))

/-- R219, R238, R236: a slot run tick by tick from its trigger ends at the tick and with the result of the closed form; it
has not ended before; and a capture overflow of the closed form is the model fault, in the slot. A capture slot leaves in
`CAP_END` and `DECODE_ITEMS` the end and the items of the capture of the closed form (R215, R223, R224), and a write slot
leaves the two registers. -/
def Obligations.SlotMatchesClosedForm : Prop :=
  ∀ (s : State) (i grant : Nat) (x : Inst) (b : Binding) (o : Op) (env : SlotEnv),
    s.Coherent → LiveBound s i x b → x.session = .idle → x.op = some o →
    (∀ r T, runSlot s.params (slotKindOf o) b.profile env = .finished r T →
      (∃ v z, runEvents (.trigger i env :: List.replicate T (.tick i grant)) s = .next v ∧
        v.inst? i = some z ∧ z.session ≠ .idle) ∧
      (∃ u y, runEvents (slotEvents i 0 env T grant) s = slotDone u i grant ∧ u.inst? i = some y ∧
        y.session = .idle ∧ y.slotResult = some r ∧ y.op = some { o with elapsed := o.elapsed + T } ∧
        y.lock = x.lock ∧ y.waiters = x.waiters ∧
        (y.capEnd, y.decodeItems) =
          if (slotKindOf o).captures then captureRegs x (slotCapture s.params (slotKindOf o) b.profile env)
          else (x.capEnd, x.decodeItems))) ∧
    (runSlot s.params (slotKindOf o) b.profile env = .overflow →
      ∃ T v z, runEvents (slotEvents i 0 env T grant) s = .next v ∧ v.inst? i = some z ∧
        z.fault = some .captureOverflow ∧ z.session = .capturing ∧ z.lock = x.lock)

/-- R230: the transitions of `SESSION`, each with its condition and its action. A trigger starts a slot; every other
transition is a tick of the slot, at `t = SESS_T = n`. A batch that arrives when the sequence has ended passes through
`Draining` within the tick, and so does a timeout with partial items (R224, R226, R237). A tick at which a condition holds
makes its transition. -/
def Obligations.SessionTransitions : Prop :=
  (∀ (s t : State) (i : Nat) (x y : Inst), s.Coherent → step s = .next t → s.inst? i = some x →
    t.inst? i = some y → y.session ≠ x.session →
    (x.session = .idle ∧ ∃ env o, nextEvent s = .trigger i env ∧ x.op = some o ∧
      y.session = if (slotKindOf o).captures then .capturing else .triggered) ∨
    ∃ g b o env n tx rx, nextEvent s = .tick i g ∧ SlotAt s x b o env n tx rx ∧
      ((x.session = .triggered ∧ n = dur (opSeq b o) ∧ y.session = .idle ∧ y.slotResult = some .done) ∨
        (x.session = .capturing ∧ y.queue = some [] ∧ y.capEnd = some n ∧
          (∃ rx', t.rx? b.rx = some rx' ∧ rx'.armed = false) ∧
          ((GapAt b.profile env n rx ∧ n ≤ opDeadline s.params b o ∧ y.decodeItems = some rx.items ∧
              ((n < dur (opSeq b o) ∧ y.session = .draining) ∨
                (dur (opSeq b o) ≤ n ∧ y.session = .idle ∧
                  y.slotResult = some (decodeSlot (slotKindOf o) rx.items b.profile)))) ∨
            (¬ GapAt b.profile env n rx ∧ n = opDeadline s.params b o ∧ rx.items ≠ [] ∧
              y.decodeItems = some rx.items ∧ y.session = .idle ∧
              y.slotResult = some (decodeSlot (slotKindOf o) rx.items b.profile)) ∨
            (¬ GapAt b.profile env n rx ∧ n = opDeadline s.params b o ∧ rx.items = [] ∧
              y.decodeItems = x.decodeItems ∧ y.session = .idle ∧ y.slotResult = some .captureTimeout))) ∨
        (x.session = .draining ∧ dur (opSeq b o) ≤ n ∧ y.session = .idle ∧
          ∃ items, x.decodeItems = some items ∧
            y.slotResult = some (decodeSlot (slotKindOf o) items b.profile)))) ∧
  (∀ (s t : State) (i g n : Nat) (x y : Inst) (b : Binding) (o : Op) (env : SlotEnv) (tx : TxEngine) (rx : RxEngine),
    s.Coherent → step s = .next t → nextEvent s = .tick i g → s.inst? i = some x → x.fault = none →
    SlotAt s x b o env n tx rx → t.inst? i = some y →
    (x.session = .triggered ∧ n = dur (opSeq b o)) ∨
      (x.session = .capturing ∧ (GapAt b.profile env n rx ∨ n = opDeadline s.params b o)) ∨
      (x.session = .draining ∧ dur (opSeq b o) ≤ n) →
    y.session ≠ x.session)

/-- R212: nothing aborts a triggered sequence: a step leaves a busy generate engine with its sequence, and not busy only
at the end of the sequence. -/
def Obligations.TriggeredSequenceRunsOn : Prop :=
  ∀ (s t : State) (i : Nat) (x : Inst) (b : Binding) (e : TxEngine) (q : Seq),
    s.Coherent → step s = .next t → LiveBound s i x b → s.tx? b.tx = some e → e.busy = true → e.seq = some q →
    ∃ e', t.tx? b.tx = some e' ∧ e'.seq = some q ∧ (e'.busy = true ∨ x.sessT = some (dur q))

/-- R231: after every step from a coherent state, an idle session has its engines dormant and its queue empty. -/
def Obligations.IdleMeansDormant : Prop :=
  ∀ (s t : State) (i : Nat) (x : Inst) (b : Binding) (tx : TxEngine) (rx : RxEngine),
    s.Coherent → step s = .next t → LiveBound t i x b → x.session = .idle →
    t.tx? b.tx = some tx → t.rx? b.rx = some rx →
    tx.busy = false ∧ rx.armed = false ∧ x.queue = some []

/-- R346, R20, R347: after every step from a coherent state, the timer of a slot, the generate engine's clock and the armed
capture engine's clock show the same tick, the current run is no longer than that, and all four stay within the largest
deadline. That the clocks keep step where the engine has nothing to drive or to record is log entry 13. -/
def Obligations.CountersStayInDeadline : Prop :=
  ∀ (s t : State) (i : Nat) (x : Inst) (b : Binding) (tx : TxEngine) (rx : RxEngine),
    s.Coherent → step s = .next t → LiveBound t i x b → x.session ≠ .idle →
    t.tx? b.tx = some tx → t.rx? b.rx = some rx →
    ∃ n, x.sessT = some n ∧ tx.t = some n ∧ n ≤ 3 * (2 ^ 15 - 1) + t.params.captureMargin ∧
      (rx.armed = true → rx.t = some n ∧ ∃ m, rx.len = some m ∧ m ≤ n)

/-- R255: RESET with no responder on a healthy bus is absent, at `resetLow + rxIdleGap`. -/
def Obligations.SilentBusIsAbsent : Prop :=
  ∀ (p : Params) (P : Profile), p.wf = true → validProfile p P = true →
    runSlot p .resetSlot P (healthyBus []) = .finished (.presence .absent) (P.resetLow + P.rxIdleGap)

/-- R255, R380: a responder low over ticks `s .. e-1` that begins in the presence window is present, at
`max (resetLow + rxIdleGap) (e + rxIdleGap)`, when the engine can hold the three items and the idle gap comes by the
deadline. -/
def Obligations.PresencePulseIsPresent : Prop :=
  ∀ (p : Params) (P : Profile) (s e : Nat), p.wf = true → validProfile p P = true → 3 ≤ p.rxMaxItems →
    P.resetLow < s → s < P.resetLow + P.rxIdleGap → s < e → e ≤ P.resetLow + P.rxIdleGap + p.captureMargin →
    runSlot p .resetSlot P (healthyBus (lowOver s e)) =
      .finished (.presence .present) (max (P.resetLow + P.rxIdleGap) (e + P.rxIdleGap))

/-- R261, R380: a read slot with no responder reads 1, and one whose responder holds low over ticks `0 .. n-1` past the
sample reads 0, each at the end of its idle gap or of the sequence. -/
def Obligations.ReadSlotReadsResponder : Prop :=
  ∀ (p : Params) (P : Profile) (n : Nat), p.wf = true → validProfile p P = true →
    P.write1Low ≤ P.sampleOffset →
    runSlot p .readSlot P (healthyBus []) =
      .finished (.bit true) (max (P.write1Low + P.write1High) (P.write1Low + P.rxIdleGap)) ∧
    (P.write1Low ≤ n → n + P.rxIdleGap ≤ P.write1Low + P.write1High + P.rxIdleGap + p.captureMargin →
      runSlot p .readSlot P (healthyBus (lowOver 0 n)) =
        .finished (.bit (decide (n ≤ P.sampleOffset))) (max (P.write1Low + P.write1High) (n + P.rxIdleGap)))

/-- R179, R151: on a profile whose sample falls in the master's own low phase, a read slot of a healthy bus never
reads 1. -/
def Obligations.EarlySampleNeverReadsOne : Prop :=
  ∀ (p : Params) (P : Profile) (env : SlotEnv) (r : SlotResult) (T : Nat), p.wf = true → validProfile p P = true →
    healthy env → P.sampleOffset < P.write1Low → runSlot p .readSlot P env = .finished r T →
    r = .bit false ∨ r = .captureTimeout

/-- R222, R224: a dead capture channel, or a line held low to the deadline, ends a capture slot at the deadline with
`CAPTURE_TIMEOUT`. -/
def Obligations.NoItemsTimesOut : Prop :=
  ∀ (p : Params) (P : Profile) (k : SlotKind) (env : SlotEnv), p.wf = true → validProfile p P = true →
    k.captures = true →
    (env.rxAlive = false ∨ ∀ t, t < dur (txSeq k P) + P.rxIdleGap + p.captureMargin → levelAt env.resp t = .low) →
    runSlot p k P env = .finished .captureTimeout (dur (txSeq k P) + P.rxIdleGap + p.captureMargin)

/-! ### VALIDATE, BIND, UNBIND -/

/-- R147, R150: VALIDATE answers in one step whether the profile passes, on any instance that is not faulted, and writes
nothing but the response; for the canonical profiles the answer is `OK`. -/
def Obligations.ValidateAnswers : Prop :=
  ∀ (s : State) (x : Inst) (sel : ProfileSel), s.inst? s.port.inst = some x → x.fault = none →
    exec (.validate sel) s = .next (answered s
      (if validProfile s.params (profileOf sel) then responseWord .ok 0#8 else responseWord .timingError 0#8) 0) ∧
    (sel = .std ∨ sel = .od → exec (.validate sel) s = .next (answered s (responseWord .ok 0#8) 0))

/-- R290, R291: a BIND of an unbound instance with a valid profile, two different free channels, a free valid pin and an
allocated queue succeeds in one step: what it writes, and that it writes nothing else. -/
def Obligations.BindSucceeds : Prop :=
  ∀ (s : State) (x : Inst) (pin : Pin) (tx rx : Chan) (sel : ProfileSel),
    s.inst? s.port.inst = some x → x.fault = none → x.binding = none →
    validProfile s.params (profileOf sel) = true → tx.toNat < s.params.nch → rx.toNat < s.params.nch → tx ≠ rx →
    ownerOf s.chanOwner tx.toNat = none → ownerOf s.chanOwner rx.toNat = none → pin ∈ s.params.validPins →
    ownerOf s.pinOwner pin.toNat = none → s.port.allocOk = true →
    ∃ t, exec (.bind pin tx rx sel) s = .next t ∧
      t.inst? s.port.inst = some { x with
        binding := some ⟨pin, tx, rx, profileOf sel⟩, queue := some [], session := .idle, op := none } ∧
      (∀ j, j ≠ s.port.inst → t.inst? j = s.inst? j) ∧
      (∀ c, ownerOf t.chanOwner c =
        if c = tx.toNat ∨ c = rx.toNat then some s.port.inst else ownerOf s.chanOwner c) ∧
      (∀ c, ownerOf t.pinOwner c = if c = pin.toNat then some s.port.inst else ownerOf s.pinOwner c) ∧
      (∀ c, t.tx? c = if c = tx then (s.tx? c).map fun e => { e with busy := false } else s.tx? c) ∧
      (∀ c, t.rx? c = if c = rx then (s.rx? c).map fun e => { e with armed := false, items := [] } else s.rx? c) ∧
      t.responses = (answered s (responseWord .ok 0#8) 0).responses ∧
      t.blocked = (answered s (responseWord .ok 0#8) 0).blocked ∧
      t.params = s.params ∧ t.port = s.port ∧ t.script = s.script ∧ t.drawn = s.drawn

/-- R295: a BIND of an unbound instance with a profile that fails validation answers `TIMING_ERROR` whatever its channels,
its pin and the allocation, and writes nothing but the response. -/
def Obligations.BindTimingErrorFirst : Prop :=
  ∀ (s : State) (x : Inst) (pin : Pin) (tx rx : Chan) (sel : ProfileSel),
    s.inst? s.port.inst = some x → x.fault = none → x.binding = none →
    validProfile s.params (profileOf sel) = false →
    exec (.bind pin tx rx sel) s = .next (answered s (responseWord .timingError 0#8) 0)

/-- R292, R293, R294: the causes of `INIT_ERROR`, each of which makes a BIND with a valid profile answer it and write
nothing but the response. -/
def Obligations.BindInitErrorCauses : Prop :=
  ∀ (s : State) (x : Inst) (pin : Pin) (tx rx : Chan) (sel : ProfileSel),
    s.inst? s.port.inst = some x → x.fault = none → x.binding = none →
    validProfile s.params (profileOf sel) = true →
    (s.params.nch ≤ tx.toNat ∨ s.params.nch ≤ rx.toNat ∨ tx = rx ∨
      ownerOf s.chanOwner tx.toNat ≠ none ∨ ownerOf s.chanOwner rx.toNat ≠ none ∨
      pin ∉ s.params.validPins ∨ ownerOf s.pinOwner pin.toNat ≠ none ∨ s.port.allocOk = false) →
    exec (.bind pin tx rx sel) s = .next (answered s (responseWord .initError 0#8) 0)

/-- R296, R49: an UNBIND of a bound instance with a free lock and an idle session answers `OK` in one step, gives back its
channels, its pin and its queue, and leaves the registers of R49; it writes nothing else. -/
def Obligations.UnbindReleases : Prop :=
  ∀ (s : State) (x : Inst) (b : Binding), LiveBound s s.port.inst x b → x.lock = .free → x.session = .idle →
    ∃ t, exec .unbind s = .next t ∧
      t.inst? s.port.inst = some { Inst.powerOn with lock := .free, waiters := x.waiters } ∧
      (∀ j, j ≠ s.port.inst → t.inst? j = s.inst? j) ∧
      (∀ c, ownerOf t.chanOwner c = if c = b.tx.toNat ∨ c = b.rx.toNat then none else ownerOf s.chanOwner c) ∧
      (∀ c, ownerOf t.pinOwner c = if c = b.pin.toNat then none else ownerOf s.pinOwner c) ∧
      (∀ c, t.tx? c = if c = b.tx then (s.tx? c).map fun e => { e with busy := false } else s.tx? c) ∧
      (∀ c, t.rx? c = if c = b.rx then (s.rx? c).map fun e => { e with armed := false, items := [] } else s.rx? c) ∧
      t.responses = (answered s (responseWord .ok 0#8) 0).responses ∧
      t.blocked = (answered s (responseWord .ok 0#8) 0).blocked ∧
      t.params = s.params ∧ t.port = s.port ∧ t.script = s.script ∧ t.drawn = s.drawn

/-- R297: misuse of a handle or of a record in use raises its model fault and changes nothing else. -/
def Obligations.MisuseRaisesModelFault : Prop :=
  ∀ (s : State) (x : Inst), s.inst? s.port.inst = some x → x.fault = none →
    (x.binding ≠ none → ∀ pin tx rx sel,
      exec (.bind pin tx rx sel) s = .next (s.setInst s.port.inst { x with fault := some .alreadyBound })) ∧
    (x.binding = none → ∀ cmd, busCmdOf cmd ≠ none ∨ cmd = .unbind →
      exec cmd s = .next (s.setInst s.port.inst { x with fault := some .notBound })) ∧
    (x.binding ≠ none → x.lock ≠ .free ∨ x.session ≠ .idle →
      exec .unbind s = .next (s.setInst s.port.inst { x with fault := some .inFlightMutation }))

/-! ### Bus commands -/

/-- R250: a bus command at a bound instance with a free lock takes it in one step, and starts its operation at slot 0;
nothing else changes. -/
def Obligations.BusCommandTakesFreeLock : Prop :=
  ∀ (s : State) (x : Inst) (b : Binding), LiveBound s s.port.inst x b → x.lock = .free →
    exec .reset s = .next (s.setInst s.port.inst
      { x with lock := .held s.port.caller, op := some ⟨.reset, 0, 0#8, 0⟩ }) ∧
    (∀ v, exec (.writeBit v) s = .next (s.setInst s.port.inst
      { x with lock := .held s.port.caller, op := some ⟨.writeBit v, 0, 0#8, 0⟩ })) ∧
    exec .readBit s = .next (s.setInst s.port.inst
      { x with lock := .held s.port.caller, op := some ⟨.readBit, 0, 0#8, 0⟩ }) ∧
    (∀ v, exec (.writeByte v) s = .next (s.setInst s.port.inst
      { x with lock := .held s.port.caller, op := some ⟨.writeByte v, 0, 0#8, 0⟩ })) ∧
    exec .readByte s = .next (s.setInst s.port.inst
      { x with lock := .held s.port.caller, op := some ⟨.readByte, 0, 0#8, 0⟩ })

/-- R250: a bus command at a bound instance whose lock is held joins the waiters and changes nothing else. -/
def Obligations.BusCommandWaitsForHeldLock : Prop :=
  ∀ (s : State) (x : Inst) (b : Binding) (c : Nat) (cmd : Instr) (q : BusCmd),
    LiveBound s s.port.inst x b → x.lock = .held c → busCmdOf cmd = some q →
    exec cmd s = .next (s.setInst s.port.inst { x with waiters := x.waiters ++ [⟨s.port.caller, q⟩] })

/-- R250, R16: a release with waiters grants the lock to one of them, and every waiter is granted it by some draw; with
none the lock becomes free. The draw as an index is log entry 12. -/
def Obligations.ReleaseGrantsSomeWaiter : Prop :=
  ∀ x : Inst,
    (x.waiters = [] → ∀ g, (releaseLock x g).lock = .free ∧ (releaseLock x g).op = none) ∧
    (x.waiters ≠ [] → ∀ g, ∃ w ∈ x.waiters, (releaseLock x g).lock = .held w.caller ∧
      (releaseLock x g).op = some ⟨w.cmd, 0, 0#8, 0⟩ ∧ (w :: (releaseLock x g).waiters).Perm x.waiters) ∧
    (∀ w ∈ x.waiters, ∃ g, (releaseLock x g).lock = .held w.caller ∧ (releaseLock x g).op = some ⟨w.cmd, 0, 0#8, 0⟩)

/-- R255: RESET. It runs one reset slot, releases the lock, and answers the presence, or `CAPTURE_TIMEOUT` with data 0. -/
def Obligations.ResetCompletes : Prop :=
  ∀ (s : State) (x : Inst) (b : Binding) (env : SlotEnv) (gap T grant : Nat), Ready s x b →
    (∀ pr, runSlot s.params .resetSlot b.profile env = .finished (.presence pr) T →
      ∃ u, Completes .reset s b (slotEvents s.port.inst gap env T grant)
        (responseWord .ok (if pr = .present then 1#8 else 0#8)) (gap + T) u) ∧
    (runSlot s.params .resetSlot b.profile env = .finished .captureTimeout T →
      ∃ u, Completes .reset s b (slotEvents s.port.inst gap env T grant)
        (responseWord .captureTimeout 0#8) (gap + T) u)

/-- R258: WRITE_BIT. It runs one write slot, answers `OK` when the sequence has ended and not before, whatever the draws,
and touches no capture engine. -/
def Obligations.WriteBitCompletes : Prop :=
  ∀ (s : State) (x : Inst) (b : Binding) (v : Bool) (env : SlotEnv) (gap grant : Nat), Ready s x b →
    ∃ u, Completes (.writeBit v) s b
        (slotEvents s.port.inst gap env (dur (encodeWriteBit v b.profile)) grant) (responseWord .ok 0#8)
        (gap + dur (encodeWriteBit v b.profile)) u ∧ u.rxe = s.rxe

/-- R261: READ_BIT. It runs one read slot, releases the lock, and answers the bit, or `CAPTURE_TIMEOUT` with data 0. -/
def Obligations.ReadBitCompletes : Prop :=
  ∀ (s : State) (x : Inst) (b : Binding) (env : SlotEnv) (gap T grant : Nat), Ready s x b →
    (∀ v, runSlot s.params .readSlot b.profile env = .finished (.bit v) T →
      ∃ u, Completes .readBit s b (slotEvents s.port.inst gap env T grant)
        (responseWord .ok (if v then 1#8 else 0#8)) (gap + T) u) ∧
    (runSlot s.params .readSlot b.profile env = .finished .captureTimeout T →
      ∃ u, Completes .readBit s b (slotEvents s.port.inst gap env T grant)
        (responseWord .captureTimeout 0#8) (gap + T) u)

/-- R264, R75: WRITE_BYTE. It runs eight write slots under one hold of the lock, slot `j` for bit `j` of the byte, and
answers `OK` at the end of the last. -/
def Obligations.WriteByteCompletes : Prop :=
  ∀ (s : State) (x : Inst) (b : Binding) (v : Byte) (env : Nat → SlotEnv) (gap : Nat → Nat) (grant : Nat), Ready s x b →
    ∃ u, Completes (.writeByte v) s b
        (byteEvents s.port.inst 8 gap env (fun j => dur (encodeWriteBit (v.getLsbD j) b.profile)) grant)
        (responseWord .ok 0#8) (byteTicks 8 gap fun j => dur (encodeWriteBit (v.getLsbD j) b.profile)) u ∧
      u.rxe = s.rxe

/-- R267, R75: READ_BYTE whose eight read slots end in bits. It answers the byte with the bit of slot `j` in bit `j`. -/
def Obligations.ReadByteCompletes : Prop :=
  ∀ (s : State) (x : Inst) (b : Binding) (v : Byte) (env : Nat → SlotEnv) (gap T : Nat → Nat) (grant : Nat),
    Ready s x b →
    (∀ j, j < 8 → runSlot s.params .readSlot b.profile (env j) = .finished (.bit (v.getLsbD j)) (T j)) →
    ∃ u, Completes .readByte s b (byteEvents s.port.inst 8 gap env T grant) (responseWord .ok v) (byteTicks 8 gap T) u

/-- R267: READ_BYTE with a timeout in slot `n`. It ends there with `CAPTURE_TIMEOUT` and data 0, and the slots after `n` are
not run. -/
def Obligations.ReadByteStopsAtTimeout : Prop :=
  ∀ (s : State) (x : Inst) (b : Binding) (n : Nat) (bits : Nat → Bool) (env : Nat → SlotEnv) (gap T : Nat → Nat)
    (grant : Nat), Ready s x b → n < 8 →
    (∀ j, j < n → runSlot s.params .readSlot b.profile (env j) = .finished (.bit (bits j)) (T j)) →
    runSlot s.params .readSlot b.profile (env n) = .finished .captureTimeout (T n) →
    ∃ u, Completes .readByte s b (byteEvents s.port.inst (n + 1) gap env T grant)
      (responseWord .captureTimeout 0#8) (byteTicks (n + 1) gap T) u

/-- R271: a READ_BYTE whose responder echoes the byte `v` (low over `0 .. write0Low-1` in the slots of its 0 bits, released
in the others) answers `v`. The line must come up again before the deadline, which check V5 gives when it applies (log
entry 21). -/
def Obligations.EchoedByteReadsBack : Prop :=
  ∀ (s : State) (x : Inst) (b : Binding) (v : Byte) (gap : Nat → Nat) (grant : Nat), Ready s x b →
    b.profile.write1Low ≤ b.profile.sampleOffset → b.profile.sampleOffset < b.profile.write0Low →
    (s.params.validateExtra = true ∨ b.profile.write0Low <
      b.profile.write1Low + b.profile.write1High + b.profile.rxIdleGap + s.params.captureMargin) →
    ∃ T u, Completes .readByte s b
      (byteEvents s.port.inst 8 gap
        (fun j => healthyBus (if v.getLsbD j then [] else lowOver 0 b.profile.write0Low)) T grant)
      (responseWord .ok v) (byteTicks 8 gap T) u

/-- R270: two RESETs in sequence on one instance with the same draws give the same response. -/
def Obligations.RepeatedResetAgrees : Prop :=
  ∀ (s : State) (x : Inst) (b : Binding) (env : SlotEnv) (gap gap' grant grant' : Nat) (r : SlotResult) (T : Nat),
    Ready s x b → runSlot s.params .resetSlot b.profile env = .finished r T →
    ∃ w u u', Completes .reset s b (slotEvents s.port.inst gap env T grant) w (gap + T) u ∧
      Completes .reset u b (slotEvents s.port.inst gap' env T grant') w (gap' + T) u'

/-! ### Frames -/

/-- R298, R250: a bus command at a port leaves every other instance, the parameters, the port, the draws, ownership, the
engines, the binding, the session registers, the queue and the responses. That holds of the step at the port alone: the
slots of the command, which write engines and session registers (R50, R255), run in later steps (log entry 20). -/
def Obligations.BusCommandFrame : Prop :=
  ∀ (s t : State) (x y : Inst) (cmd : Instr), busCmdOf cmd ≠ none → exec cmd s = .next t →
    s.inst? s.port.inst = some x → t.inst? s.port.inst = some y →
    y = { x with lock := y.lock, waiters := y.waiters, op := y.op, fault := y.fault } ∧
    (∀ j, j ≠ s.port.inst → t.inst? j = s.inst? j) ∧
    t.chanOwner = s.chanOwner ∧ t.pinOwner = s.pinOwner ∧ t.txe = s.txe ∧ t.rxe = s.rxe ∧
    t.responses = s.responses ∧ t.blocked = s.blocked ∧
    t.params = s.params ∧ t.port = s.port ∧ t.script = s.script ∧ t.drawn = s.drawn

/-- R50, R78: VALIDATE, BIND and UNBIND never take the lock and never wait, and leave every other instance, every channel
and pin they do not name, the parameters, the port and the draws; VALIDATE leaves its instance and all engines too. -/
def Obligations.LifecycleFrame : Prop :=
  ∀ (s t : State) (x y : Inst) (cmd : Instr), busCmdOf cmd = none → exec cmd s = .next t →
    s.inst? s.port.inst = some x → t.inst? s.port.inst = some y →
    y.lock = x.lock ∧ y.waiters = x.waiters ∧
    (∀ j, j ≠ s.port.inst → t.inst? j = s.inst? j) ∧
    (∀ c, (∀ b, x.binding = some b ∨ y.binding = some b → c ≠ b.tx) → t.tx? c = s.tx? c) ∧
    (∀ c, (∀ b, x.binding = some b ∨ y.binding = some b → c ≠ b.rx) → t.rx? c = s.rx? c) ∧
    (∀ c, (∀ b, x.binding = some b ∨ y.binding = some b → c ≠ b.tx.toNat ∧ c ≠ b.rx.toNat) →
      ownerOf t.chanOwner c = ownerOf s.chanOwner c) ∧
    (∀ c, (∀ b, x.binding = some b ∨ y.binding = some b → c ≠ b.pin.toNat) →
      ownerOf t.pinOwner c = ownerOf s.pinOwner c) ∧
    (∀ sel, cmd = .validate sel → y = x ∧ t.txe = s.txe ∧ t.rxe = s.rxe ∧ t.chanOwner = s.chanOwner ∧
      t.pinOwner = s.pinOwner) ∧
    t.params = s.params ∧ t.port = s.port ∧ t.script = s.script ∧ t.drawn = s.drawn

/-! ### The whole system -/

/-- R49, R360: the power-on state. -/
def Obligations.PowerOnValues : Prop :=
  ∀ (p : Params) (n : Nat), (State.powerOn p n).insts.length = n ∧
    (∀ i x, (State.powerOn p n).inst? i = some x →
      x.bound = false ∧ x.binding = none ∧ x.lock = .free ∧ x.waiters = [] ∧ x.session = .idle ∧ x.op = none ∧
      x.queue = none ∧ x.fault = none ∧ x.sessT = none ∧ x.deadline = none ∧ x.capEnd = none ∧
      x.decodeItems = none ∧ x.slotResult = none) ∧
    (∀ c, ownerOf (State.powerOn p n).chanOwner c = none ∧ ownerOf (State.powerOn p n).pinOwner c = none) ∧
    (∀ c e, (State.powerOn p n).tx? c = some e → e.busy = false ∧ e.seq = none ∧ e.t = none ∧ e.drive = .high) ∧
    (∀ c e, (State.powerOn p n).rx? c = some e →
      e.armed = false ∧ e.items = [] ∧ e.lvl = none ∧ e.len = none ∧ e.t = none)

/-- Power-on is coherent, whatever the parameters that meet R7, R13 and R14 and the number of instances R9 allows; so is
the state the machine starts in (whose `NINST` and `VALID_PINS` are log entry 3's choice). -/
def Obligations.PowerOnIsCoherent : Prop :=
  (∀ (p : Params) (n : Nat), p.wf = true → 1 ≤ n → (State.powerOn p n).Coherent) ∧ State.reset.Coherent

/-- Every step keeps a state coherent: ownership and bindings agree (R41, R42), an operation is in flight exactly while
the lock is held (R36, R38), and the engines stand where the session says (R230 to R235). -/
def Obligations.StepKeepsCoherence : Prop :=
  ∀ s t : State, s.Coherent → step s = .next t → t.Coherent

/-- R48, R226: every move whose instance exists takes a step, and a step from a coherent state raises no fault for a
register that holds no value: no rule reads one, and no slot ends in another command's result (log entry 5). -/
def Obligations.CoherentStateSteps : Prop :=
  (∀ s : State, eventTarget (nextEvent s) < s.insts.length → ∃ t, step s = .next t) ∧
  ∀ (s t : State) (i : Nat) (x y : Inst), s.Coherent → step s = .next t → s.inst? i = some x → x.fault = none →
    t.inst? i = some y → y.fault ≠ some .noValue

/-- R325: the causes of the model faults: a step sets the fault of an instance only for the cause of its reason, and never
`F_QUEUE_OVERFLOW`, nor the fault of R48 that log entry 5 names. A tick of a capture that nothing ends, with an edge that
would complete one item more than the engine holds, raises `F_CAPTURE_OVERFLOW` (R214, R218). -/
def Obligations.ModelFaultCauses : Prop :=
  (∀ (s t : State) (i : Nat) (x y : Inst) (r : FaultReason), s.Coherent → step s = .next t →
    s.inst? i = some x → x.fault = none → t.inst? i = some y → y.fault = some r →
    match r with
    | .illegalCommand => ∃ c ws a, nextEvent s = .issue i c ws a ∧ isIllegal ws = true
    | .notBound => ∃ c ws a cmd, nextEvent s = .issue i c ws a ∧ decode ws = .ok cmd ∧
        (busCmdOf cmd ≠ none ∨ cmd = .unbind) ∧ x.binding = none
    | .alreadyBound => ∃ c ws a pin tx rx sel, nextEvent s = .issue i c ws a ∧
        decode ws = .ok (.bind pin tx rx sel) ∧ x.binding ≠ none
    | .inFlightMutation => ∃ c ws a, nextEvent s = .issue i c ws a ∧ decode ws = .ok .unbind ∧
        (x.lock ≠ .free ∨ x.session ≠ .idle)
    | .captureOverflow => ∃ g b o env n tx rx, nextEvent s = .tick i g ∧ x.session = .capturing ∧
        SlotAt s x b o env n tx rx ∧ ¬ GapAt b.profile env n rx ∧ n < opDeadline s.params b o ∧
        OverflowAt s.params b o env n rx
    | .queueOverflow => False
    | .noValue => False) ∧
  ∀ (s : State) (i g n : Nat) (x : Inst) (b : Binding) (o : Op) (env : SlotEnv) (tx : TxEngine) (rx : RxEngine),
    s.Coherent → nextEvent s = .tick i g → s.inst? i = some x → x.fault = none → x.session = .capturing →
    SlotAt s x b o env n tx rx → ¬ GapAt b.profile env n rx → n ≠ opDeadline s.params b o →
    OverflowAt s.params b o env n rx →
    ∃ t y, step s = .next t ∧ t.inst? i = some y ∧ y.fault = some .captureOverflow ∧ y.session = .capturing

/-- R40, R326: a faulted instance is frozen. No step changes any of its registers, the engines of its channels or the
ownership of its channels and pin; a move on it adds no response and unblocks no caller, and the caller of a command issued
to it blocks; at reset no instance is faulted. -/
def Obligations.FaultFreezesInstance : Prop :=
  (∀ (s t : State) (i : Nat) (x : Inst) (r : FaultReason), s.Coherent → step s = .next t →
    s.inst? i = some x → x.fault = some r →
    t.inst? i = some x ∧ (∀ b, x.binding = some b →
      t.tx? b.tx = s.tx? b.tx ∧ t.rx? b.rx = s.rx? b.rx ∧ ownerOf t.chanOwner b.tx.toNat = some i ∧
      ownerOf t.chanOwner b.rx.toNat = some i ∧ ownerOf t.pinOwner b.pin.toNat = some i) ∧
    (eventTarget (nextEvent s) = i → t.responses = s.responses ∧ (∀ c ∈ s.blocked, c ∈ t.blocked) ∧
      ∀ c ws a, nextEvent s = .issue i c ws a → decode ws ≠ .incomplete → c ∈ t.blocked)) ∧
  ∀ (p : Params) (n i : Nat) (x : Inst), (State.powerOn p n).inst? i = some x → x.fault = none

/-- R298: a step on one instance changes nothing of another: not its registers, not its engines, not what it owns. -/
def Obligations.InstancesAreIndependent : Prop :=
  ∀ (s t : State) (j : Nat) (x : Inst), s.Coherent → step s = .next t → j ≠ eventTarget (nextEvent s) →
    s.inst? j = some x →
    t.inst? j = some x ∧ ∀ b, x.binding = some b →
      t.tx? b.tx = s.tx? b.tx ∧ t.rx? b.rx = s.rx? b.rx ∧ ownerOf t.chanOwner b.tx.toNat = some j ∧
      ownerOf t.chanOwner b.rx.toNat = some j ∧ ownerOf t.pinOwner b.pin.toNat = some j

/-- R41, R42, R293: after every step from a coherent state, two bound instances share no channel and no pin, and the two
channels of any bound instance differ and exist. -/
def Obligations.NoSharedChannelOrPin : Prop :=
  ∀ (s t : State) (i : Nat) (x : Inst) (b : Binding), s.Coherent → step s = .next t →
    t.inst? i = some x → x.binding = some b →
    b.tx ≠ b.rx ∧ b.tx.toNat < t.params.nch ∧ b.rx.toNat < t.params.nch ∧
    ∀ (j : Nat) (y : Inst) (d : Binding), t.inst? j = some y → y.binding = some d → i ≠ j →
      b.tx ≠ d.tx ∧ b.rx ≠ d.rx ∧ b.tx ≠ d.rx ∧ b.rx ≠ d.tx ∧ b.pin ≠ d.pin

/-- R32 to R35, R149: a binding, and the profile in it, changes only from none to some by a BIND issued to the instance,
and from some to none by an UNBIND issued to it. -/
def Obligations.OnlyLifecycleChangesBinding : Prop :=
  ∀ (s t : State) (i : Nat) (x y : Inst), step s = .next t → s.inst? i = some x → t.inst? i = some y →
    y.binding ≠ x.binding →
    ∃ c ws a, nextEvent s = .issue i c ws a ∧
      ((∃ pin tx rx sel, decode ws = .ok (.bind pin tx rx sel) ∧ x.binding = none ∧
          y.binding = some ⟨pin, tx, rx, profileOf sel⟩) ∨
        (decode ws = .ok .unbind ∧ y.binding = none))

/-- R253: a bus command that completes releases the lock as it answers, with `OK` or with `CAPTURE_TIMEOUT`, and only then:
a tick that answers nothing leaves the lock and the waiters. -/
def Obligations.ResponseReleasesLock : Prop :=
  ∀ (s t : State) (i g c : Nat) (x y : Inst), step s = .next t → nextEvent s = .tick i g →
    s.inst? i = some x → x.lock = .held c → t.inst? i = some y →
    (t.responses = s.responses ∧ y.lock = x.lock ∧ y.waiters = x.waiters) ∨
    ∃ st d n, (st = .ok ∨ st = .captureTimeout) ∧
      t.responses = ⟨i, c, responseWord st d, n⟩ :: s.responses ∧
      ((x.waiters = [] ∧ y.lock = .free ∧ y.op = none) ∨
        ∃ w ∈ x.waiters, y.lock = .held w.caller ∧ y.op = some ⟨w.cmd, 0, 0#8, 0⟩)

/-- R111, R112: every response a step adds has a status of 0 to 3, goes to a caller of the instance the move names, and
has data 0 unless its status is `OK`. -/
def Obligations.ResponsesWellFormed : Prop :=
  ∀ s t : State, step s = .next t →
    t.responses = s.responses ∨
    ∃ c st d n, t.responses = ⟨eventTarget (nextEvent s), c, responseWord st d, n⟩ :: s.responses ∧
      (st ≠ .ok → d = 0#8)

/-- R100: a caller whose command is outstanding issues nothing, and the port takes no partial command (R77): either way nothing
changes (log entries 7 and 8). -/
def Obligations.BlockedCallerIssuesNothing : Prop :=
  ∀ (s : State) (i c : Nat) (ws : List Word) (a : Bool),
    c ∈ s.blocked ∨ (∀ cw ows, ws = cw :: ows → ows.length + 1 ≠ commandLength cw) → issue s i c ws a = .next s

/-- R109: a step whose move issues the words of a command to a port runs that command, with the port and the caller as the
move says; and the command placed by `withFetchWord` is the next step's (log entry 4). -/
def Obligations.StepRunsDecodedCommand : Prop :=
  (∀ (s : State) (i c : Nat) (ws : List Word) (a : Bool) (rest : List Event) (cmd : Instr),
    s.script = .issue i c ws a :: rest → c ∉ s.blocked → decode ws = .ok cmd →
    step s = exec cmd ({ s with script := rest }.accept i c a)) ∧
  (∀ (s : State) (nbits w : Nat) (cmd : Instr), decodeTableWord nbits w = some cmd →
    step (s.withFetchWord nbits w) = exec cmd (s.accept 0 (freshCaller s) true))

/-- R11, R346: no step changes a parameter or the number of instances. R11 and R346 say so of `TICK_NS`; that the other
parameters are fixed too is the model's reading (log entry 1, DEDUCED). -/
def Obligations.ParametersNeverChange : Prop :=
  ∀ s t : State, step s = .next t → t.params = s.params ∧ t.insts.length = s.insts.length ∧
    (∀ ticks, nanoseconds t.params ticks = ticks * s.params.tickNs)

/-! ### The gap between two slots -/

/-- R251: a tick of the gap. The live instance with an idle session has one more tick on its operation in flight, if any
(the model's own count, log entries 6 and 11), and nothing else changes; on any other instance nothing changes; and the line stays
released. -/
def Obligations.GapTickFrame : Prop :=
  (∀ (s : State) (i : Nat) (x : Inst), nextEvent s = .gapTick i → s.inst? i = some x →
    (x.fault = none → x.session = .idle → step s = .next ((popEvent s).setInst i
      { x with op := x.op.map fun o => { o with elapsed := o.elapsed + 1 } })) ∧
    (x.fault ≠ none ∨ x.session ≠ .idle → step s = .next (popEvent s))) ∧
  (∀ (s t : State) (i : Nat) (x : Inst) (b : Binding) (tx : TxEngine), s.Coherent → nextEvent s = .gapTick i →
    step s = .next t → LiveBound t i x b → x.session = .idle → t.tx? b.tx = some tx → tx.drive = .high)
end

