-- ==== Sys2Proof/Laws/Decode.lean ====
section
/-! SUPPORT. The decoder answers only commands that can be encoded; the fields of an encoded command. -/

namespace Sys2Proof

theorem durFits_durOf (w : Word) : durFits (durOf w) = true := by
  exact decide_eq_true (field w 0 durw).isLt

theorem decodeCustomProfile_fits {ows : List Word} {p : Profile} (h : decodeCustomProfile ows = some p) :
    p.fits = true := by
  unfold decodeCustomProfile at h
  split at h
  · cases h
    simp [Profile.fits, durFits_durOf]
  · cases h

/-- Everything the profile select decodes to. -/
theorem decodeSel_ok {psel : BitVec 2} {ows : List Word} {k : ProfileSel → Instr} {i : Instr}
    (h : decodeSel psel ows k = .ok i) :
    (psel = 0b00#2 ∧ i = k .std) ∨ (psel = 0b01#2 ∧ i = k .od) ∨
      (psel = 0b10#2 ∧ ∃ p, decodeCustomProfile ows = some p ∧ ows.all operandClear = true ∧ i = k (.custom p)) := by
  unfold decodeSel at h
  split at h
  · rename_i h0; cases h; exact .inl ⟨h0, rfl⟩
  · split at h
    · rename_i h1; cases h; exact .inr (.inl ⟨h1, rfl⟩)
    · split at h
      · rename_i h2
        split at h
        · rename_i p hp
          split at h
          · rename_i ha; cases h; exact .inr (.inr ⟨h2, p, hp, ha, rfl⟩)
          · cases h
        · cases h
      · cases h

theorem decodeSel_wf {psel : BitVec 2} {ows : List Word} {k : ProfileSel → Instr} {i : Instr}
    (hk : ∀ sel, sel.wf = true → (k sel).wf = true) (h : decodeSel psel ows k = .ok i) : i.wf = true := by
  rcases decodeSel_ok h with ⟨_, rfl⟩ | ⟨_, rfl⟩ | ⟨_, p, hp, _, rfl⟩
  · exact hk _ rfl
  · exact hk _ rfl
  · exact hk _ (decodeCustomProfile_fits hp)

/-- A decoded command has an encoding. -/
theorem decode_wf {ws : List Word} {i : Instr} (h : decode ws = .ok i) : i.wf = true := by
  unfold decode at h
  split at h
  · cases h
  · split at h
    · unfold decodeComplete at h
      split at h
      · cases h
      · split at h
        · split at h
          · exact decodeSel_wf (k := .validate) (fun _ hs => hs) h
          · cases h; rfl
          · cases h; rfl
          · cases h; rfl
          · cases h; rfl
          · cases h; rfl
          · exact decodeSel_wf (k := .bind _ _ _) (fun _ hs => hs) h
          · cases h; rfl
        · cases h
    · cases h

/-- A duration that fits its operand word comes back from it (R106). -/
theorem durOf_operandWord {d : Nat} (h : durFits d = true) : durOf (operandWord d) = d := by
  have : d < 32768 := of_decide_eq_true (p := d < 2 ^ durw) h
  simp [durOf, operandWord, field, durw]; omega

/-- The operand word of a duration that fits has no bit above it (R106). -/
theorem operandClear_operandWord {d : Nat} (h : durFits d = true) : operandClear (operandWord d) = true := by
  have : d < 32768 := of_decide_eq_true (p := d < 2 ^ durw) h
  simp only [operandClear, operandWord, field, beq_iff_eq]
  apply BitVec.eq_of_toNat_eq
  simp [Nat.shiftRight_eq_div_pow]; omega

/-- The profile select of an encoded command decodes to itself (R105, R106). -/
theorem decodeSel_operandWords {sel : ProfileSel} (h : sel.wf = true) (k : ProfileSel → Instr) :
    decodeSel (pselOf sel) (operandWords sel) k = .ok (k sel) := by
  cases sel with
  | std => rfl
  | od => rfl
  | custom p =>
    simp [ProfileSel.wf, Profile.fits] at h
    simp [decodeSel, pselOf, operandWords, decodeCustomProfile, durOf_operandWord, operandClear_operandWord, h]

/-- The fields of a BIND word (R104). -/
theorem bindWord_fields (psel : BitVec 2) (rx tx : Chan) (pin : Pin) :
    let w : Word := 0#6 ++ psel ++ rx ++ tx ++ pin ++ 0#4 ++ 0x7#4
    field w 0 4 = 7#4 ∧ field w 24 2 = psel ∧ field w 8 8 = pin ∧ field w 16 4 = tx ∧ field w 20 4 = rx ∧
      w &&& 0xFC0000FF#32 = 7#32 := by
  intro w
  refine ⟨?_, ?_, ?_, ?_, ?_, ?_⟩ <;>
    (apply BitVec.eq_of_getLsbD_eq
     intro i hi
     simp only [w, field, BitVec.getLsbD_extractLsb', BitVec.getLsbD_and, BitVec.getLsbD_append]
     interval_cases i <;> simp [BitVec.getLsbD_eq_getElem])

/-- The fields of a WRITE_BYTE word (R104). -/
theorem writeByteWord_fields (v : Byte) :
    let w : Word := 0#16 ++ v ++ 0#4 ++ 0x5#4
    field w 0 4 = 5#4 ∧ field w 8 8 = v ∧ w &&& 0xFFFF00FF#32 = 5#32 := by
  intro w
  refine ⟨?_, ?_, ?_⟩ <;>
    (apply BitVec.eq_of_getLsbD_eq
     intro i hi
     simp only [w, field, BitVec.getLsbD_extractLsb', BitVec.getLsbD_and, BitVec.getLsbD_append]
     interval_cases i <;> simp [BitVec.getLsbD_eq_getElem])

end Sys2Proof
end

