-- ==== Sys2Proof/Laws/Owners.lean ====
section
/-! SUPPORT. The ownership tables (R41, R42): reading after claiming or releasing, and that both keep the canonical
form. -/

namespace Sys2Proof.Machine

theorem ownerOf_claim (o : Owners) (k i j : Nat) :
    ownerOf (claim o k i) j = if k = j then some i else ownerOf o j := by
  induction o with
  | nil => simp [claim, ownerOf]
  | cons e o ih =>
    obtain ⟨k', i'⟩ := e
    unfold claim
    split
    · simp [ownerOf]
    · split
      · rename_i h; subst h
        simp only [ownerOf]; split <;> rfl
      · rename_i h
        simp only [ownerOf, ih]
        by_cases hk : k = j
        · subst hk; simp [Ne.symm h]
        · simp [hk]

theorem ownerOf_release (o : Owners) (k j : Nat) :
    ownerOf (release o k) j = if k = j then none else ownerOf o j := by
  induction o with
  | nil => simp [release, ownerOf]
  | cons e o ih =>
    obtain ⟨k', i'⟩ := e
    unfold release
    split
    · rename_i h; subst h
      rw [ih]
      by_cases hk : k' = j <;> simp [ownerOf, hk]
    · rename_i h
      simp only [ownerOf, ih]
      by_cases hk : k = j
      · subst hk; simp [h]
      · simp [hk]

theorem mem_claim_key {o : Owners} {k i : Nat} {e : Nat × Nat} (h : e ∈ claim o k i) :
    e.1 = k ∨ e ∈ o := by
  induction o with
  | nil => simp [claim] at h; simp [h]
  | cons d o ih =>
    obtain ⟨k', i'⟩ := d
    unfold claim at h
    split at h
    · simp at h ⊢; rcases h with h | h | h <;> simp [h]
    · split at h
      · simp at h ⊢; rcases h with h | h <;> simp [h]
      · simp at h ⊢
        rcases h with h | h
        · simp [h]
        · rcases ih h with h | h <;> simp [h]

theorem wf_claim {o : Owners} (h : Owners.wf o) (k i : Nat) : Owners.wf (claim o k i) := by
  induction o with
  | nil => simp [claim, Owners.wf]
  | cons d o ih =>
    obtain ⟨k', i'⟩ := d
    simp only [Owners.wf, List.pairwise_cons] at h ih ⊢
    obtain ⟨h1, h2⟩ := h
    unfold claim
    split
    · rename_i hk
      simp only [List.pairwise_cons]
      refine ⟨?_, h1, h2⟩
      intro a ha
      rcases List.mem_cons.1 ha with rfl | ha
      · exact hk
      · exact lt_trans hk (h1 a ha)
    · split
      · rename_i hk; subst hk
        exact List.pairwise_cons.2 ⟨h1, h2⟩
      · rename_i hlt hne
        refine List.pairwise_cons.2 ⟨?_, ih h2⟩
        intro a ha
        rcases mem_claim_key ha with ha | ha
        · simp only; omega
        · exact h1 a ha

theorem release_sublist (o : Owners) (k : Nat) : (release o k).Sublist o := by
  induction o with
  | nil => exact List.Sublist.refl _
  | cons d o ih =>
    obtain ⟨k', i'⟩ := d
    unfold release
    split
    · exact ih.cons _
    · exact ih.cons_cons _

theorem wf_release {o : Owners} (h : Owners.wf o) (k : Nat) : Owners.wf (release o k) :=
  h.sublist (release_sublist o k)

end Sys2Proof.Machine
end

