-- ==== Sys2Proof/Laws/State.lean ====
section
/-! SUPPORT. What each named update of the state leaves in each field, so that no proof unfolds a record update, and
reading an instance or an engine after writing one. -/

namespace Sys2Proof.Machine

/-! ### `setInst` -/

@[simp] theorem setInst_params (s : State) (i : Nat) (x : Inst) : (s.setInst i x).params = s.params := rfl
@[simp] theorem setInst_insts (s : State) (i : Nat) (x : Inst) : (s.setInst i x).insts = s.insts.set i x := rfl
@[simp] theorem setInst_chanOwner (s : State) (i : Nat) (x : Inst) : (s.setInst i x).chanOwner = s.chanOwner := rfl
@[simp] theorem setInst_pinOwner (s : State) (i : Nat) (x : Inst) : (s.setInst i x).pinOwner = s.pinOwner := rfl
@[simp] theorem setInst_txe (s : State) (i : Nat) (x : Inst) : (s.setInst i x).txe = s.txe := rfl
@[simp] theorem setInst_rxe (s : State) (i : Nat) (x : Inst) : (s.setInst i x).rxe = s.rxe := rfl
@[simp] theorem setInst_port (s : State) (i : Nat) (x : Inst) : (s.setInst i x).port = s.port := rfl
@[simp] theorem setInst_blocked (s : State) (i : Nat) (x : Inst) : (s.setInst i x).blocked = s.blocked := rfl
@[simp] theorem setInst_responses (s : State) (i : Nat) (x : Inst) : (s.setInst i x).responses = s.responses := rfl
@[simp] theorem setInst_script (s : State) (i : Nat) (x : Inst) : (s.setInst i x).script = s.script := rfl
@[simp] theorem setInst_drawn (s : State) (i : Nat) (x : Inst) : (s.setInst i x).drawn = s.drawn := rfl
@[simp] theorem setInst_tx_read (s : State) (i : Nat) (x : Inst) (k : Chan) : (s.setInst i x).tx? k = s.tx? k := by
  simp [State.tx?]
@[simp] theorem setInst_rx_read (s : State) (i : Nat) (x : Inst) (k : Chan) : (s.setInst i x).rx? k = s.rx? k := by
  simp [State.rx?]

/-! ### `setTx` -/

@[simp] theorem setTx_params (s : State) (c : Chan) (e : TxEngine) : (s.setTx c e).params = s.params := rfl
@[simp] theorem setTx_insts (s : State) (c : Chan) (e : TxEngine) : (s.setTx c e).insts = s.insts := rfl
@[simp] theorem setTx_chanOwner (s : State) (c : Chan) (e : TxEngine) : (s.setTx c e).chanOwner = s.chanOwner := rfl
@[simp] theorem setTx_pinOwner (s : State) (c : Chan) (e : TxEngine) : (s.setTx c e).pinOwner = s.pinOwner := rfl
@[simp] theorem setTx_txe (s : State) (c : Chan) (e : TxEngine) : (s.setTx c e).txe = s.txe.set c.toNat e := rfl
@[simp] theorem setTx_rxe (s : State) (c : Chan) (e : TxEngine) : (s.setTx c e).rxe = s.rxe := rfl
@[simp] theorem setTx_port (s : State) (c : Chan) (e : TxEngine) : (s.setTx c e).port = s.port := rfl
@[simp] theorem setTx_blocked (s : State) (c : Chan) (e : TxEngine) : (s.setTx c e).blocked = s.blocked := rfl
@[simp] theorem setTx_responses (s : State) (c : Chan) (e : TxEngine) : (s.setTx c e).responses = s.responses := rfl
@[simp] theorem setTx_script (s : State) (c : Chan) (e : TxEngine) : (s.setTx c e).script = s.script := rfl
@[simp] theorem setTx_drawn (s : State) (c : Chan) (e : TxEngine) : (s.setTx c e).drawn = s.drawn := rfl
@[simp] theorem setTx_inst_read (s : State) (c : Chan) (e : TxEngine) (j : Nat) : (s.setTx c e).inst? j = s.inst? j := by
  simp [State.inst?]
@[simp] theorem setTx_rx_read (s : State) (c : Chan) (e : TxEngine) (k : Chan) : (s.setTx c e).rx? k = s.rx? k := by
  simp [State.rx?]

/-! ### `setRx` -/

@[simp] theorem setRx_params (s : State) (c : Chan) (e : RxEngine) : (s.setRx c e).params = s.params := rfl
@[simp] theorem setRx_insts (s : State) (c : Chan) (e : RxEngine) : (s.setRx c e).insts = s.insts := rfl
@[simp] theorem setRx_chanOwner (s : State) (c : Chan) (e : RxEngine) : (s.setRx c e).chanOwner = s.chanOwner := rfl
@[simp] theorem setRx_pinOwner (s : State) (c : Chan) (e : RxEngine) : (s.setRx c e).pinOwner = s.pinOwner := rfl
@[simp] theorem setRx_txe (s : State) (c : Chan) (e : RxEngine) : (s.setRx c e).txe = s.txe := rfl
@[simp] theorem setRx_rxe (s : State) (c : Chan) (e : RxEngine) : (s.setRx c e).rxe = s.rxe.set c.toNat e := rfl
@[simp] theorem setRx_port (s : State) (c : Chan) (e : RxEngine) : (s.setRx c e).port = s.port := rfl
@[simp] theorem setRx_blocked (s : State) (c : Chan) (e : RxEngine) : (s.setRx c e).blocked = s.blocked := rfl
@[simp] theorem setRx_responses (s : State) (c : Chan) (e : RxEngine) : (s.setRx c e).responses = s.responses := rfl
@[simp] theorem setRx_script (s : State) (c : Chan) (e : RxEngine) : (s.setRx c e).script = s.script := rfl
@[simp] theorem setRx_drawn (s : State) (c : Chan) (e : RxEngine) : (s.setRx c e).drawn = s.drawn := rfl
@[simp] theorem setRx_inst_read (s : State) (c : Chan) (e : RxEngine) (j : Nat) : (s.setRx c e).inst? j = s.inst? j := by
  simp [State.inst?]
@[simp] theorem setRx_tx_read (s : State) (c : Chan) (e : RxEngine) (k : Chan) : (s.setRx c e).tx? k = s.tx? k := by
  simp [State.tx?]

/-! ### `respond` -/

@[simp] theorem respond_params (s : State) (i c : Nat) (st : Status) (d : Byte) (n : Nat) : (respond s i c st d n).params = s.params := rfl
@[simp] theorem respond_insts (s : State) (i c : Nat) (st : Status) (d : Byte) (n : Nat) : (respond s i c st d n).insts = s.insts := rfl
@[simp] theorem respond_chanOwner (s : State) (i c : Nat) (st : Status) (d : Byte) (n : Nat) : (respond s i c st d n).chanOwner = s.chanOwner := rfl
@[simp] theorem respond_pinOwner (s : State) (i c : Nat) (st : Status) (d : Byte) (n : Nat) : (respond s i c st d n).pinOwner = s.pinOwner := rfl
@[simp] theorem respond_txe (s : State) (i c : Nat) (st : Status) (d : Byte) (n : Nat) : (respond s i c st d n).txe = s.txe := rfl
@[simp] theorem respond_rxe (s : State) (i c : Nat) (st : Status) (d : Byte) (n : Nat) : (respond s i c st d n).rxe = s.rxe := rfl
@[simp] theorem respond_port (s : State) (i c : Nat) (st : Status) (d : Byte) (n : Nat) : (respond s i c st d n).port = s.port := rfl
@[simp] theorem respond_blocked (s : State) (i c : Nat) (st : Status) (d : Byte) (n : Nat) : (respond s i c st d n).blocked = s.blocked.erase c := rfl
@[simp] theorem respond_responses (s : State) (i c : Nat) (st : Status) (d : Byte) (n : Nat) : (respond s i c st d n).responses = ⟨i, c, responseWord st d, n⟩ :: s.responses := rfl
@[simp] theorem respond_script (s : State) (i c : Nat) (st : Status) (d : Byte) (n : Nat) : (respond s i c st d n).script = s.script := rfl
@[simp] theorem respond_drawn (s : State) (i c : Nat) (st : Status) (d : Byte) (n : Nat) : (respond s i c st d n).drawn = s.drawn := rfl
@[simp] theorem respond_inst_read (s : State) (i c : Nat) (st : Status) (d : Byte) (n : Nat) (j : Nat) : (respond s i c st d n).inst? j = s.inst? j := by
  simp [State.inst?]
@[simp] theorem respond_tx_read (s : State) (i c : Nat) (st : Status) (d : Byte) (n : Nat) (k : Chan) : (respond s i c st d n).tx? k = s.tx? k := by
  simp [State.tx?]
@[simp] theorem respond_rx_read (s : State) (i c : Nat) (st : Status) (d : Byte) (n : Nat) (k : Chan) : (respond s i c st d n).rx? k = s.rx? k := by
  simp [State.rx?]

/-! ### `respondPort` -/

@[simp] theorem respondPort_params (s : State) (st : Status) (d : Byte) : (respondPort s st d).params = s.params := rfl
@[simp] theorem respondPort_insts (s : State) (st : Status) (d : Byte) : (respondPort s st d).insts = s.insts := rfl
@[simp] theorem respondPort_chanOwner (s : State) (st : Status) (d : Byte) : (respondPort s st d).chanOwner = s.chanOwner := rfl
@[simp] theorem respondPort_pinOwner (s : State) (st : Status) (d : Byte) : (respondPort s st d).pinOwner = s.pinOwner := rfl
@[simp] theorem respondPort_txe (s : State) (st : Status) (d : Byte) : (respondPort s st d).txe = s.txe := rfl
@[simp] theorem respondPort_rxe (s : State) (st : Status) (d : Byte) : (respondPort s st d).rxe = s.rxe := rfl
@[simp] theorem respondPort_port (s : State) (st : Status) (d : Byte) : (respondPort s st d).port = s.port := rfl
@[simp] theorem respondPort_blocked (s : State) (st : Status) (d : Byte) : (respondPort s st d).blocked = s.blocked.erase s.port.caller := rfl
@[simp] theorem respondPort_responses (s : State) (st : Status) (d : Byte) : (respondPort s st d).responses = ⟨s.port.inst, s.port.caller, responseWord st d, 0⟩ :: s.responses := rfl
@[simp] theorem respondPort_script (s : State) (st : Status) (d : Byte) : (respondPort s st d).script = s.script := rfl
@[simp] theorem respondPort_drawn (s : State) (st : Status) (d : Byte) : (respondPort s st d).drawn = s.drawn := rfl
@[simp] theorem respondPort_inst_read (s : State) (st : Status) (d : Byte) (j : Nat) : (respondPort s st d).inst? j = s.inst? j := by
  simp [State.inst?]
@[simp] theorem respondPort_tx_read (s : State) (st : Status) (d : Byte) (k : Chan) : (respondPort s st d).tx? k = s.tx? k := by
  simp [State.tx?]
@[simp] theorem respondPort_rx_read (s : State) (st : Status) (d : Byte) (k : Chan) : (respondPort s st d).rx? k = s.rx? k := by
  simp [State.rx?]

/-! ### `accept` -/

@[simp] theorem accept_params (s : State) (i c : Nat) (a : Bool) : (s.accept i c a).params = s.params := rfl
@[simp] theorem accept_insts (s : State) (i c : Nat) (a : Bool) : (s.accept i c a).insts = s.insts := rfl
@[simp] theorem accept_chanOwner (s : State) (i c : Nat) (a : Bool) : (s.accept i c a).chanOwner = s.chanOwner := rfl
@[simp] theorem accept_pinOwner (s : State) (i c : Nat) (a : Bool) : (s.accept i c a).pinOwner = s.pinOwner := rfl
@[simp] theorem accept_txe (s : State) (i c : Nat) (a : Bool) : (s.accept i c a).txe = s.txe := rfl
@[simp] theorem accept_rxe (s : State) (i c : Nat) (a : Bool) : (s.accept i c a).rxe = s.rxe := rfl
@[simp] theorem accept_port (s : State) (i c : Nat) (a : Bool) : (s.accept i c a).port = ⟨i, c, a⟩ := rfl
@[simp] theorem accept_blocked (s : State) (i c : Nat) (a : Bool) : (s.accept i c a).blocked = c :: s.blocked := rfl
@[simp] theorem accept_responses (s : State) (i c : Nat) (a : Bool) : (s.accept i c a).responses = s.responses := rfl
@[simp] theorem accept_script (s : State) (i c : Nat) (a : Bool) : (s.accept i c a).script = s.script := rfl
@[simp] theorem accept_drawn (s : State) (i c : Nat) (a : Bool) : (s.accept i c a).drawn = s.drawn := rfl
@[simp] theorem accept_inst_read (s : State) (i c : Nat) (a : Bool) (j : Nat) : (s.accept i c a).inst? j = s.inst? j := by
  simp [State.inst?]
@[simp] theorem accept_tx_read (s : State) (i c : Nat) (a : Bool) (k : Chan) : (s.accept i c a).tx? k = s.tx? k := by
  simp [State.tx?]
@[simp] theorem accept_rx_read (s : State) (i c : Nat) (a : Bool) (k : Chan) : (s.accept i c a).rx? k = s.rx? k := by
  simp [State.rx?]

/-! ### `claimAll` -/

@[simp] theorem claimAll_params (s : State) (i : Nat) (b : Binding) : (claimAll s i b).params = s.params := rfl
@[simp] theorem claimAll_insts (s : State) (i : Nat) (b : Binding) : (claimAll s i b).insts = s.insts := rfl
@[simp] theorem claimAll_chanOwner (s : State) (i : Nat) (b : Binding) : (claimAll s i b).chanOwner = claim (claim s.chanOwner b.tx.toNat i) b.rx.toNat i := rfl
@[simp] theorem claimAll_pinOwner (s : State) (i : Nat) (b : Binding) : (claimAll s i b).pinOwner = claim s.pinOwner b.pin.toNat i := rfl
@[simp] theorem claimAll_txe (s : State) (i : Nat) (b : Binding) : (claimAll s i b).txe = s.txe := rfl
@[simp] theorem claimAll_rxe (s : State) (i : Nat) (b : Binding) : (claimAll s i b).rxe = s.rxe := rfl
@[simp] theorem claimAll_port (s : State) (i : Nat) (b : Binding) : (claimAll s i b).port = s.port := rfl
@[simp] theorem claimAll_blocked (s : State) (i : Nat) (b : Binding) : (claimAll s i b).blocked = s.blocked := rfl
@[simp] theorem claimAll_responses (s : State) (i : Nat) (b : Binding) : (claimAll s i b).responses = s.responses := rfl
@[simp] theorem claimAll_script (s : State) (i : Nat) (b : Binding) : (claimAll s i b).script = s.script := rfl
@[simp] theorem claimAll_drawn (s : State) (i : Nat) (b : Binding) : (claimAll s i b).drawn = s.drawn := rfl
@[simp] theorem claimAll_inst_read (s : State) (i : Nat) (b : Binding) (j : Nat) : (claimAll s i b).inst? j = s.inst? j := by
  simp [State.inst?]
@[simp] theorem claimAll_tx_read (s : State) (i : Nat) (b : Binding) (k : Chan) : (claimAll s i b).tx? k = s.tx? k := by
  simp [State.tx?]
@[simp] theorem claimAll_rx_read (s : State) (i : Nat) (b : Binding) (k : Chan) : (claimAll s i b).rx? k = s.rx? k := by
  simp [State.rx?]

/-! ### `releaseAll` -/

@[simp] theorem releaseAll_params (s : State) (b : Binding) : (releaseAll s b).params = s.params := rfl
@[simp] theorem releaseAll_insts (s : State) (b : Binding) : (releaseAll s b).insts = s.insts := rfl
@[simp] theorem releaseAll_chanOwner (s : State) (b : Binding) : (releaseAll s b).chanOwner = release (release s.chanOwner b.tx.toNat) b.rx.toNat := rfl
@[simp] theorem releaseAll_pinOwner (s : State) (b : Binding) : (releaseAll s b).pinOwner = release s.pinOwner b.pin.toNat := rfl
@[simp] theorem releaseAll_txe (s : State) (b : Binding) : (releaseAll s b).txe = s.txe := rfl
@[simp] theorem releaseAll_rxe (s : State) (b : Binding) : (releaseAll s b).rxe = s.rxe := rfl
@[simp] theorem releaseAll_port (s : State) (b : Binding) : (releaseAll s b).port = s.port := rfl
@[simp] theorem releaseAll_blocked (s : State) (b : Binding) : (releaseAll s b).blocked = s.blocked := rfl
@[simp] theorem releaseAll_responses (s : State) (b : Binding) : (releaseAll s b).responses = s.responses := rfl
@[simp] theorem releaseAll_script (s : State) (b : Binding) : (releaseAll s b).script = s.script := rfl
@[simp] theorem releaseAll_drawn (s : State) (b : Binding) : (releaseAll s b).drawn = s.drawn := rfl
@[simp] theorem releaseAll_inst_read (s : State) (b : Binding) (j : Nat) : (releaseAll s b).inst? j = s.inst? j := by
  simp [State.inst?]
@[simp] theorem releaseAll_tx_read (s : State) (b : Binding) (k : Chan) : (releaseAll s b).tx? k = s.tx? k := by
  simp [State.tx?]
@[simp] theorem releaseAll_rx_read (s : State) (b : Binding) (k : Chan) : (releaseAll s b).rx? k = s.rx? k := by
  simp [State.rx?]

/-! ### `quietTx` -/

@[simp] theorem quietTx_params (s : State) (c : Chan) : (s.quietTx c).params = s.params := by unfold State.quietTx; split <;> rfl
@[simp] theorem quietTx_insts (s : State) (c : Chan) : (s.quietTx c).insts = s.insts := by unfold State.quietTx; split <;> rfl
@[simp] theorem quietTx_chanOwner (s : State) (c : Chan) : (s.quietTx c).chanOwner = s.chanOwner := by unfold State.quietTx; split <;> rfl
@[simp] theorem quietTx_pinOwner (s : State) (c : Chan) : (s.quietTx c).pinOwner = s.pinOwner := by unfold State.quietTx; split <;> rfl
@[simp] theorem quietTx_rxe (s : State) (c : Chan) : (s.quietTx c).rxe = s.rxe := by unfold State.quietTx; split <;> rfl
@[simp] theorem quietTx_port (s : State) (c : Chan) : (s.quietTx c).port = s.port := by unfold State.quietTx; split <;> rfl
@[simp] theorem quietTx_blocked (s : State) (c : Chan) : (s.quietTx c).blocked = s.blocked := by unfold State.quietTx; split <;> rfl
@[simp] theorem quietTx_responses (s : State) (c : Chan) : (s.quietTx c).responses = s.responses := by unfold State.quietTx; split <;> rfl
@[simp] theorem quietTx_script (s : State) (c : Chan) : (s.quietTx c).script = s.script := by unfold State.quietTx; split <;> rfl
@[simp] theorem quietTx_drawn (s : State) (c : Chan) : (s.quietTx c).drawn = s.drawn := by unfold State.quietTx; split <;> rfl
@[simp] theorem quietTx_inst_read (s : State) (c : Chan) (j : Nat) : (s.quietTx c).inst? j = s.inst? j := by
  simp [State.inst?]
@[simp] theorem quietTx_rx_read (s : State) (c : Chan) (k : Chan) : (s.quietTx c).rx? k = s.rx? k := by
  simp [State.rx?]

/-! ### `quietRx` -/

@[simp] theorem quietRx_params (s : State) (c : Chan) : (s.quietRx c).params = s.params := by unfold State.quietRx; split <;> rfl
@[simp] theorem quietRx_insts (s : State) (c : Chan) : (s.quietRx c).insts = s.insts := by unfold State.quietRx; split <;> rfl
@[simp] theorem quietRx_chanOwner (s : State) (c : Chan) : (s.quietRx c).chanOwner = s.chanOwner := by unfold State.quietRx; split <;> rfl
@[simp] theorem quietRx_pinOwner (s : State) (c : Chan) : (s.quietRx c).pinOwner = s.pinOwner := by unfold State.quietRx; split <;> rfl
@[simp] theorem quietRx_txe (s : State) (c : Chan) : (s.quietRx c).txe = s.txe := by unfold State.quietRx; split <;> rfl
@[simp] theorem quietRx_port (s : State) (c : Chan) : (s.quietRx c).port = s.port := by unfold State.quietRx; split <;> rfl
@[simp] theorem quietRx_blocked (s : State) (c : Chan) : (s.quietRx c).blocked = s.blocked := by unfold State.quietRx; split <;> rfl
@[simp] theorem quietRx_responses (s : State) (c : Chan) : (s.quietRx c).responses = s.responses := by unfold State.quietRx; split <;> rfl
@[simp] theorem quietRx_script (s : State) (c : Chan) : (s.quietRx c).script = s.script := by unfold State.quietRx; split <;> rfl
@[simp] theorem quietRx_drawn (s : State) (c : Chan) : (s.quietRx c).drawn = s.drawn := by unfold State.quietRx; split <;> rfl
@[simp] theorem quietRx_inst_read (s : State) (c : Chan) (j : Nat) : (s.quietRx c).inst? j = s.inst? j := by
  simp [State.inst?]
@[simp] theorem quietRx_tx_read (s : State) (c : Chan) (k : Chan) : (s.quietRx c).tx? k = s.tx? k := by
  simp [State.tx?]

/-! ### `raiseFault` -/

@[simp] theorem raiseFault_params (s : State) (i : Nat) (r : FaultReason) : (raiseFault s i r).params = s.params := by
  unfold raiseFault; split
  · rfl
  · split <;> rfl
@[simp] theorem raiseFault_chanOwner (s : State) (i : Nat) (r : FaultReason) : (raiseFault s i r).chanOwner = s.chanOwner := by
  unfold raiseFault; split
  · rfl
  · split <;> rfl
@[simp] theorem raiseFault_pinOwner (s : State) (i : Nat) (r : FaultReason) : (raiseFault s i r).pinOwner = s.pinOwner := by
  unfold raiseFault; split
  · rfl
  · split <;> rfl
@[simp] theorem raiseFault_txe (s : State) (i : Nat) (r : FaultReason) : (raiseFault s i r).txe = s.txe := by
  unfold raiseFault; split
  · rfl
  · split <;> rfl
@[simp] theorem raiseFault_rxe (s : State) (i : Nat) (r : FaultReason) : (raiseFault s i r).rxe = s.rxe := by
  unfold raiseFault; split
  · rfl
  · split <;> rfl
@[simp] theorem raiseFault_port (s : State) (i : Nat) (r : FaultReason) : (raiseFault s i r).port = s.port := by
  unfold raiseFault; split
  · rfl
  · split <;> rfl
@[simp] theorem raiseFault_blocked (s : State) (i : Nat) (r : FaultReason) : (raiseFault s i r).blocked = s.blocked := by
  unfold raiseFault; split
  · rfl
  · split <;> rfl
@[simp] theorem raiseFault_responses (s : State) (i : Nat) (r : FaultReason) : (raiseFault s i r).responses = s.responses := by
  unfold raiseFault; split
  · rfl
  · split <;> rfl
@[simp] theorem raiseFault_script (s : State) (i : Nat) (r : FaultReason) : (raiseFault s i r).script = s.script := by
  unfold raiseFault; split
  · rfl
  · split <;> rfl
@[simp] theorem raiseFault_drawn (s : State) (i : Nat) (r : FaultReason) : (raiseFault s i r).drawn = s.drawn := by
  unfold raiseFault; split
  · rfl
  · split <;> rfl
@[simp] theorem raiseFault_tx_read (s : State) (i : Nat) (r : FaultReason) (k : Chan) : (raiseFault s i r).tx? k = s.tx? k := by
  simp [State.tx?]
@[simp] theorem raiseFault_rx_read (s : State) (i : Nat) (r : FaultReason) (k : Chan) : (raiseFault s i r).rx? k = s.rx? k := by
  simp [State.rx?]

/-! ### `popEvent` -/

@[simp] theorem popEvent_params (s : State) : (popEvent s).params = s.params := by unfold popEvent; split <;> rfl
@[simp] theorem popEvent_insts (s : State) : (popEvent s).insts = s.insts := by unfold popEvent; split <;> rfl
@[simp] theorem popEvent_chanOwner (s : State) : (popEvent s).chanOwner = s.chanOwner := by unfold popEvent; split <;> rfl
@[simp] theorem popEvent_pinOwner (s : State) : (popEvent s).pinOwner = s.pinOwner := by unfold popEvent; split <;> rfl
@[simp] theorem popEvent_txe (s : State) : (popEvent s).txe = s.txe := by unfold popEvent; split <;> rfl
@[simp] theorem popEvent_rxe (s : State) : (popEvent s).rxe = s.rxe := by unfold popEvent; split <;> rfl
@[simp] theorem popEvent_port (s : State) : (popEvent s).port = s.port := by unfold popEvent; split <;> rfl
@[simp] theorem popEvent_blocked (s : State) : (popEvent s).blocked = s.blocked := by unfold popEvent; split <;> rfl
@[simp] theorem popEvent_responses (s : State) : (popEvent s).responses = s.responses := by unfold popEvent; split <;> rfl
@[simp] theorem popEvent_inst_read (s : State) (j : Nat) : (popEvent s).inst? j = s.inst? j := by
  simp [State.inst?]
@[simp] theorem popEvent_tx_read (s : State) (k : Chan) : (popEvent s).tx? k = s.tx? k := by
  simp [State.tx?]
@[simp] theorem popEvent_rx_read (s : State) (k : Chan) : (popEvent s).rx? k = s.rx? k := by
  simp [State.rx?]

/-! ### Reading after writing -/

theorem inst_setInst (s : State) (i j : Nat) (x : Inst) :
    (s.setInst i x).inst? j = if i = j then (s.inst? j).map fun _ => x else s.inst? j := by
  simp only [State.inst?, setInst_insts, List.getElem?_set]
  by_cases h : i = j
  · subst h
    by_cases hl : i < s.insts.length <;> simp [hl]
  · simp [h]

theorem inst_setInst_self {s : State} {i : Nat} {x y : Inst} (h : s.inst? i = some y) :
    (s.setInst i x).inst? i = some x := by simp [inst_setInst, h]

theorem inst_setInst_ne (s : State) {i j : Nat} (x : Inst) (h : i ≠ j) :
    (s.setInst i x).inst? j = s.inst? j := by simp [inst_setInst, h]

theorem chan_toNat_inj {c k : Chan} (h : c.toNat = k.toNat) : c = k := BitVec.eq_of_toNat_eq h

theorem tx_setTx (s : State) (c k : Chan) (e : TxEngine) :
    (s.setTx c e).tx? k = if c = k then (s.tx? k).map fun _ => e else s.tx? k := by
  simp only [State.tx?, setTx_txe, List.getElem?_set]
  by_cases h : c = k
  · subst h
    by_cases hl : c.toNat < s.txe.length <;> simp [hl]
  · have : c.toNat ≠ k.toNat := fun hc => h (chan_toNat_inj hc)
    simp [h, this]

theorem rx_setRx (s : State) (c k : Chan) (e : RxEngine) :
    (s.setRx c e).rx? k = if c = k then (s.rx? k).map fun _ => e else s.rx? k := by
  simp only [State.rx?, setRx_rxe, List.getElem?_set]
  by_cases h : c = k
  · subst h
    by_cases hl : c.toNat < s.rxe.length <;> simp [hl]
  · have : c.toNat ≠ k.toNat := fun hc => h (chan_toNat_inj hc)
    simp [h, this]

theorem tx_setTx_self {s : State} {c : Chan} {e d : TxEngine} (h : s.tx? c = some d) :
    (s.setTx c e).tx? c = some e := by simp [tx_setTx, h]

theorem rx_setRx_self {s : State} {c : Chan} {e d : RxEngine} (h : s.rx? c = some d) :
    (s.setRx c e).rx? c = some e := by simp [rx_setRx, h]

theorem tx_quietTx (s : State) (c k : Chan) :
    (s.quietTx c).tx? k = if c = k then (s.tx? k).map fun e => { e with busy := false } else s.tx? k := by
  unfold State.quietTx
  split
  · rename_i e he
    by_cases h : c = k
    · subst h; simp [tx_setTx, he]
    · simp [tx_setTx, h]
  · rename_i he
    by_cases h : c = k
    · subst h; simp [he]
    · simp [h]

theorem rx_quietRx (s : State) (c k : Chan) :
    (s.quietRx c).rx? k =
      if c = k then (s.rx? k).map fun e => { e with armed := false, items := [] } else s.rx? k := by
  unfold State.quietRx
  split
  · rename_i e he
    by_cases h : c = k
    · subst h; simp [rx_setRx, he]
    · simp [rx_setRx, h]
  · rename_i he
    by_cases h : c = k
    · subst h; simp [he]
    · simp [h]

@[simp] theorem quietTx_txe_length (s : State) (c : Chan) : (s.quietTx c).txe.length = s.txe.length := by
  unfold State.quietTx; split <;> simp

@[simp] theorem quietRx_rxe_length (s : State) (c : Chan) : (s.quietRx c).rxe.length = s.rxe.length := by
  unfold State.quietRx; split <;> simp

@[simp] theorem raiseFault_insts_length (s : State) (i : Nat) (r : FaultReason) :
    (raiseFault s i r).insts.length = s.insts.length := by
  unfold raiseFault
  split
  · rfl
  · split <;> simp

/-- Everything raising a model fault can do to the instances (R326): the sticky fault of the one instance is set if it
was not, and nothing else changes. -/
theorem inst_raiseFault (s : State) (i j : Nat) (r : FaultReason) :
    (raiseFault s i r).inst? j =
      if i = j then (s.inst? j).map fun x => { x with fault := x.fault <|> some r } else s.inst? j := by
  unfold raiseFault
  split
  · rename_i h
    by_cases hij : i = j
    · subst hij; simp [h]
    · simp [hij]
  · rename_i x h
    split
    · rename_i f hf
      by_cases hij : i = j
      · subst hij
        obtain ⟨⟩ := x
        simp_all
      · simp [hij]
    · rename_i hf
      by_cases hij : i = j
      · subst hij; simp [inst_setInst, h, hf]
      · simp [inst_setInst, hij]

end Sys2Proof.Machine
end

