-- ==== Sys2Proof/Laws/Ops.lean ====
section
/-! SUPPORT. For each shared operation, one lemma that says everything it can do. -/

namespace Sys2Proof.Machine

/-! ### The port -/

/-- A command at the port of a live instance runs on it. -/
theorem onPort_live {s : State} {x : Inst} {run : Inst → Result} (h : s.inst? s.port.inst = some x)
    (hf : x.fault = none) : onPort s run = run x := by
  simp [onPort, h, hf]

/-- A command at the port of a faulted instance takes no step (R326). -/
theorem onPort_faulted {s : State} {x : Inst} {run : Inst → Result} (h : s.inst? s.port.inst = some x)
    (hf : x.fault ≠ none) : onPort s run = .next s := by
  unfold onPort
  cases hx : x.fault with
  | none => exact absurd hx hf
  | some r => simp [h, hx]

/-- If a command at the port answers a next state, the instance exists, and either it is faulted and nothing happened or
the command ran. -/
theorem onPort_next {s t : State} {run : Inst → Result} (h : onPort s run = .next t) :
    ∃ x, s.inst? s.port.inst = some x ∧
      ((x.fault ≠ none ∧ t = s) ∨ (x.fault = none ∧ run x = .next t)) := by
  unfold onPort at h
  split at h
  · cases h
  · rename_i x hx
    refine ⟨x, hx, ?_⟩
    split at h
    · rename_i r hr
      cases h
      exact .inl ⟨by simp [hr], rfl⟩
    · rename_i hr
      exact .inr ⟨hr, h⟩

/-! ### The lock (R250) -/

theorem acquireLock_free {x : Inst} {c : Nat} {cmd : BusCmd} (h : x.lock = .free) :
    acquireLock x c cmd = { x with lock := .held c, op := some (opStart cmd) } := by
  simp [acquireLock, h]

theorem acquireLock_held {x : Inst} {c d : Nat} {cmd : BusCmd} (h : x.lock = .held d) :
    acquireLock x c cmd = { x with waiters := x.waiters ++ [⟨c, cmd⟩] } := by
  simp [acquireLock, h]

/-- Taking the lock, or waiting for it, leaves every register but `LOCK`, `OP` and `WAITERS`. -/
theorem acquireLock_frame (x : Inst) (c : Nat) (cmd : BusCmd) :
    acquireLock x c cmd =
      { x with lock := (acquireLock x c cmd).lock, op := (acquireLock x c cmd).op,
               waiters := (acquireLock x c cmd).waiters } := by
  unfold acquireLock; split <;> rfl

/-- A draw picks a waiter exactly when there is one. -/
theorem pickWaiter_none {ws : List Waiter} {g : Nat} : pickWaiter ws g = none ↔ ws = [] := by
  unfold pickWaiter
  constructor
  · intro h
    split at h
    · cases h
    · rename_i hg
      rw [List.getElem?_eq_none_iff] at hg
      by_contra hne
      have : 0 < ws.length := List.length_pos_iff.2 hne
      exact absurd (Nat.mod_lt g this) (by omega)
  · rintro rfl; simp

/-- The waiter picked was waiting, and the others go on waiting. -/
theorem pickWaiter_some {ws ws' : List Waiter} {g : Nat} {w : Waiter} (h : pickWaiter ws g = some (w, ws')) :
    w ∈ ws ∧ (w :: ws').Perm ws := by
  unfold pickWaiter at h
  split at h
  · rename_i v hv
    cases h
    obtain ⟨hl, rfl⟩ := List.getElem?_eq_some_iff.1 hv
    exact ⟨List.getElem_mem hl, List.getElem_cons_eraseIdx_perm hl⟩
  · cases h

/-- Everything a release can do (R250). -/
theorem releaseLock_cases (x : Inst) (g : Nat) :
    (x.waiters = [] ∧ releaseLock x g = { x with op := none, lock := .free }) ∨
    (∃ w ws, pickWaiter x.waiters g = some (w, ws) ∧
      releaseLock x g = { x with op := some (opStart w.cmd), lock := .held w.caller, waiters := ws }) := by
  unfold releaseLock
  split
  · rename_i h
    exact .inl ⟨pickWaiter_none.1 h, rfl⟩
  · rename_i w ws h
    exact .inr ⟨w, ws, h, rfl⟩

/-- A release leaves every register but `LOCK`, `OP` and `WAITERS`. -/
theorem releaseLock_frame (x : Inst) (g : Nat) :
    releaseLock x g =
      { x with lock := (releaseLock x g).lock, op := (releaseLock x g).op, waiters := (releaseLock x g).waiters } := by
  rcases releaseLock_cases x g with ⟨_, h⟩ | ⟨w, ws, _, h⟩ <;> rw [h]

/-! ### The queue (R71) -/

/-- A push into an empty queue succeeds. -/
theorem queuePush_nil {d : Nat} (h : 1 ≤ d) (b : Batch) : queuePush d [] b = some [b] := by
  simp [queuePush]; omega

/-! ### The instance with its engines -/

theorem gather_eq {s : State} {x : Inst} {b : Binding} {u : Xcvr} :
    gather s x b = some u ↔ u.inst = x ∧ s.tx? b.tx = some u.tx ∧ s.rx? b.rx = some u.rx := by
  unfold gather
  obtain ⟨y, tx, rx⟩ := u
  cases s.tx? b.tx <;> cases s.rx? b.rx <;> simp [eq_comm, and_comm]

section scatterReads
variable (s : State) (i : Nat) (b : Binding) (u : Xcvr)

@[simp] theorem scatter_params : (scatter s i b u).params = s.params := rfl
@[simp] theorem scatter_insts : (scatter s i b u).insts = s.insts.set i u.inst := rfl
@[simp] theorem scatter_chanOwner : (scatter s i b u).chanOwner = s.chanOwner := rfl
@[simp] theorem scatter_pinOwner : (scatter s i b u).pinOwner = s.pinOwner := rfl
@[simp] theorem scatter_txe : (scatter s i b u).txe = s.txe.set b.tx.toNat u.tx := rfl
@[simp] theorem scatter_rxe : (scatter s i b u).rxe = s.rxe.set b.rx.toNat u.rx := rfl
@[simp] theorem scatter_port : (scatter s i b u).port = s.port := rfl
@[simp] theorem scatter_blocked : (scatter s i b u).blocked = s.blocked := rfl
@[simp] theorem scatter_responses : (scatter s i b u).responses = s.responses := rfl
@[simp] theorem scatter_script : (scatter s i b u).script = s.script := rfl
@[simp] theorem scatter_drawn : (scatter s i b u).drawn = s.drawn := rfl

theorem inst_scatter (j : Nat) :
    (scatter s i b u).inst? j = if i = j then (s.inst? j).map fun _ => u.inst else s.inst? j := by
  simp [scatter, inst_setInst]

theorem tx_scatter (k : Chan) :
    (scatter s i b u).tx? k = if b.tx = k then (s.tx? k).map fun _ => u.tx else s.tx? k := by
  simp [scatter, tx_setTx]

theorem rx_scatter (k : Chan) :
    (scatter s i b u).rx? k = if b.rx = k then (s.rx? k).map fun _ => u.rx else s.rx? k := by
  simp [scatter, rx_setRx]

end scatterReads

end Sys2Proof.Machine
end

