-- ==== Sys2Proof/Laws/Session.lean ====
section
/-! SUPPORT. What one tick of a slot does, by the state of its session (R237): one equation per session state, and that
a tick keeps the slot coherent. -/

namespace Sys2Proof.Machine

theorem txSeq_dur (k : SlotKind) (P : Profile) : ∃ a b, txSeq k P = [⟨.low, a⟩, ⟨.high, b⟩] := by
  cases k with
  | resetSlot => exact ⟨_, _, rfl⟩
  | readSlot => exact ⟨_, _, rfl⟩
  | writeSlot b => cases b <;> exact ⟨_, _, rfl⟩

/-- What a trigger never writes (R210). -/
theorem trigger_frame (p : Params) (P : Profile) (k : SlotKind) (env : SlotEnv) (u : Xcvr) :
    (trigger p P k env u).inst.binding = u.inst.binding ∧ (trigger p P k env u).inst.lock = u.inst.lock ∧
      (trigger p P k env u).inst.waiters = u.inst.waiters ∧ (trigger p P k env u).inst.op = u.inst.op ∧
      (trigger p P k env u).inst.fault = u.inst.fault ∧
      (trigger p P k env u).inst.queue.isSome = u.inst.queue.isSome := by
  unfold trigger
  split <;> simp

/-- What a trigger starts (R210): the generate engine, at its first tick. -/
theorem trigger_tx (p : Params) (P : Profile) (k : SlotKind) (env : SlotEnv) (u : Xcvr) :
    (trigger p P k env u).tx = txAt (txSeq k P) 0 := by
  unfold trigger txAt
  split <;> simp

/-- A trigger leaves a coherent slot at tick 0. -/
theorem trigger_coherent {p : Params} {P : Profile} {o : Op} {env : SlotEnv} {x : Inst} {tx : TxEngine} {rx : RxEngine}
    (h : SlotOk p P x tx rx) (hs : x.session = .idle) (ho : x.op = some o) :
    SlotOk p P (trigger p P (slotKindOf o) env ⟨x, tx, rx⟩).inst (trigger p P (slotKindOf o) env ⟨x, tx, rx⟩).tx
      (trigger p P (slotKindOf o) env ⟨x, tx, rx⟩).rx := by
  obtain ⟨hq, h⟩ := h
  simp only [hs] at h
  rw [trigger_tx]
  by_cases hc : (slotKindOf o).captures = true
  · simp only [trigger, hc, if_true]
    refine ⟨by simp [hq, queueFlush], o, env, 0, ho, rfl, rfl, hc, rfl, rfl, Nat.zero_le _, ?_⟩
    exact ⟨rfl, Nat.zero_le _, rfl, fun _ => ⟨rfl, rfl⟩, fun _ => ⟨rfl, rfl⟩, fun _ h0 => absurd h0 (lt_irrefl 0)⟩
  · simp only [trigger, hc]
    exact ⟨hq, o, env, 0, ho, rfl, rfl, by simpa using hc, rfl, Nat.zero_le _, h.2⟩

/-- Step 1 on the engine `t` ticks after the trigger. -/
theorem txDone_txAt {k : SlotCtx} {u : Xcvr} (h : u.tx = txAt k.seq k.t) :
    txDone k u = ⟨u.inst, ⟨decide (k.t < dur k.seq), some k.seq, some k.t⟩, u.rx⟩ := by
  obtain ⟨x, tx, rx⟩ := u
  simp only at h
  subst h
  unfold txDone txAt
  split
  · rename_i ht; simp [ht]
  · rename_i ht
    have : k.t ≤ dur k.seq ↔ k.t < dur k.seq := by omega
    simp [this]

@[simp] theorem txDone_inst (k : SlotCtx) (u : Xcvr) : (txDone k u).inst = u.inst := by
  unfold txDone; split <;> rfl

@[simp] theorem txDone_rx (k : SlotCtx) (u : Xcvr) : (txDone k u).rx = u.rx := by
  unfold txDone; split <;> rfl

/-- Step 7 leaves the engine where it stands at the next tick. -/
theorem txDrive_txAt {seq : Seq} {t : Nat} {x : Inst} {rx : RxEngine} :
    txDrive ⟨x, ⟨decide (t < dur seq), some seq, some t⟩, rx⟩ = ⟨x, txAt seq (t + 1), rx⟩ := by
  have h : t + 1 ≤ dur seq ↔ t < dur seq := Iff.rfl
  simp [txDrive, txAt, h]

/-- Steps 2 to 4 do nothing while the capture engine is disarmed and the session is not capturing. -/
theorem slotTick_disarmed {k : SlotCtx} {x : Inst} {tx : TxEngine} {rx : RxEngine} (ha : rx.armed = false)
    (hs : x.session ≠ .capturing) (htx : tx = txAt k.seq k.t) :
    slotTick k ⟨x, tx, rx⟩ =
      andThen (complete k ⟨x, ⟨decide (k.t < dur k.seq), some k.seq, some k.t⟩, rx⟩)
        (slotGoesOn k) := by
  unfold slotTick
  rw [txDone_txAt htx]
  have hi : ∀ e, rxIdleCheck k ⟨x, e, rx⟩ = .ok ⟨x, e, rx⟩ := by
    intro e; simp [rxIdleCheck, idleGapReached, ha]
  have hp : ∀ e, popBatch ⟨x, e, rx⟩ = ⟨x, e, rx⟩ := by
    intro e; unfold popBatch; split
    · rename_i h _; exact absurd h hs
    · rfl
  have ht : ∀ e, timeoutCheck k ⟨x, e, rx⟩ = .ok ⟨x, e, rx⟩ := by
    intro e; unfold timeoutCheck; split
    · rename_i h; exact absurd h hs
    · rfl
  simp only [hi, andThen, hp, ht]

/-- Steps 6 to 8 while the capture engine is disarmed. -/
theorem slotGoesOn_disarmed {k : SlotCtx} {x : Inst} {rx : RxEngine} (ha : rx.armed = false)
    (hs : x.session ≠ .idle) :
    slotGoesOn k ⟨x, ⟨decide (k.t < dur k.seq), some k.seq, some k.t⟩, rx⟩ =
      .ok (sessAdvance k ⟨x, txAt k.seq (k.t + 1), rx⟩) := by
  simp [slotGoesOn, hs, rxSample, ha, andThen, txDrive_txAt]

/-- A tick of a write slot (R232): it goes on until the sequence ends, and then the slot is done. -/
theorem slotTick_triggered {k : SlotCtx} {u : Xcvr} (hs : u.inst.session = .triggered)
    (ha : u.rx.armed = false) (hk : k.kind.captures = false) (htx : u.tx = txAt k.seq k.t) :
    slotTick k u =
      if k.t = dur k.seq then
        .ok ⟨{ u.inst with session := .idle, slotResult := some .done }, ⟨false, some k.seq, some k.t⟩, u.rx⟩
      else .ok (sessAdvance k ⟨u.inst, txAt k.seq (k.t + 1), u.rx⟩) := by
  obtain ⟨x, tx, rx⟩ := u
  simp only at hs ha htx
  rw [slotTick_disarmed ha (by simp [hs]) htx]
  simp only [complete, hs, hk, and_true]
  split
  · rename_i h; simp [andThen, slotGoesOn, h]
  · exact slotGoesOn_disarmed ha (by simp [hs])

/-- A tick of a slot whose capture has ended (R234): it waits for the sequence to end and then decodes (R226). -/
theorem slotTick_draining {k : SlotCtx} {u : Xcvr} {items : Seq} (hs : u.inst.session = .draining)
    (ha : u.rx.armed = false) (hi : u.inst.decodeItems = some items) (htx : u.tx = txAt k.seq k.t)
    (hle : k.t ≤ dur k.seq) :
    slotTick k u =
      if k.t = dur k.seq then
        .ok ⟨{ u.inst with session := .idle, slotResult := some (decodeSlot k.kind items k.profile) },
          ⟨false, some k.seq, some k.t⟩, u.rx⟩
      else .ok (sessAdvance k ⟨u.inst, txAt k.seq (k.t + 1), u.rx⟩) := by
  obtain ⟨x, tx, rx⟩ := u
  simp only at hs ha hi htx
  rw [slotTick_disarmed ha (by simp [hs]) htx]
  have hd : dur k.seq ≤ k.t ↔ k.t = dur k.seq := by omega
  simp only [complete, hs, hd, hi]
  split
  · rename_i h; simp [andThen, slotGoesOn, h]
  · exact slotGoesOn_disarmed ha (by simp [hs])

/-- The instance when the idle gap ends its capture at tick `t` with the given items (R215, R223). -/
def batchTaken (x : Inst) (items : Seq) (t : Nat) : Inst :=
  { x with queue := some [], capEnd := some t, decodeItems := some items, session := .draining }

/-- A tick at which the idle gap is reached (R215, R223): the batch is pushed and popped, and the slot completes at once
if the sequence has ended. -/
theorem slotTick_idleGap {k : SlotCtx} {u : Xcvr} (hs : u.inst.session = .capturing)
    (hq : u.inst.queue = some []) (hd : 1 ≤ k.params.queueDepth) (hg : idleGapReached k u.rx = true)
    (htx : u.tx = txAt k.seq k.t) :
    slotTick k u =
      if dur k.seq ≤ k.t then
        .ok ⟨{ batchTaken u.inst u.rx.items k.t with
            session := .idle, slotResult := some (decodeSlot k.kind u.rx.items k.profile) },
          ⟨false, some k.seq, some k.t⟩, { u.rx with armed := false }⟩
      else
        .ok (sessAdvance k
          ⟨batchTaken u.inst u.rx.items k.t, txAt k.seq (k.t + 1), { u.rx with armed := false }⟩) := by
  obtain ⟨x, tx, rx⟩ := u
  have hy := txDone_txAt htx
  simp only at hs hq hg
  unfold slotTick
  rw [hy]
  by_cases ht : dur k.seq ≤ k.t
  · have h2 : ¬ k.t < dur k.seq := by omega
    simp [rxIdleCheck, hg, hq, queuePush_nil hd, andThen, popBatch, hs, queuePop, timeoutCheck, complete, ht, slotGoesOn,
      h2, batchTaken]
  · simp [rxIdleCheck, hg, hq, queuePush_nil hd, andThen, popBatch, hs, queuePop, timeoutCheck, complete, ht, slotGoesOn,
      rxSample, txDrive_txAt, batchTaken]

/-- A tick at the deadline with no idle gap (R224): the partial items are decoded, and none is the hard timeout. -/
theorem slotTick_timeout {k : SlotCtx} {u : Xcvr} (hs : u.inst.session = .capturing)
    (hq : u.inst.queue = some []) (hD : u.inst.deadline = some k.t) (hg : idleGapReached k u.rx = false)
    (htx : u.tx = txAt k.seq k.t) (hlt : dur k.seq < k.t) :
    slotTick k u =
      .ok ⟨{ u.inst with
          capEnd := some k.t, session := .idle
          decodeItems := if u.rx.items = [] then u.inst.decodeItems else some u.rx.items
          slotResult := some
            (if u.rx.items = [] then .captureTimeout else decodeSlot k.kind u.rx.items k.profile) },
        ⟨false, some k.seq, some k.t⟩, { u.rx with armed := false }⟩ := by
  obtain ⟨x, tx, rx⟩ := u
  have hy := txDone_txAt htx
  simp only at hs hq hg hD
  have h2 : ¬ k.t < dur k.seq := by omega
  have h4 : dur k.seq ≤ k.t := by omega
  unfold slotTick
  rw [hy]
  by_cases hi : rx.items = []
  · simp [rxIdleCheck, hg, andThen, popBatch, hs, hq, queuePop, timeoutCheck, hD, onTimeout, hi, complete, slotGoesOn,
      h2, queueFlush]
  · simp [rxIdleCheck, hg, andThen, popBatch, hs, hq, queuePop, timeoutCheck, hD, onTimeout, hi, complete, slotGoesOn,
      h2, h4, queueFlush]

/-- A tick of a capture that goes on (R214): the sample, then the generate engine and the timer advance. -/
theorem slotTick_sample {k : SlotCtx} {u : Xcvr} {D : Nat} (hs : u.inst.session = .capturing)
    (hq : u.inst.queue = some []) (hD : u.inst.deadline = some D) (hne : k.t ≠ D)
    (hg : idleGapReached k u.rx = false) :
    slotTick k u = andThen (rxSample k (txDone k u)) fun v => .ok (sessAdvance k (txDrive v)) := by
  obtain ⟨x, tx, rx⟩ := u
  have hy : txDone k ⟨x, tx, rx⟩ = ⟨x, (txDone k ⟨x, tx, rx⟩).tx, rx⟩ := by
    unfold txDone; split <;> rfl
  simp only at hs hq hg hD
  unfold slotTick
  rw [hy]
  simp [rxIdleCheck, hg, andThen, popBatch, hs, hq, queuePop, timeoutCheck, hD, hne, complete, slotGoesOn]

end Sys2Proof.Machine
end

