-- ==== Sys2Proof/Laws/Tick.lean ====
section
/-! SUPPORT. A tick of a slot in full: what it never changes, and what it leaves of a coherent slot. -/

namespace Sys2Proof.Machine

/-! ### What no step of a tick changes -/

/-- The registers no step of a tick writes: the binding, the lock, the waiters, the fault, the deadline and the draws. -/
structure TickFrame (x y : Inst) : Prop where
  binding  : y.binding = x.binding
  lock     : y.lock = x.lock
  waiters  : y.waiters = x.waiters
  fault    : y.fault = x.fault
  deadline : y.deadline = x.deadline
  env      : y.env = x.env

theorem TickFrame.refl (x : Inst) : TickFrame x x := ⟨rfl, rfl, rfl, rfl, rfl, rfl⟩

theorem TickFrame.trans {x y z : Inst} (h : TickFrame x y) (g : TickFrame y z) : TickFrame x z :=
  ⟨g.binding.trans h.binding, g.lock.trans h.lock, g.waiters.trans h.waiters, g.fault.trans h.fault,
    g.deadline.trans h.deadline, g.env.trans h.env⟩

/-- The result of a step keeps the frame, the queue's existence and the engine's sequence. -/
def StepFrame (u : Xcvr) : TickResult → Prop
  | .ok v      => TickFrame u.inst v.inst ∧ v.inst.queue.isSome = u.inst.queue.isSome ∧
      (v.inst.op = none ↔ u.inst.op = none) ∧ v.tx.seq = u.tx.seq
  | .raise _ v => TickFrame u.inst v.inst ∧ v.inst.queue.isSome = u.inst.queue.isSome ∧
      (v.inst.op = none ↔ u.inst.op = none) ∧ v.tx.seq = u.tx.seq

theorem StepFrame.same {u v : Xcvr} (h1 : TickFrame u.inst v.inst)
    (h2 : v.inst.queue.isSome = u.inst.queue.isSome) (h3 : v.inst.op = none ↔ u.inst.op = none)
    (h4 : v.tx.seq = u.tx.seq) : StepFrame u (.ok v) := ⟨h1, h2, h3, h4⟩

theorem StepFrame.self (u : Xcvr) : StepFrame u (.ok u) := ⟨.refl _, rfl, Iff.rfl, rfl⟩

theorem StepFrame.raise (r : FaultReason) (u : Xcvr) : StepFrame u (.raise r u) := ⟨.refl _, rfl, Iff.rfl, rfl⟩

theorem StepFrame.andThen {u : Xcvr} {a : TickResult} {f : Xcvr → TickResult} (ha : StepFrame u a)
    (hf : ∀ v, StepFrame v (f v)) : StepFrame u (andThen a f) := by
  cases a with
  | raise r v => exact ha
  | ok v =>
    obtain ⟨h1, h2, h3, h4⟩ := ha
    have := hf v
    simp only [Machine.andThen]
    cases hfv : f v with
    | ok w =>
      rw [hfv] at this
      obtain ⟨g1, g2, g3, g4⟩ := this
      exact ⟨h1.trans g1, g2.trans h2, g3.trans h3, g4.trans h4⟩
    | raise r w =>
      rw [hfv] at this
      obtain ⟨g1, g2, g3, g4⟩ := this
      exact ⟨h1.trans g1, g2.trans h2, g3.trans h3, g4.trans h4⟩

theorem txDone_seq (k : SlotCtx) (u : Xcvr) : (txDone k u).tx.seq = u.tx.seq := by
  unfold txDone; split <;> rfl

theorem txDone_frame (k : SlotCtx) (u : Xcvr) : StepFrame u (.ok (txDone k u)) := by
  refine ⟨?_, ?_, ?_, txDone_seq k u⟩ <;> simp [TickFrame.refl]

theorem rxIdleCheck_frame (k : SlotCtx) (u : Xcvr) : StepFrame u (rxIdleCheck k u) := by
  unfold rxIdleCheck
  split
  · split
    · exact .raise _ u
    · rename_i q hq
      split
      · exact .raise _ u
      · exact ⟨⟨rfl, rfl, rfl, rfl, rfl, rfl⟩, by simp [hq], Iff.rfl, rfl⟩
  · exact StepFrame.self u

theorem popBatch_frame (u : Xcvr) : StepFrame u (.ok (popBatch u)) := by
  unfold popBatch
  split
  · rename_i b q _ hq
    obtain ⟨q', hq', -⟩ := Option.bind_eq_some_iff.1 hq
    exact ⟨⟨rfl, rfl, rfl, rfl, rfl, rfl⟩, by simp [hq'], Iff.rfl, rfl⟩
  · exact StepFrame.self u

theorem timeoutCheck_frame (k : SlotCtx) (u : Xcvr) : StepFrame u (timeoutCheck k u) := by
  unfold timeoutCheck
  split
  · split
    · exact .raise _ u
    · split
      · unfold onTimeout
        split <;> exact ⟨⟨rfl, rfl, rfl, rfl, rfl, rfl⟩, by simp, Iff.rfl, rfl⟩
      · exact StepFrame.self u
  · exact StepFrame.self u

theorem complete_frame (k : SlotCtx) (u : Xcvr) : StepFrame u (complete k u) := by
  unfold complete
  split
  · split
    · exact ⟨⟨rfl, rfl, rfl, rfl, rfl, rfl⟩, rfl, Iff.rfl, rfl⟩
    · exact StepFrame.self u
  · split
    · split
      · exact .raise _ u
      · exact ⟨⟨rfl, rfl, rfl, rfl, rfl, rfl⟩, rfl, Iff.rfl, rfl⟩
    · exact StepFrame.self u
  · exact StepFrame.self u
  · exact StepFrame.self u

theorem rxSample_frame (k : SlotCtx) (u : Xcvr) : StepFrame u (rxSample k u) := by
  unfold rxSample
  simp only
  repeat' split
  all_goals exact ⟨.refl _, rfl, Iff.rfl, rfl⟩

theorem slotGoesOn_frame (k : SlotCtx) (u : Xcvr) : StepFrame u (slotGoesOn k u) := by
  unfold slotGoesOn
  split
  · exact StepFrame.self u
  · refine (rxSample_frame k u).andThen fun v => ⟨?_, ?_, ?_, ?_⟩
    · exact ⟨rfl, rfl, rfl, rfl, rfl, rfl⟩
    · rfl
    · simp [sessAdvance, txDrive]
    · rfl

/-- What no tick changes: the registers of `TickFrame`, whether a queue is allocated, whether an operation is in flight,
and the sequence in the generate engine. -/
theorem slotTick_frame (k : SlotCtx) (u : Xcvr) : StepFrame u (slotTick k u) := by
  have h : StepFrame u (andThen (.ok (txDone k u)) fun u => andThen (rxIdleCheck k u) fun u =>
      andThen (andThen (.ok (popBatch u)) (timeoutCheck k)) fun u => andThen (complete k u) (slotGoesOn k)) :=
    (txDone_frame k u).andThen fun u => (rxIdleCheck_frame k u).andThen fun u =>
      ((popBatch_frame u).andThen (timeoutCheck_frame k)).andThen fun u =>
        (complete_frame k u).andThen (slotGoesOn_frame k)
  simpa only [slotTick, andThen] using h

theorem slotTick_ok_frame {k : SlotCtx} {u v : Xcvr} (h : slotTick k u = .ok v) :
    TickFrame u.inst v.inst ∧ v.inst.queue.isSome = u.inst.queue.isSome ∧
      (v.inst.op = none ↔ u.inst.op = none) ∧ v.tx.seq = u.tx.seq := by
  have := slotTick_frame k u; rwa [h] at this

theorem slotTick_raise_frame {k : SlotCtx} {u v : Xcvr} {r : FaultReason} (h : slotTick k u = .raise r v) :
    TickFrame u.inst v.inst ∧ v.inst.queue.isSome = u.inst.queue.isSome ∧
      (v.inst.op = none ↔ u.inst.op = none) ∧ v.tx.seq = u.tx.seq := by
  have := slotTick_frame k u; rwa [h] at this

/-! ### A tick of a coherent slot -/

/-- The results a slot of this kind can have (R226, R230). -/
def resultFits : SlotKind → SlotResult → Prop
  | .resetSlot,   r => (∃ p, r = .presence p) ∨ r = .captureTimeout
  | .writeSlot _, r => r = .done
  | .readSlot,    r => (∃ b, r = .bit b) ∨ r = .captureTimeout

theorem resultFits_decode {k : SlotKind} (h : k.captures = true) (items : Seq) (P : Profile) :
    resultFits k (decodeSlot k items P) := by
  cases k with
  | resetSlot => exact .inl ⟨_, rfl⟩
  | readSlot => exact .inl ⟨_, rfl⟩
  | writeSlot b => cases h

theorem resultFits_timeout {k : SlotKind} (h : k.captures = true) : resultFits k .captureTimeout := by
  cases k with
  | resetSlot => exact .inr rfl
  | readSlot => exact .inr rfl
  | writeSlot b => cases h

theorem resultFits_done {k : SlotKind} (h : k.captures = false) : resultFits k .done := by
  cases k with
  | resetSlot => cases h
  | readSlot => cases h
  | writeSlot b => rfl

/-- A result of the slot's kind always holds the value the operation reads. -/
theorem afterSlot_fits {o : Op} {r : SlotResult} (h : resultFits (slotKindOf o) r) :
    afterSlot o r ≠ .noValue := by
  obtain ⟨cmd, slot, acc, el⟩ := o
  cases cmd <;> simp only [slotKindOf, resultFits] at h
  · rcases h with ⟨p, rfl⟩ | rfl <;> simp [afterSlot, afterReset]
  · subst h; simp [afterSlot, afterWriteBit]
  · rcases h with ⟨p, rfl⟩ | rfl <;> simp [afterSlot, afterReadBit]
  · subst h; simp only [afterSlot, afterWriteByte]; split <;> simp
  · rcases h with ⟨p, rfl⟩ | rfl
    · simp only [afterSlot, afterReadByte]; split <;> simp
    · simp [afterSlot, afterReadByte]

/-- The parts of validity that a tick needs (V1, R143). -/
theorem validProfile_gap {p : Params} {P : Profile} (h : validProfile p P = true) : 1 ≤ P.rxIdleGap := by
  simp only [validProfile, checkV1, Bool.and_eq_true, bne_iff_ne, ne_eq] at h
  omega

/-- What the tick context of a coherent slot is. -/
def ctxOf (p : Params) (P : Profile) (o : Op) (env : SlotEnv) (t : Nat) : SlotCtx :=
  ⟨p, P, slotKindOf o, env, txSeq (slotKindOf o) P, t⟩

/-- The sample of a coherent capture at a tick that does not end it (R214): an overflow, or a coherent capture one tick
later. -/
theorem rxSample_coherent {p : Params} {P : Profile} {k : SlotCtx} {x : Inst} {tx : TxEngine} {rx : RxEngine}
    (hG : 1 ≤ P.rxIdleGap) (hM : k.params = p) (hP : k.profile = P) (h : RxOk p P k.env k.t rx)
    (hg : idleGapReached k rx = false) :
    rxSample k ⟨x, tx, rx⟩ = .raise .captureOverflow ⟨x, tx, rx⟩ ∨
      ∃ rx', rxSample k ⟨x, tx, rx⟩ = .ok ⟨x, tx, rx'⟩ ∧ RxOk p P k.env (k.t + 1) rx' := by
  subst hM hP
  unfold rxSample
  simp only [h.armed, Bool.true_eq_false, if_false]
  by_cases ha : k.env.rxAlive = true
  · simp only [ha, Bool.true_eq_false, if_false]
    by_cases ht : k.t = 0
    · refine .inr ⟨_, if_pos ht, ⟨rfl, h.room, rfl, fun hf => absurd ha (by simp [hf]), by simp, ?_⟩⟩
      intro _ _
      exact ⟨_, _, rfl, rfl, by omega, by omega, fun _ => hG⟩
    · obtain ⟨l, n, hl, hn, h0, hle, hhigh⟩ := h.run ha (by omega)
      simp only [ht, if_false, hl, hn]
      by_cases hv : line k.env k.seq k.t = l
      · refine .inr ⟨_, if_pos hv, ⟨rfl, h.room, rfl, fun hf => absurd ha (by simp [hf]), by simp, ?_⟩⟩
        intro _ _
        refine ⟨l, n + 1, by simp, rfl, by omega, by omega, fun hh => ?_⟩
        have hn' := hhigh hh
        have : n ≠ k.profile.rxIdleGap := by
          intro he
          simp [idleGapReached, h.armed, ha, hl, hh, hn, he] at hg
          omega
        omega
      · simp only [hv, if_false]
        by_cases hfull : rx.items.length = k.params.rxMaxItems
        · exact .inl (if_pos hfull)
        · refine .inr ⟨_, if_neg hfull, ⟨rfl, ?_, rfl, fun hf => absurd ha (by simp [hf]), by simp, ?_⟩⟩
          · have := h.room
            simp only [List.length_append, List.length_cons, List.length_nil]
            omega
          · intro _ _
            exact ⟨_, 1, rfl, rfl, by omega, by omega, fun _ => hG⟩
  · have ha' : k.env.rxAlive = false := by simpa using ha
    refine .inr ⟨_, if_pos ha', ⟨rfl, h.room, rfl, fun _ => h.dead ha', by simp, fun hf => absurd hf ha⟩⟩

/-- What a tick leaves of a coherent slot in flight: a capture overflow; or a coherent slot one tick later; or a slot that
is over, its engines dormant, with a result of its kind. -/
inductive TickLeaves (p : Params) (P : Profile) (o : Op) : TickResult → Prop where
  | overflow (v : Xcvr) : TickLeaves p P o (.raise .captureOverflow v)
  | goesOn (v : Xcvr) (hs : v.inst.session ≠ .idle) (ho : v.inst.op = some (opTick o))
      (hok : SlotOk p P v.inst v.tx v.rx) : TickLeaves p P o (.ok v)
  | ended (v : Xcvr) (r : SlotResult) (hs : v.inst.session = .idle) (ho : v.inst.op = some o)
      (hr : v.inst.slotResult = some r) (hf : resultFits (slotKindOf o) r)
      (hok : SlotOk p P v.inst v.tx v.rx) : TickLeaves p P o (.ok v)

theorem slotKindOf_opTick (o : Op) : slotKindOf (opTick o) = slotKindOf o := by
  obtain ⟨cmd, slot, acc, el⟩ := o; cases cmd <;> rfl

theorem slotTick_coherent {p : Params} {P : Profile} {x : Inst} {tx : TxEngine} {rx : RxEngine}
    (hp : p.wf = true) (hP : validProfile p P = true) (hok : SlotOk p P x tx rx) (hs : x.session ≠ .idle) :
    ∃ o env t, x.op = some o ∧ x.env = some env ∧ x.sessT = some t ∧
      tx.seq = some (txSeq (slotKindOf o) P) ∧ TickLeaves p P o (slotTick (ctxOf p P o env t) ⟨x, tx, rx⟩) := by
  have hG := validProfile_gap hP
  have hd : 1 ≤ p.queueDepth := by
    simp only [Params.wf, Bool.and_eq_true, decide_eq_true_eq] at hp; omega
  obtain ⟨hq, hok⟩ := hok
  cases hsess : x.session with
  | idle => exact absurd hsess hs
  | triggered =>
    simp only [hsess] at hok
    obtain ⟨o, env, t, ho, he, ht, hk, htx, hle, ha⟩ := hok
    refine ⟨o, env, t, ho, he, ht, by rw [htx]; rfl, ?_⟩
    rw [slotTick_triggered (k := ctxOf p P o env t) hsess ha hk htx]
    split
    · exact .ended _ .done rfl ho rfl (resultFits_done hk) ⟨hq, by simp [ha]⟩
    · rename_i hne
      have hne : t ≠ dur (txSeq (slotKindOf o) P) := hne
      refine .goesOn _ (by simp [sessAdvance, hsess]) (by simp [sessAdvance, ho]) ⟨hq, ?_⟩
      simp only [sessAdvance, hsess]
      refine ⟨opTick o, env, t + 1, by simp [ho], he, rfl, ?_⟩
      rw [slotKindOf_opTick]
      exact ⟨hk, rfl, by omega, ha⟩
  | draining =>
    simp only [hsess] at hok
    obtain ⟨o, env, t, items, ho, he, ht, hk, htx, hle, hi, ha⟩ := hok
    refine ⟨o, env, t, ho, he, ht, by rw [htx]; rfl, ?_⟩
    rw [slotTick_draining (k := ctxOf p P o env t) hsess ha hi htx hle]
    split
    · exact .ended _ _ rfl ho rfl (resultFits_decode hk _ _) ⟨hq, by simp [ha]⟩
    · rename_i hne
      have hne : t ≠ dur (txSeq (slotKindOf o) P) := hne
      refine .goesOn _ (by simp [sessAdvance, hsess]) (by simp [sessAdvance, ho]) ⟨hq, ?_⟩
      simp only [sessAdvance, hsess]
      refine ⟨opTick o, env, t + 1, items, by simp [ho], he, rfl, ?_⟩
      rw [slotKindOf_opTick]
      exact ⟨hk, rfl, by omega, hi, ha⟩
  | capturing =>
    simp only [hsess] at hok
    obtain ⟨o, env, t, ho, he, ht, hk, htx, hD, hle, hrx⟩ := hok
    refine ⟨o, env, t, ho, he, ht, by rw [htx]; rfl, ?_⟩
    by_cases hg : idleGapReached (ctxOf p P o env t) rx = true
    · rw [slotTick_idleGap (k := ctxOf p P o env t) hsess hq hd hg htx]
      split
      · exact .ended _ _ rfl ho rfl (resultFits_decode hk _ _) ⟨by simp [batchTaken], by simp⟩
      · rename_i hlt
        have hlt : ¬ dur (txSeq (slotKindOf o) P) ≤ t := hlt
        refine .goesOn _ (by simp [sessAdvance, batchTaken]) (by simp [sessAdvance, batchTaken, ho]) ⟨rfl, ?_⟩
        simp only [sessAdvance, batchTaken]
        refine ⟨opTick o, env, t + 1, rx.items, by simp [ho], he, rfl, ?_⟩
        rw [slotKindOf_opTick]
        exact ⟨hk, rfl, by omega, rfl, trivial⟩
    · have hg : idleGapReached (ctxOf p P o env t) rx = false := by simpa using hg
      by_cases hdl : t = captureDeadline p P (txSeq (slotKindOf o) P)
      · have hlt : dur (txSeq (slotKindOf o) P) < t := by
          rw [hdl, captureDeadline]; omega
        rw [slotTick_timeout (k := ctxOf p P o env t) hsess hq (by rw [hD, ← hdl]; rfl) hg htx hlt]
        refine .ended _ _ rfl ho rfl ?_ ⟨hq, by simp⟩
        split
        · exact resultFits_timeout hk
        · exact resultFits_decode hk _ _
      · rw [slotTick_sample (k := ctxOf p P o env t) hsess hq hD hdl hg, txDone_txAt (k := ctxOf p P o env t) htx]
        rcases rxSample_coherent (x := x) (tx := ⟨_, _, _⟩) hG (k := ctxOf p P o env t) rfl rfl hrx hg with
          h | ⟨rx', h, hrx'⟩
        · rw [h]
          exact .overflow _
        · rw [h]
          simp only [andThen, txDrive_txAt]
          refine .goesOn _ (by simp [sessAdvance, hsess]) (by simp [sessAdvance, ho]) ⟨hq, ?_⟩
          simp only [sessAdvance, hsess]
          refine ⟨opTick o, env, t + 1, by simp [ho], he, rfl, ?_⟩
          rw [slotKindOf_opTick]
          exact ⟨hk, rfl, hD, by omega, hrx'⟩

end Sys2Proof.Machine
end

