-- ==== Sys2Proof/Laws/Step.lean ====
section
/-! SUPPORT. Everything a step can do, said once: `Effect` lists the ways a move changes the state, and the theorems after
it show that a command, a move and a step do nothing else. -/

namespace Sys2Proof.Machine

/-- The ways a move on instance `i` changes a state. -/
inductive Effect (s : State) (i : Nat) : State → Prop where
  | nothing : Effect s i s
  /-- A model fault (R326). -/
  | fault (r : FaultReason) : Effect s i (raiseFault s i r)
  /-- A response that writes no other state (R147, R295). -/
  | answer (st : Status) (hp : s.port.inst = i) : Effect s i (respondPort s st 0#8)
  /-- A bus command at the port (R250). -/
  | lock (x : Inst) (b : Binding) (cmd : BusCmd) (hp : s.port.inst = i) (hx : s.inst? i = some x)
      (hf : x.fault = none) (hb : x.binding = some b) :
      Effect s i (s.setInst i (acquireLock x s.port.caller cmd))
  /-- A BIND that succeeds (R290). -/
  | bind (x : Inst) (b : Binding) (hp : s.port.inst = i) (hx : s.inst? i = some x) (hf : x.fault = none)
      (hb : x.binding = none) (hv : validProfile s.params b.profile = true) (hfit : b.profile.fits = true)
      (hr : bindRefused s b.pin b.tx b.rx = false) :
      Effect s i (respondPort (bindInst s i x b) .ok 0#8)
  /-- An UNBIND that succeeds (R296). -/
  | unbind (x : Inst) (b : Binding) (hp : s.port.inst = i) (hx : s.inst? i = some x) (hf : x.fault = none)
      (hb : x.binding = some b) (hl : x.lock = .free) (hs : x.session = .idle) :
      Effect s i (respondPort (unbindInst s i x b) .ok 0#8)
  /-- A tick of a gap (R251). -/
  | gap (x : Inst) (hx : s.inst? i = some x) (hf : x.fault = none) (hs : x.session = .idle) :
      Effect s i (s.setInst i { x with op := x.op.map opTick })
  /-- A trigger (R210). -/
  | started (x : Inst) (b : Binding) (o : Op) (tx : TxEngine) (rx : RxEngine) (env : SlotEnv)
      (hx : s.inst? i = some x) (hf : x.fault = none) (hs : x.session = .idle) (ho : x.op = some o)
      (hb : x.binding = some b) (htx : s.tx? b.tx = some tx) (hrx : s.rx? b.rx = some rx) (hbusy : tx.busy = false) :
      Effect s i (scatter s i b (trigger s.params b.profile (slotKindOf o) env ⟨x, tx, rx⟩))
  /-- A tick after which the slot goes on (R237). -/
  | tick (x : Inst) (b : Binding) (o : Op) (tx : TxEngine) (rx : RxEngine) (k : SlotCtx) (v : Xcvr)
      (hx : s.inst? i = some x) (hf : x.fault = none) (hs : x.session ≠ .idle) (ho : x.op = some o)
      (hb : x.binding = some b) (htx : s.tx? b.tx = some tx) (hrx : s.rx? b.rx = some rx)
      (hk : slotCtx s x b tx = some k) (hv : slotTick k ⟨x, tx, rx⟩ = .ok v) (hvs : v.inst.session ≠ .idle) :
      Effect s i (scatter s i b v)
  /-- A tick that raises a model fault (R328). -/
  | raise (x : Inst) (b : Binding) (o : Op) (tx : TxEngine) (rx : RxEngine) (k : SlotCtx) (v : Xcvr)
      (r : FaultReason) (hx : s.inst? i = some x) (hf : x.fault = none) (hs : x.session ≠ .idle)
      (ho : x.op = some o) (hb : x.binding = some b) (htx : s.tx? b.tx = some tx) (hrx : s.rx? b.rx = some rx)
      (hk : slotCtx s x b tx = some k) (hv : slotTick k ⟨x, tx, rx⟩ = .raise r v) :
      Effect s i (raiseFault (scatter s i b v) i r)
  /-- A tick that ends a slot and leaves the operation no value to read (R48). -/
  | lost (x : Inst) (b : Binding) (o : Op) (tx : TxEngine) (rx : RxEngine) (k : SlotCtx) (v : Xcvr)
      (hx : s.inst? i = some x) (hf : x.fault = none) (hs : x.session ≠ .idle)
      (ho : x.op = some o) (hb : x.binding = some b) (htx : s.tx? b.tx = some tx) (hrx : s.rx? b.rx = some rx)
      (hk : slotCtx s x b tx = some k) (hv : slotTick k ⟨x, tx, rx⟩ = .ok v) (hvs : v.inst.session = .idle)
      (hn : ∀ o1 r c, v.inst.op = some o1 → v.inst.slotResult = some r → v.inst.lock = .held c →
        afterSlot o1 r = .noValue) :
      Effect s i (raiseFault (scatter s i b v) i .noValue)
  /-- A tick that ends a slot, the operation going on (R264, R267). -/
  | nextSlot (x : Inst) (b : Binding) (o : Op) (tx : TxEngine) (rx : RxEngine) (k : SlotCtx) (v : Xcvr)
      (o1 o' : Op) (r : SlotResult) (c : Nat) (hx : s.inst? i = some x) (hf : x.fault = none)
      (hs : x.session ≠ .idle) (ho : x.op = some o) (hb : x.binding = some b) (htx : s.tx? b.tx = some tx)
      (hrx : s.rx? b.rx = some rx) (hk : slotCtx s x b tx = some k) (hv : slotTick k ⟨x, tx, rx⟩ = .ok v)
      (hvs : v.inst.session = .idle) (hvo : v.inst.op = some o1) (hvr : v.inst.slotResult = some r)
      (hl : v.inst.lock = .held c) (ha : afterSlot o1 r = .nextSlot o') :
      Effect s i ((scatter s i b v).setInst i { v.inst with op := some o' })
  /-- A tick that ends the last slot: the lock is released and the holder gets its response (R253). -/
  | finish (x : Inst) (b : Binding) (o : Op) (tx : TxEngine) (rx : RxEngine) (k : SlotCtx) (v : Xcvr)
      (o1 : Op) (r : SlotResult) (c g : Nat) (st : Status) (d : Byte) (hx : s.inst? i = some x)
      (hf : x.fault = none) (hs : x.session ≠ .idle) (ho : x.op = some o) (hb : x.binding = some b)
      (htx : s.tx? b.tx = some tx) (hrx : s.rx? b.rx = some rx) (hk : slotCtx s x b tx = some k)
      (hv : slotTick k ⟨x, tx, rx⟩ = .ok v) (hvs : v.inst.session = .idle) (hvo : v.inst.op = some o1)
      (hvr : v.inst.slotResult = some r) (hl : v.inst.lock = .held c) (ha : afterSlot o1 r = .finished st d) :
      Effect s i (respond ((scatter s i b v).setInst i (releaseLock v.inst g)) i c st d o1.elapsed)

/-! ### Commands -/

theorem execValidate_effect {sel : ProfileSel} {s t : State} (h : execValidate sel s = .next t) :
    Effect s s.port.inst t := by
  obtain ⟨x, _, ⟨_, rfl⟩ | ⟨_, h⟩⟩ := onPort_next h
  · exact .nothing
  · split at h <;> cases h <;> exact .answer _ rfl

theorem busCommand_effect {cmd : BusCmd} {s t : State} (h : busCommand cmd s = .next t) :
    Effect s s.port.inst t := by
  obtain ⟨x, hx, ⟨_, rfl⟩ | ⟨hf, h⟩⟩ := onPort_next h
  · exact .nothing
  · split at h <;> cases h
    · exact .fault _
    · rename_i b hb; exact .lock x b cmd rfl hx hf hb

theorem execBind_effect {pin : Pin} {tx rx : Chan} {sel : ProfileSel} {s t : State} (hw : sel.wf = true)
    (h : execBind pin tx rx sel s = .next t) : Effect s s.port.inst t := by
  obtain ⟨x, hx, ⟨_, rfl⟩ | ⟨hf, h⟩⟩ := onPort_next h
  · exact .nothing
  · split at h
    · cases h; exact .fault _
    · rename_i hb
      split at h
      · cases h; exact .answer _ rfl
      · rename_i hv
        split at h <;> cases h
        · exact .answer _ rfl
        · rename_i hr
          refine .bind x _ rfl hx hf hb (by simpa using hv) ?_ (by simpa using hr)
          cases sel with
          | std => rfl
          | od => rfl
          | custom p => exact hw

theorem execUnbind_effect {s t : State} (h : execUnbind s = .next t) : Effect s s.port.inst t := by
  obtain ⟨x, hx, ⟨_, rfl⟩ | ⟨hf, h⟩⟩ := onPort_next h
  · exact .nothing
  · split at h
    · cases h; exact .fault _
    · rename_i b hb
      split at h <;> cases h
      · exact .fault _
      · rename_i hc
        rw [not_or, not_not, not_not] at hc
        exact .unbind x b rfl hx hf hb hc.1 hc.2

/-- Everything a command can do at the port. -/
theorem exec_effect {i : Instr} {s t : State} (hw : i.wf = true) (h : exec i s = .next t) :
    Effect s s.port.inst t := by
  cases i with
  | validate sel => exact execValidate_effect h
  | reset => exact busCommand_effect h
  | writeBit b => exact busCommand_effect h
  | readBit => exact busCommand_effect h
  | writeByte v => exact busCommand_effect h
  | readByte => exact busCommand_effect h
  | bind pin tx rx sel => exact execBind_effect hw h
  | unbind => exact execUnbind_effect h

theorem runDecoded_effect {d : Decoded} {s t : State} (hw : ∀ i, d = .ok i → i.wf = true)
    (h : runDecoded d s = .next t) : Effect s s.port.inst t := by
  unfold runDecoded at h
  split at h
  · exact exec_effect (hw _ rfl) h
  · obtain ⟨x, _, ⟨_, rfl⟩ | ⟨_, h⟩⟩ := onPort_next h
    · exact .nothing
    · cases h; exact .fault _
  · cases h; exact .nothing

/-- Issuing a command leaves the state, or accepts the command and then has its effect. -/
theorem issue_effect {s t : State} {i c : Nat} {ws : List Word} {a : Bool} (h : issue s i c ws a = .next t) :
    t = s ∨ (c ∉ s.blocked ∧ Effect (s.accept i c a) i t) := by
  unfold issue at h
  split at h
  · cases h; exact .inl rfl
  · rename_i hc
    rw [not_or] at hc
    exact .inr ⟨hc.1, runDecoded_effect (fun i hi => decode_wf hi) h⟩

/-! ### The moves of an instance -/

theorem gapInst_effect {s t : State} {i : Nat} (h : gapInst s i = .next t) : Effect s i t := by
  unfold gapInst at h
  split at h
  · cases h; exact .nothing
  · rename_i x hx
    split at h <;> cases h
    · exact .nothing
    · rename_i hc
      rw [not_or, Option.not_isSome_iff_eq_none, not_not] at hc
      exact .gap x hx hc.1 hc.2

theorem triggerInst_effect {s t : State} {i : Nat} {env : SlotEnv} (h : triggerInst s i env = .next t) :
    Effect s i t := by
  unfold triggerInst at h
  split at h
  · cases h; exact .nothing
  · rename_i x hx
    split at h
    · cases h; exact .nothing
    · rename_i hc
      rw [not_or, Option.not_isSome_iff_eq_none, not_not] at hc
      split at h
      · cases h; exact .nothing
      · rename_i o ho
        split at h
        · cases h; exact .fault _
        · rename_i b hb
          split at h
          · cases h; exact .fault _
          · rename_i u hu
            obtain ⟨hui, htx, hrx⟩ := gather_eq.1 hu
            split at h <;> cases h
            · exact .nothing
            · rename_i hbusy
              obtain ⟨y, tx, rx⟩ := u
              simp only at hui htx hrx hbusy
              subst hui
              exact .started y b o tx rx env hx hc.1 hc.2 ho hb htx hrx (by simpa using hbusy)

theorem slotCtx_some {s : State} {x : Inst} {b : Binding} {tx : TxEngine} {k : SlotCtx}
    (h : slotCtx s x b tx = some k) :
    ∃ o env seq t, x.op = some o ∧ x.env = some env ∧ tx.seq = some seq ∧ x.sessT = some t ∧
      k = ⟨s.params, b.profile, slotKindOf o, env, seq, t⟩ := by
  unfold slotCtx at h
  split at h
  · rename_i o env seq t ho he hq ht
    cases h
    exact ⟨o, env, seq, t, ho, he, hq, ht, rfl⟩
  · cases h

theorem tickInst_effect {s t : State} {i g : Nat} (h : tickInst s i g = .next t) : Effect s i t := by
  unfold tickInst at h
  split at h
  · cases h; exact .nothing
  · rename_i x hx
    split at h
    · cases h; exact .nothing
    · rename_i hc
      rw [not_or, Option.not_isSome_iff_eq_none] at hc
      split at h
      · cases h; exact .fault _
      · rename_i b hb
        split at h
        · cases h; exact .fault _
        · rename_i u hu
          obtain ⟨hui, htx, hrx⟩ := gather_eq.1 hu
          obtain ⟨y, tx, rx⟩ := u
          simp only at hui htx hrx
          subst hui
          split at h
          · cases h; exact .fault _
          · rename_i k hk
            obtain ⟨o, env, seq, t0, ho, -⟩ := slotCtx_some hk
            unfold afterTick at h
            split at h
            · rename_i r v hv
              cases h
              exact .raise y b o tx rx k v r hx hc.1 hc.2 ho hb htx hrx hk hv
            · rename_i v hv
              split at h
              · rename_i hvs
                unfold slotDone at h
                rw [inst_scatter, if_pos rfl, hx] at h
                simp only [Option.map_some] at h
                split at h
                · rename_i o1 r c hvo hvr hl
                  split at h
                  · rename_i o' ha
                    cases h
                    exact .nextSlot y b o tx rx k v o1 o' r c hx hc.1 hc.2 ho hb htx hrx hk hv hvs hvo hvr hl ha
                  · rename_i st d ha
                    cases h
                    exact .finish y b o tx rx k v o1 r c g st d hx hc.1 hc.2 ho hb htx hrx hk hv hvs hvo hvr hl ha
                  · rename_i ha
                    cases h
                    refine .lost y b o tx rx k v hx hc.1 hc.2 ho hb htx hrx hk hv hvs fun o2 r2 c2 h1 h2 h3 => ?_
                    rw [hvo] at h1; rw [hvr] at h2
                    cases h1; cases h2; exact ha
                · rename_i hno
                  cases h
                  exact .lost y b o tx rx k v hx hc.1 hc.2 ho hb htx hrx hk hv hvs
                    fun o2 r2 c2 h1 h2 h3 => absurd h3 (hno o2 r2 c2 h1 h2)
              · rename_i hvs
                cases h
                exact .tick y b o tx rx k v hx hc.1 hc.2 ho hb htx hrx hk hv hvs

/-- Everything a move can do: nothing, an effect on the instance it addresses, or, for a command, accepting it and then
an effect. -/
theorem runEvent_effect {e : Event} {s t : State} (h : runEvent e s = .next t) :
    Effect s (eventTarget e) t ∨
      ∃ c a, c ∉ s.blocked ∧ Effect (s.accept (eventTarget e) c a) (eventTarget e) t := by
  cases e with
  | issue i c ws a =>
    rcases issue_effect h with rfl | ⟨hc, h⟩
    · exact .inl .nothing
    · exact .inr ⟨c, a, hc, h⟩
  | gapTick i => exact .inl (gapInst_effect h)
  | trigger i env => exact .inl (triggerInst_effect h)
  | tick i g => exact .inl (tickInst_effect h)

/-- Everything a step can do. -/
theorem step_effect {s t : State} (h : step s = .next t) :
    Effect (popEvent s) (eventTarget (nextEvent s)) t ∨
      ∃ c a, c ∉ s.blocked ∧
        Effect ((popEvent s).accept (eventTarget (nextEvent s)) c a) (eventTarget (nextEvent s)) t := by
  have := runEvent_effect h
  simpa using this

end Sys2Proof.Machine
end

