-- ==== Sys2Proof/Laws/Coherence.lean ====
section
/-! SUPPORT. What keeps a state coherent: one lemma per way a step writes the state. -/

namespace Sys2Proof.Machine

/-- A change to one instance and its own engines keeps a state coherent, if that instance stays coherent. -/
theorem State.Coherent.update {s t : State} {i : Nat} {x y : Inst} (h : s.Coherent) (hx : s.inst? i = some x)
    (hp : t.params = s.params) (hco : t.chanOwner = s.chanOwner) (hpo : t.pinOwner = s.pinOwner)
    (hcount : t.insts.length = s.insts.length) (hnd : t.blocked.Nodup)
    (htl : t.txe.length = s.txe.length) (hrl : t.rxe.length = s.rxe.length)
    (hi : ∀ j, t.inst? j = if i = j then some y else s.inst? j)
    (hb : y.binding = x.binding) (hlock : LockOk y)
    (htx : ∀ k, (∀ b, x.binding = some b → b.tx ≠ k) → t.tx? k = s.tx? k)
    (hrx : ∀ k, (∀ b, x.binding = some b → b.rx ≠ k) → t.rx? k = s.rx? k)
    (hslot : ∀ b tx rx, y.fault = none → y.binding = some b → t.tx? b.tx = some tx → t.rx? b.rx = some rx →
      SlotOk s.params b.profile y tx rx) : t.Coherent := by
  have hbound : ∀ j z b, t.inst? j = some z → z.binding = some b →
      ∃ z', s.inst? j = some z' ∧ z'.binding = some b := by
    intro j z b hz hzb
    rw [hi] at hz
    split at hz
    · rename_i hij; subst hij; cases hz
      exact ⟨x, hx, by rw [← hb, hzb]⟩
    · exact ⟨z, hz, hzb⟩
  have hback : ∀ j z b, s.inst? j = some z → z.binding = some b →
      ∃ z', t.inst? j = some z' ∧ z'.binding = some b := by
    intro j z b hz hzb
    rw [hi]
    split
    · rename_i hij; subst hij
      rw [hx] at hz; cases hz
      exact ⟨y, rfl, by rw [hb, hzb]⟩
    · exact ⟨z, hz, hzb⟩
  refine ⟨by rw [hp]; exact h.params, by rw [hcount]; exact h.count, hnd, ?_, ?_, ?_⟩
  · refine ⟨by rw [hco]; exact h.owners.chanForm, by rw [hpo]; exact h.owners.pinForm,
      by rw [htl, hp]; exact h.owners.txCount, by rw [hrl, hp]; exact h.owners.rxCount, ?_, ?_, ?_⟩
    · intro j z b hz hzb
      obtain ⟨z', hz', hzb'⟩ := hbound j z b hz hzb
      obtain ⟨a1, a2, a3, a4, a5, a6, a7, a8, a9⟩ := h.owners.bound j z' b hz' hzb'
      exact ⟨by rw [hp]; exact a1, by rw [hp]; exact a2, a3, by rw [hp]; exact a4, by rw [hco]; exact a5,
        by rw [hco]; exact a6, by rw [hpo]; exact a7, by rw [hp]; exact a8, a9⟩
    · intro c j hc
      rw [hco] at hc
      obtain ⟨z, b, hz, hzb, hcb⟩ := h.owners.chans c j hc
      obtain ⟨z', hz', hzb'⟩ := hback j z b hz hzb
      exact ⟨z', b, hz', hzb', hcb⟩
    · intro c j hc
      rw [hpo] at hc
      obtain ⟨z, b, hz, hzb, hcb⟩ := h.owners.pins c j hc
      obtain ⟨z', hz', hzb'⟩ := hback j z b hz hzb
      exact ⟨z', b, hz', hzb', hcb⟩
  · intro j z hz
    rw [hi] at hz
    split at hz
    · cases hz; exact hlock
    · exact h.locks j z hz
  · intro j z b tx rx hz hf hzb hztx hzrx
    rw [hp]
    rw [hi] at hz
    split at hz
    · cases hz; exact hslot b tx rx hf hzb hztx hzrx
    · rename_i hij
      have hown := h.owners.bound j z b hz hzb
      have h1 : t.tx? b.tx = s.tx? b.tx := by
        apply htx
        intro b' hb' he
        have := (h.owners.bound i x b' hx hb').txOwned
        rw [he, hown.txOwned] at this
        exact hij (by simpa using this.symm)
      have h2 : t.rx? b.rx = s.rx? b.rx := by
        apply hrx
        intro b' hb' he
        have := (h.owners.bound i x b' hx hb').rxOwned
        rw [he, hown.rxOwned] at this
        exact hij (by simpa using this.symm)
      exact h.slots j z b tx rx hz hf hzb (h1 ▸ hztx) (h2 ▸ hzrx)

/-- Coherence does not depend on the port, the responses, the script or the draws. -/
theorem State.Coherent.congr {s t : State} (h : s.Coherent) (h1 : t.params = s.params) (h2 : t.insts = s.insts)
    (h3 : t.chanOwner = s.chanOwner) (h4 : t.pinOwner = s.pinOwner) (h5 : t.txe = s.txe) (h6 : t.rxe = s.rxe)
    (h7 : t.blocked.Nodup) : t.Coherent := by
  obtain ⟨sp, si, sc, spo, stx, srx, a, bl, c, d, e⟩ := s
  obtain ⟨tp, ti, tc, tpo, ttx, trx, a', bl', c', d', e'⟩ := t
  simp only at h1 h2 h3 h4 h5 h6
  subst h1 h2 h3 h4 h5 h6
  obtain ⟨q1, q2, q3, ⟨r1,r2,r3,r4,r5,r6,r7⟩, q5, q6⟩ := h
  exact ⟨q1, q2, h7, ⟨r1,r2,r3,r4,fun i x b hx hb => by
    obtain ⟨p1,p2,p3,p4,p5,p6,p7,p8,p9⟩ := r5 i x b hx hb
    exact ⟨p1,p2,p3,p4,p5,p6,p7,p8,p9⟩ ,r6,r7⟩, q5, q6⟩

/-- The lock stays in order when the operation in flight is only advanced. -/
theorem LockOk.setOp {x : Inst} (h : LockOk x) {y : Inst} (h1 : y.lock = x.lock) (h2 : y.waiters = x.waiters)
   (h3 : y.binding = x.binding) (h4 : y.queue.isSome = x.queue.isSome) (h5 : y.op = none ↔ x.op = none)
   (h6 : y.session ≠ .idle → x.op ≠ none) (h7 : y.binding = none → y.session = .idle) : LockOk y := by
  refine ⟨by rw [h5, h1]; exact h.opHeld, by rw [h1, h2]; exact h.waiters, fun hs => ?_, fun hb => ⟨?_, h7 hb⟩, by rw [h4, h3]; exact h.queue⟩
  · rw [Ne, h5]; exact h6 hs
  · rw [h1]; exact (h.unbound (h3 ▸ hb)).1

/-- Raising a model fault keeps a state coherent (R326). -/
theorem State.Coherent.raise {s : State} (h : s.Coherent) (i : Nat) (r : FaultReason) : (raiseFault s i r).Coherent := by
  cases hx : s.inst? i with
  | none => unfold raiseFault; rw [hx]; exact h
  | some x =>
    refine State.Coherent.update (i := i) (x := x) (y := { x with fault := x.fault <|> some r }) h hx (by simp) (by simp) (by simp) (by simp)
      (by simpa using h.callers) (by simp) (by simp) ?_ rfl ?_ (by simp) (by simp) ?_
    · intro j
      rw [inst_raiseFault]
      split
      · rename_i hij; subst hij; simp [hx]
      · rfl
    · have := h.locks i x hx
      exact ⟨this.opHeld, this.waiters, this.flight, this.unbound, this.queue⟩
    · intro b tx rx hf hb htx hrx
      cases hxf : x.fault with
      | none => simp [hxf] at hf
      | some q => simp [hxf] at hf

/-- What a tick leaves of a slot in a coherent state. -/
theorem tickFacts {s : State} (h : s.Coherent) {i : Nat} {x : Inst} {b : Binding} {o : Op} {tx rx k}
    (hx : s.inst? i = some x) (hf : x.fault = none) (hs : x.session ≠ .idle) (ho : x.op = some o)
    (hb : x.binding = some b) (htx : s.tx? b.tx = some tx) (hrx : s.rx? b.rx = some rx)
    (hk : slotCtx s x b tx = some k) :
    TickLeaves s.params b.profile o (slotTick k ⟨x, tx, rx⟩) := by
  have hP := (h.owners.bound i x b hx hb).profile
  obtain ⟨o', env, t, ho', he, ht, hseq, hl⟩ := slotTick_coherent h.params hP (h.slots i x b tx rx hx hf hb htx hrx) hs
  obtain ⟨o2, env2, seq2, t2, ho2, he2, hseq2, ht2, rfl⟩ := slotCtx_some hk
  rw [ho] at ho' ho2; cases ho'; cases ho2
  rw [he] at he2; cases he2
  rw [hseq] at hseq2; cases hseq2
  rw [ht] at ht2; cases ht2
  exact hl

/-- The tick that ends a slot in a coherent state leaves the operation, a result of its kind and the holder of the lock. -/
theorem endedFacts {s : State} (h : s.Coherent) {i : Nat} {x : Inst} {b : Binding} {o : Op} {tx rx k} {v : Xcvr}
    (hx : s.inst? i = some x) (hf : x.fault = none) (hs : x.session ≠ .idle) (ho : x.op = some o)
    (hb : x.binding = some b) (htx : s.tx? b.tx = some tx) (hrx : s.rx? b.rx = some rx)
    (hk : slotCtx s x b tx = some k) (hv : slotTick k ⟨x, tx, rx⟩ = .ok v) (hvs : v.inst.session = .idle) :
    ∃ r c, v.inst.op = some o ∧ v.inst.slotResult = some r ∧ v.inst.lock = .held c ∧ afterSlot o r ≠ .noValue := by
  have htl := tickFacts h hx hf hs ho hb htx hrx hk
  obtain ⟨hfr, -, -, -⟩ := slotTick_ok_frame hv
  rw [hv] at htl
  cases htl with
  | goesOn _ hs' => exact absurd hvs hs'
  | ended _ r hs' ho' hr' hf' =>
    cases hlk : x.lock with
    | free => rw [(h.locks i x hx).opHeld.2 hlk] at ho; cases ho
    | held c => exact ⟨r, c, ho', hr', by rw [hfr.lock]; exact hlk, afterSlot_fits hf'⟩

/-- Writing an instance and its engines back keeps a state coherent, if the slot stays coherent. -/
theorem State.Coherent.scatterUpdate {s : State} (h : s.Coherent) {i : Nat} {x : Inst} {b : Binding} {tx rx}
    (hx : s.inst? i = some x) (hb : x.binding = some b) (htx : s.tx? b.tx = some tx) (hrx : s.rx? b.rx = some rx)
    {v : Xcvr} {y : Inst} (hy : y.binding = x.binding) (hl : LockOk y)
    (hok : y.fault = none → SlotOk s.params b.profile y v.tx v.rx) :
    ((scatter s i b v).setInst i y).Coherent := by
  refine State.Coherent.update (x := x) (y := y) h hx rfl rfl rfl (by simp) h.callers (by simp) (by simp) ?_ hy hl ?_ ?_ ?_
  · intro j; rw [inst_setInst, inst_scatter]; split
    · rename_i hij; subst hij; simp [hx]
    · rfl
  · intro k hk; simp only [setInst_tx_read]; rw [tx_scatter, if_neg (hk b hb)]
  · intro k hk; simp only [setInst_rx_read]; rw [rx_scatter, if_neg (hk b hb)]
  · intro b' tx' rx' hf' hb' htx' hrx'
    rw [hy, hb] at hb'; cases hb'
    simp only [setInst_tx_read] at htx'; simp only [setInst_rx_read] at hrx'
    rw [tx_scatter, if_pos rfl, htx] at htx'
    rw [rx_scatter, if_pos rfl, hrx] at hrx'
    cases htx'; cases hrx'
    exact hok hf'

/-- `scatter` has already written the instance. -/
theorem scatter_setInst_self (s : State) (i : Nat) (b : Binding) (v : Xcvr) :
    (scatter s i b v).setInst i v.inst = scatter s i b v := by
  simp [scatter, State.setInst, State.setTx, State.setRx]

/-- A tick keeps the lock in order. -/
theorem LockOk.tick {x y : Inst} {b : Binding} (hl : LockOk x) (hs : x.session ≠ .idle) (hb : x.binding = some b) (hfr : TickFrame x y) (hq : y.queue.isSome = x.queue.isSome)
    (ho : y.op = none ↔ x.op = none) : LockOk y := by
  refine hl.setOp hfr.lock hfr.waiters hfr.binding hq ho (fun _ => hl.flight hs) ?_
  intro hn; rw [hfr.binding, hb] at hn; cases hn

/-- No cause of `INIT_ERROR` holds (R292 to R294). -/
theorem bindRefused_false {s : State} {pin : Pin} {tx rx : Chan} (h : bindRefused s pin tx rx = false) :
    tx.toNat < s.params.nch ∧ rx.toNat < s.params.nch ∧ tx ≠ rx ∧ ownerOf s.chanOwner tx.toNat = none ∧
    ownerOf s.chanOwner rx.toNat = none ∧ pin ∈ s.params.validPins ∧ ownerOf s.pinOwner pin.toNat = none ∧
    s.port.allocOk = true := by
  simpa [bindRefused, and_assoc] using h

/-- The instances after a successful BIND. -/
theorem inst_bindInst (s : State) (i j : Nat) (x : Inst) (b : Binding) :
    (bindInst s i x b).inst? j = if i = j then (s.inst? j).map fun _ => boundInst x b else s.inst? j := by
  simp [bindInst, inst_setInst]

/-- The instances after a successful UNBIND. -/
theorem inst_unbindInst (s : State) (i j : Nat) (x : Inst) (b : Binding) :
    (unbindInst s i x b).inst? j = if i = j then (s.inst? j).map fun _ => unboundInst x else s.inst? j := by
  simp [unbindInst, inst_setInst]

/-- A successful BIND keeps a state coherent (R290). -/
theorem State.Coherent.bind {s : State} (h : s.Coherent) {i : Nat} {x : Inst} {b : Binding} (hx : s.inst? i = some x)
    (hb : x.binding = none) (hv : validProfile s.params b.profile = true) (hfit : b.profile.fits = true)
    (hr : bindRefused s b.pin b.tx b.rx = false) : (bindInst s i x b).Coherent := by
  obtain ⟨a1, a2, a3, a4, a5, a6, a7, a8⟩ := bindRefused_false hr
  have a3' : b.tx.toNat ≠ b.rx.toNat := fun e => a3 (chan_toNat_inj e)
  have hl := h.locks i x hx
  have hinst : ∀ j, (bindInst s i x b).inst? j = if i = j then some (boundInst x b) else s.inst? j := by
    intro j; rw [inst_bindInst]; split
    · rename_i e; subst e; simp [hx]
    · rfl
  have hco : ∀ c, ownerOf (bindInst s i x b).chanOwner c = if b.rx.toNat = c ∨ b.tx.toNat = c then some i else ownerOf s.chanOwner c := by
    intro c; simp only [bindInst, quietRx_chanOwner, quietTx_chanOwner, setInst_chanOwner, claimAll_chanOwner, ownerOf_claim]
    by_cases e1 : b.rx.toNat = c <;> by_cases e2 : b.tx.toNat = c <;> simp [e1, e2]
  have hpo : ∀ c, ownerOf (bindInst s i x b).pinOwner c = if b.pin.toNat = c then some i else ownerOf s.pinOwner c := by
    intro c; simp only [bindInst, quietRx_pinOwner, quietTx_pinOwner, setInst_pinOwner, claimAll_pinOwner, ownerOf_claim]
  have hne : ∀ j z b', s.inst? j = some z → z.binding = some b' → j ≠ i := by
    rintro j z b' hz hzb rfl; rw [hx] at hz; cases hz; rw [hb] at hzb; cases hzb
  refine ⟨by simpa [bindInst] using h.params, by simpa [bindInst] using h.count, by simpa [bindInst] using h.callers, ⟨?_, ?_, ?_, ?_, ?_, ?_, ?_⟩, ?_, ?_⟩
  · simpa [bindInst] using wf_claim (wf_claim h.owners.chanForm _ _) _ _
  · simpa [bindInst] using wf_claim h.owners.pinForm _ _
  · simpa [bindInst] using h.owners.txCount
  · simpa [bindInst] using h.owners.rxCount
  · intro j z b' hz hzb
    rw [hinst] at hz
    split at hz
    · rename_i e; subst e; cases hz
      simp only [boundInst] at hzb; cases hzb
      refine ⟨by simpa [bindInst] using a1, by simpa [bindInst] using a2, a3, by simpa [bindInst] using a6, ?_, ?_, ?_, by simpa [bindInst] using hv, hfit⟩
      · rw [hco]; simp
      · rw [hco]; simp
      · rw [hpo]; simp
    · have ho := h.owners.bound j z b' hz hzb
      refine ⟨by simpa [bindInst] using ho.txExists, by simpa [bindInst] using ho.rxExists, ho.distinct, by simpa [bindInst] using ho.pinValid, ?_, ?_, ?_, by simpa [bindInst] using ho.profile, ho.fits⟩
      · rw [hco, if_neg]; exact ho.txOwned
        rintro (e | e)
        · rw [e] at a5; simp [ho.txOwned] at a5
        · rw [e] at a4; simp [ho.txOwned] at a4
      · rw [hco, if_neg]; exact ho.rxOwned
        rintro (e | e)
        · rw [e] at a5; simp [ho.rxOwned] at a5
        · rw [e] at a4; simp [ho.rxOwned] at a4
      · rw [hpo, if_neg]; exact ho.pinOwned
        intro e; rw [e] at a7; simp [ho.pinOwned] at a7
  · intro c j hc
    rw [hco] at hc
    split at hc
    · rename_i e; cases hc
      exact ⟨_, b, by rw [hinst, if_pos rfl], rfl, by rcases e with e | e <;> simp [e]⟩
    · obtain ⟨z, b', hz, hzb, hcb⟩ := h.owners.chans c j hc
      exact ⟨z, b', by rw [hinst, if_neg (Ne.symm (hne j z b' hz hzb))]; exact hz, hzb, hcb⟩
  · intro c j hc
    rw [hpo] at hc
    split at hc
    · rename_i e; cases hc
      exact ⟨_, b, by rw [hinst, if_pos rfl], rfl, e.symm⟩
    · obtain ⟨z, b', hz, hzb, hcb⟩ := h.owners.pins c j hc
      exact ⟨z, b', by rw [hinst, if_neg (Ne.symm (hne j z b' hz hzb))]; exact hz, hzb, hcb⟩
  · intro j z hz
    rw [hinst] at hz
    split at hz
    · cases hz
      have hfree := (hl.unbound hb).1
      exact ⟨by simp [boundInst, hfree], hl.waiters, by simp [boundInst], by simp [boundInst], rfl⟩
    · exact h.locks j z hz
  · intro j z b' tx rx hz hf hzb htx hrx
    have htx' : (bindInst s i x b).tx? b'.tx = if b.tx = b'.tx then (s.tx? b'.tx).map fun e => { e with busy := false } else s.tx? b'.tx := by
      simp [bindInst, tx_quietTx]
    have hrx' : (bindInst s i x b).rx? b'.rx = if b.rx = b'.rx then (s.rx? b'.rx).map fun e => { e with armed := false, items := [] } else s.rx? b'.rx := by
      simp [bindInst, rx_quietRx]
    rw [htx'] at htx; rw [hrx'] at hrx
    rw [hinst] at hz
    have hp : (bindInst s i x b).params = s.params := by simp [bindInst]
    rw [hp]
    split at hz
    · cases hz
      simp only [boundInst] at hzb; cases hzb
      rw [if_pos rfl] at htx hrx
      obtain ⟨e1, -, rfl⟩ := Option.map_eq_some_iff.1 htx
      obtain ⟨e2, -, rfl⟩ := Option.map_eq_some_iff.1 hrx
      exact ⟨rfl, rfl, rfl⟩
    · have ho := h.owners.bound j z b' hz hzb
      rw [if_neg] at htx hrx
      · exact h.slots j z b' tx rx hz hf hzb htx hrx
      · intro e; rw [e] at a5; simp [ho.rxOwned] at a5
      · intro e; rw [e] at a4; simp [ho.txOwned] at a4

/-- A successful UNBIND keeps a state coherent (R296). -/
theorem State.Coherent.unbind {s : State} (h : s.Coherent) {i : Nat} {x : Inst} {b : Binding} (hx : s.inst? i = some x)
    (hb : x.binding = some b) (hlk : x.lock = .free) : (unbindInst s i x b).Coherent := by
  have hl := h.locks i x hx
  have hown := h.owners.bound i x b hx hb
  have hinst : ∀ j, (unbindInst s i x b).inst? j = if i = j then some (unboundInst x) else s.inst? j := by
    intro j; rw [inst_unbindInst]; split
    · rename_i e; subst e; simp [hx]
    · rfl
  have hco : ∀ c, ownerOf (unbindInst s i x b).chanOwner c = if b.rx.toNat = c ∨ b.tx.toNat = c then none else ownerOf s.chanOwner c := by
    intro c; simp only [unbindInst, quietRx_chanOwner, quietTx_chanOwner, setInst_chanOwner, releaseAll_chanOwner, ownerOf_release]
    by_cases e1 : b.rx.toNat = c <;> by_cases e2 : b.tx.toNat = c <;> simp [e1, e2]
  have hpo : ∀ c, ownerOf (unbindInst s i x b).pinOwner c = if b.pin.toNat = c then none else ownerOf s.pinOwner c := by
    intro c; simp only [unbindInst, quietRx_pinOwner, quietTx_pinOwner, setInst_pinOwner, releaseAll_pinOwner, ownerOf_release]
  refine ⟨by simpa [unbindInst] using h.params, by simpa [unbindInst] using h.count, by simpa [unbindInst] using h.callers, ⟨?_, ?_, ?_, ?_, ?_, ?_, ?_⟩, ?_, ?_⟩
  · simpa [unbindInst] using wf_release (wf_release h.owners.chanForm _) _
  · simpa [unbindInst] using wf_release h.owners.pinForm _
  · simpa [unbindInst] using h.owners.txCount
  · simpa [unbindInst] using h.owners.rxCount
  · intro j z b' hz hzb
    rw [hinst] at hz
    split at hz
    · rename_i e; subst e; cases hz
      simp only [unboundInst] at hzb; cases hzb
    · rename_i hij
      have ho := h.owners.bound j z b' hz hzb
      refine ⟨by simpa [unbindInst] using ho.txExists, by simpa [unbindInst] using ho.rxExists, ho.distinct, by simpa [unbindInst] using ho.pinValid, ?_, ?_, ?_, by simpa [unbindInst] using ho.profile, ho.fits⟩
      · rw [hco, if_neg]; exact ho.txOwned
        rintro (e | e)
        · have := hown.rxOwned; rw [e, ho.txOwned] at this; exact hij (by simpa using this.symm)
        · have := hown.txOwned; rw [e, ho.txOwned] at this; exact hij (by simpa using this.symm)
      · rw [hco, if_neg]; exact ho.rxOwned
        rintro (e | e)
        · have := hown.rxOwned; rw [e, ho.rxOwned] at this; exact hij (by simpa using this.symm)
        · have := hown.txOwned; rw [e, ho.rxOwned] at this; exact hij (by simpa using this.symm)
      · rw [hpo, if_neg]; exact ho.pinOwned
        intro e; have := hown.pinOwned; rw [e, ho.pinOwned] at this; exact hij (by simpa using this.symm)
  · intro c j hc
    rw [hco] at hc
    split at hc
    · cases hc
    · rename_i hn
      obtain ⟨z, b', hz, hzb, hcb⟩ := h.owners.chans c j hc
      refine ⟨z, b', ?_, hzb, hcb⟩
      rw [hinst, if_neg]; exact hz
      rintro rfl
      rw [hx] at hz; cases hz; rw [hb] at hzb; cases hzb
      exact hn (by rcases hcb with e | e <;> simp [e])
  · intro c j hc
    rw [hpo] at hc
    split at hc
    · cases hc
    · rename_i hn
      obtain ⟨z, b', hz, hzb, hcb⟩ := h.owners.pins c j hc
      refine ⟨z, b', ?_, hzb, hcb⟩
      rw [hinst, if_neg]; exact hz
      rintro rfl
      rw [hx] at hz; cases hz; rw [hb] at hzb; cases hzb
      exact hn hcb.symm
  · intro j z hz
    rw [hinst] at hz
    split at hz
    · cases hz
      exact ⟨by simp [unboundInst, hlk], hl.waiters, by simp [unboundInst], by simp [unboundInst, hlk], rfl⟩
    · exact h.locks j z hz
  · intro j z b' tx rx hz hf hzb htx hrx
    have htx' : (unbindInst s i x b).tx? b'.tx = if b.tx = b'.tx then (s.tx? b'.tx).map fun e => { e with busy := false } else s.tx? b'.tx := by
      simp [unbindInst, tx_quietTx]
    have hrx' : (unbindInst s i x b).rx? b'.rx = if b.rx = b'.rx then (s.rx? b'.rx).map fun e => { e with armed := false, items := [] } else s.rx? b'.rx := by
      simp [unbindInst, rx_quietRx]
    rw [htx'] at htx; rw [hrx'] at hrx
    rw [hinst] at hz
    have hp : (unbindInst s i x b).params = s.params := by simp [unbindInst]
    rw [hp]
    split at hz
    · cases hz
      simp only [unboundInst] at hzb; cases hzb
    · rename_i hij
      have ho := h.owners.bound j z b' hz hzb
      rw [if_neg] at htx hrx
      · exact h.slots j z b' tx rx hz hf hzb htx hrx
      · intro e; have := hown.rxOwned; rw [e, ho.rxOwned] at this; exact hij (by simpa using this.symm)
      · intro e; have := hown.txOwned; rw [e, ho.txOwned] at this; exact hij (by simpa using this.symm)

/-- No effect makes a coherent state incoherent. -/
theorem Effect.coherent {s t : State} {i : Nat} (h : s.Coherent) (e : Effect s i t) : t.Coherent := by
  cases e with
  | nothing => exact h
  | fault r => exact h.raise i r
  | answer st hp => exact h.congr rfl rfl rfl rfl rfl rfl (h.callers.erase _)
  | lock x b cmd hp hx hf hb =>
    have hl := h.locks i x hx
    refine State.Coherent.update (x := x) (y := acquireLock x s.port.caller cmd) h hx rfl rfl rfl (by simp) h.callers rfl rfl ?_ ?_ ?_ (by simp) (by simp) ?_
    · intro j; rw [inst_setInst]; split
      · rename_i hij; subst hij; simp [hx]
      · rfl
    · rw [acquireLock_frame]
    · cases hlk : x.lock with
      | free =>
        rw [acquireLock_free hlk]
        exact ⟨by simp, by simp, by simp, by simp [hb], hl.queue⟩
      | held c =>
        rw [acquireLock_held hlk]
        refine ⟨?_, by simp [hlk], hl.flight, by simp [hb], hl.queue⟩
        have := hl.opHeld; simpa [hlk] using this
    · intro b' tx rx hf' hb' htx hrx
      have hs := h.slots i x b' tx rx hx hf (by rw [acquireLock_frame] at hb'; exact hb') htx hrx
      have hb2 : x.binding = some b' := by rw [acquireLock_frame] at hb'; exact hb'
      cases hlk : x.lock with
      | free =>
        have hop := hl.opHeld.2 hlk
        have hidle : x.session = .idle := by
          by_contra hne; exact hl.flight hne hop
        rw [acquireLock_free hlk]
        obtain ⟨q1, q2⟩ := hs
        refine ⟨q1, ?_⟩
        simp only [hidle] at q2 ⊢
        exact q2
      | held c =>
        rw [acquireLock_held hlk]
        exact hs
  | bind x b hp hx hf hb hv hfit hr => 
    have := h.bind hx hb hv hfit hr
    exact this.congr rfl rfl rfl rfl rfl rfl (this.callers.erase _)
  | unbind x b hp hx hf hb hl hs => 
    have := h.unbind hx hb hl
    exact this.congr rfl rfl rfl rfl rfl rfl (this.callers.erase _)
  | gap x hx hf hs =>
    have hl := h.locks i x hx
    refine State.Coherent.update (x := x) (y := { x with op := x.op.map opTick }) h hx rfl rfl rfl (by simp) h.callers rfl rfl ?_ rfl ?_ (by simp) (by simp) ?_
    · intro j; rw [inst_setInst]; split
      · rename_i hij; subst hij; simp [hx]
      · rfl
    · exact hl.setOp rfl rfl rfl rfl (by simp) (by simp [hs]) (fun _ => hs)
    · intro b tx rx hf' hb' htx hrx
      obtain ⟨q1, q2⟩ := h.slots i x b tx rx hx hf hb' htx hrx
      refine ⟨q1, ?_⟩
      simp only [hs] at q2 ⊢
      exact q2
  | started x b o tx rx env hx hf hs ho hb htx hrx hbusy =>
    have hl := h.locks i x hx
    obtain ⟨e1, e2, e3, e4, e5, e6⟩ := trigger_frame s.params b.profile (slotKindOf o) env ⟨x, tx, rx⟩
    rw [← scatter_setInst_self]
    refine h.scatterUpdate hx hb htx hrx e1 ?_ fun _ => trigger_coherent (h.slots i x b tx rx hx hf hb htx hrx) hs ho
    refine hl.setOp e2 e3 e1 e6 (by rw [e4]) (fun _ => by simp [ho]) ?_
    intro hn; rw [e1] at hn; simp [hb] at hn
  | tick x b o tx rx k v hx hf hs ho hb htx hrx hk hv hvs =>
    have hl := tickFacts h hx hf hs ho hb htx hrx hk
    obtain ⟨hfr, hq, hop, hseq⟩ := slotTick_ok_frame hv
    rw [hv] at hl
    rw [← scatter_setInst_self]
    refine h.scatterUpdate hx hb htx hrx hfr.binding ((h.locks i x hx).tick hs hb hfr hq hop) fun _ => ?_
    cases hl with
    | goesOn _ _ _ hok => exact hok
    | ended _ _ hs' => exact absurd hs' hvs
  | raise x b o tx rx k v r hx hf hs ho hb htx hrx hk hv =>
    obtain ⟨hfr, hq, hop, hseq⟩ := slotTick_raise_frame hv
    have e : raiseFault (scatter s i b v) i r = (scatter s i b v).setInst i { v.inst with fault := some r } := by
      unfold raiseFault
      have : v.inst.fault = none := by rw [hfr.fault]; exact hf
      simp [inst_scatter, hx, this]
    rw [e]
    refine h.scatterUpdate hx hb htx hrx hfr.binding ?_ (fun hn => by simp at hn)
    have := (h.locks i x hx).tick hs hb hfr hq hop
    exact ⟨this.opHeld, this.waiters, this.flight, this.unbound, this.queue⟩
  | lost x b o tx rx k v hx hf hs ho hb htx hrx hk hv hvs hn =>
    obtain ⟨r, c, h1, h2, h3, h4⟩ := endedFacts h hx hf hs ho hb htx hrx hk hv hvs
    exact absurd (hn o r c h1 h2 h3) h4
  | nextSlot x b o tx rx k v o1 o' r c hx hf hs ho hb htx hrx hk hv hvs hvo hvr hl ha =>
    have htl := tickFacts h hx hf hs ho hb htx hrx hk
    obtain ⟨hfr, hq, hop, hseq⟩ := slotTick_ok_frame hv
    rw [hv] at htl
    have hlk := (h.locks i x hx).tick hs hb hfr hq hop
    refine h.scatterUpdate hx hb htx hrx hfr.binding ?_ fun _ => ?_
    · refine ⟨by simp [hl], hlk.waiters, by simp, ?_, hlk.queue⟩
      intro hn; simp only [hfr.binding, hb] at hn; cases hn
    · cases htl with
      | goesOn _ hs' => exact absurd hvs hs'
      | ended _ r' hs' ho' hr' hf' hok =>
        obtain ⟨q1, q2⟩ := hok
        refine ⟨q1, ?_⟩
        simp only [hvs] at q2 ⊢
        exact q2
  | finish x b o tx rx k v o1 r c g st d hx hf hs ho hb htx hrx hk hv hvs hvo hvr hl ha =>
    have htl := tickFacts h hx hf hs ho hb htx hrx hk
    obtain ⟨hfr, hq, hop, hseq⟩ := slotTick_ok_frame hv
    rw [hv] at htl
    have hlk := (h.locks i x hx).tick hs hb hfr hq hop
    have hr := releaseLock_frame v.inst g
    have hco : ((scatter s i b v).setInst i (releaseLock v.inst g)).Coherent := by
      refine h.scatterUpdate hx hb htx hrx (by rw [hr]; exact hfr.binding) ?_ fun _ => ?_
      · rcases releaseLock_cases v.inst g with ⟨hw, e⟩ | ⟨w, ws, hw, e⟩ <;> rw [e]
        · exact ⟨by simp, fun _ => hw, by simp [hvs], fun _ => ⟨rfl, hvs⟩, hlk.queue⟩
        · refine ⟨by simp, by simp, by simp [hvs], ?_, hlk.queue⟩
          intro hn; simp only [hfr.binding, hb] at hn; cases hn
      · cases htl with
        | goesOn _ hs' => exact absurd hvs hs'
        | ended _ r' hs' ho' hr' hf' hok =>
          obtain ⟨q1, q2⟩ := hok
          rw [hr]
          refine ⟨q1, ?_⟩
          simp only [hvs] at q2 ⊢
          exact q2
    exact hco.congr rfl rfl rfl rfl rfl rfl (hco.callers.erase _)

/-! ### The moves of a coherent instance -/

/-- A tick of a slot in flight of a coherent state reads no register without a value (R48): it is the tick of its instance
and engines (R237), with what that leaves. -/
theorem State.Coherent.tickInst_eq {s : State} (h : s.Coherent) {i : Nat} {x : Inst} (hx : s.inst? i = some x)
    (hf : x.fault = none) (hs : x.session ≠ .idle) (g : Nat) :
    ∃ b o env t tx rx, x.binding = some b ∧ x.op = some o ∧ x.env = some env ∧ x.sessT = some t ∧
      s.tx? b.tx = some tx ∧ s.rx? b.rx = some rx ∧ SlotOk s.params b.profile x tx rx ∧
      tickInst s i g = afterTick s i b g (slotTick (ctxOf s.params b.profile o env t) ⟨x, tx, rx⟩) ∧
      TickLeaves s.params b.profile o (slotTick (ctxOf s.params b.profile o env t) ⟨x, tx, rx⟩) := by
  cases hb : x.binding with
  | none => exact absurd ((h.locks i x hx).unbound hb).2 hs
  | some b =>
    have hown := h.owners.bound i x b hx hb
    obtain ⟨tx, htx⟩ : ∃ tx, s.tx? b.tx = some tx :=
      ⟨_, List.getElem?_eq_getElem (by rw [h.owners.txCount]; exact hown.txExists)⟩
    obtain ⟨rx, hrx⟩ : ∃ rx, s.rx? b.rx = some rx :=
      ⟨_, List.getElem?_eq_getElem (by rw [h.owners.rxCount]; exact hown.rxExists)⟩
    have hok := h.slots i x b tx rx hx hf hb htx hrx
    obtain ⟨o, env, t, ho, he, ht, hq, hl⟩ := slotTick_coherent h.params hown.profile hok hs
    refine ⟨b, o, env, t, _, _, rfl, ho, he, ht, htx, hrx, hok, ?_, hl⟩
    have hg : gather s x b = some ⟨x, tx, rx⟩ := gather_eq.2 ⟨rfl, htx, hrx⟩
    have hk : slotCtx s x b tx = some (ctxOf s.params b.profile o env t) := by
      unfold slotCtx; rw [ho, he, hq, ht]; rfl
    simp only [tickInst, hx, hf, hs, hb, hg, hk, Option.isSome_none, Bool.false_eq_true, or_self, if_false]

/-- A trigger of an operation in flight of a coherent state reads no register without a value (R48): it starts the slot
(R210). -/
theorem State.Coherent.triggerInst_eq {s : State} (h : s.Coherent) {i : Nat} {x : Inst} (hx : s.inst? i = some x)
    (hf : x.fault = none) (hs : x.session = .idle) {o : Op} (ho : x.op = some o) (env : SlotEnv) :
    ∃ b tx rx, x.binding = some b ∧ s.tx? b.tx = some tx ∧ s.rx? b.rx = some rx ∧
      SlotOk s.params b.profile x tx rx ∧
      triggerInst s i env = .next (scatter s i b (trigger s.params b.profile (slotKindOf o) env ⟨x, tx, rx⟩)) := by
  cases hb : x.binding with
  | none =>
    have hl := h.locks i x hx
    rw [hl.opHeld.2 (hl.unbound hb).1] at ho; cases ho
  | some b =>
    have hown := h.owners.bound i x b hx hb
    obtain ⟨tx, htx⟩ : ∃ tx, s.tx? b.tx = some tx :=
      ⟨_, List.getElem?_eq_getElem (by rw [h.owners.txCount]; exact hown.txExists)⟩
    obtain ⟨rx, hrx⟩ : ∃ rx, s.rx? b.rx = some rx :=
      ⟨_, List.getElem?_eq_getElem (by rw [h.owners.rxCount]; exact hown.rxExists)⟩
    have hok := h.slots i x b tx rx hx hf hb htx hrx
    have hbusy := hok.2
    simp only [hs] at hbusy
    have hg : gather s x b = some ⟨x, tx, rx⟩ := gather_eq.2 ⟨rfl, htx, hrx⟩
    refine ⟨b, _, _, rfl, htx, hrx, hok, ?_⟩
    simp [triggerInst, hx, hf, hs, ho, hb, hg, hbusy.1]

/-- No move makes a coherent state incoherent. -/
theorem runEvent_coherent {e : Event} {s t : State} (h : s.Coherent) (hs : runEvent e s = .next t) : t.Coherent := by
  rcases runEvent_effect hs with he | ⟨c, a, hc, he⟩
  · exact he.coherent h
  · have ha : (s.accept (eventTarget e) c a).Coherent := by
      refine h.congr rfl rfl rfl rfl rfl rfl ?_
      simp only [accept_blocked, List.nodup_cons]
      exact ⟨hc, h.callers⟩
    exact he.coherent ha

theorem runEvents_coherent {es : List Event} {s t : State} (h : s.Coherent) (hs : runEvents es s = .next t) :
    t.Coherent := by
  induction es generalizing s with
  | nil => cases hs; exact h
  | cons e es ih =>
    rw [runEvents] at hs
    split at hs
    · rename_i u hu; exact ih (runEvent_coherent h hu) hs
    · cases hs
    · cases hs

end Sys2Proof.Machine
end

