-- ==== Sys2Proof/Laws/Runs.lean ====
section
/-! SUPPORT. The runs of a waveform (R219) and what the closed form of a capture makes of them. -/

namespace Sys2Proof.Machine

theorem dur_append (a b : Seq) : dur (a ++ b) = dur a + dur b := by
  induction a with
  | nil => simp [dur]
  | cons x xs ih => simp only [List.cons_append, dur, ih]; omega

/-- `addTick` acts on the last run alone. -/
theorem addTick_append (init : Seq) (x : Item) (v : Level) :
    addTick (init ++ [x]) v =
      if x.level = v then init ++ [⟨v, x.dur + 1⟩] else init ++ [x, ⟨v, 1⟩] := by
  induction init with
  | nil => simp [addTick]
  | cons y ys ih =>
    cases ys with
    | nil => simp only [List.cons_append, List.nil_append, addTick] at ih ⊢; split <;> rfl
    | cons z zs =>
      simp only [List.cons_append] at ih ⊢
      simp only [addTick, ih]
      split <;> rfl

/-- The runs over at least one tick end in one that is still open, at the level of the last tick. -/
theorem runsOf_succ (obs : Nat → Level) (n : Nat) :
    ∃ init d, runsOf obs (n + 1) = init ++ [⟨obs n, d⟩] ∧ 0 < d ∧ dur init + d = n + 1 := by
  induction n with
  | zero => exact ⟨[], 1, rfl, by omega, rfl⟩
  | succ n ih =>
    obtain ⟨init, d, h, h0, hd⟩ := ih
    have e : runsOf obs (n + 1 + 1) = addTick (runsOf obs (n + 1)) (obs (n + 1)) := rfl
    rw [e, h, addTick_append]
    split
    · exact ⟨init, d + 1, rfl, by omega, by omega⟩
    · refine ⟨init ++ [⟨obs n, d⟩], 1, by simp, by omega, ?_⟩
      rw [dur_append]; simp only [dur]; omega

/-- The runs up to a later tick keep the completed ones, and the open one no shorter. -/
theorem runsOf_prefix (obs : Nat → Level) {init : Seq} {l : Level} {d T : Nat}
    (h : runsOf obs T = init ++ [⟨l, d⟩]) {n : Nat} (hn : T ≤ n) :
    ∃ d' rest, d ≤ d' ∧ runsOf obs n = init ++ ⟨l, d'⟩ :: rest := by
  induction n, hn using Nat.le_induction with
  | base => exact ⟨d, [], le_rfl, h⟩
  | succ n hn ih =>
    obtain ⟨d', rest, hd, e⟩ := ih
    simp only [runsOf, e]
    rcases List.eq_nil_or_concat rest with rfl | ⟨r, y, rfl⟩
    · rw [addTick_append]
      split
      · rename_i hl
        simp only at hl; subst hl
        exact ⟨d' + 1, [], by omega, rfl⟩
      · exact ⟨d', [⟨obs n, 1⟩], hd, rfl⟩
    · have e2 : init ++ ⟨l, d'⟩ :: r.concat y = (init ++ ⟨l, d'⟩ :: r) ++ [y] := by simp
      rw [e2, addTick_append]
      split
      · exact ⟨d', r ++ [⟨obs n, y.dur + 1⟩], hd, by simp⟩
      · exact ⟨d', r ++ [y, ⟨obs n, 1⟩], hd, by simp⟩

/-- A stretch at the level of the open run lengthens it. -/
theorem runsOf_same (obs : Nat → Level) {init : Seq} {l : Level} {d T : Nat} (h : runsOf obs T = init ++ [⟨l, d⟩])
    (n : Nat) (hv : ∀ t, T ≤ t → t < T + n → obs t = l) : runsOf obs (T + n) = init ++ [⟨l, d + n⟩] := by
  induction n with
  | zero => exact h
  | succ n ih =>
    have e := ih fun t h1 h2 => hv t h1 (by omega)
    have e2 : runsOf obs (T + (n + 1)) = addTick (runsOf obs (T + n)) (obs (T + n)) := rfl
    rw [e2, e, hv (T + n) (by omega) (by omega), addTick_append, if_pos rfl, Nat.add_assoc]

/-- A stretch at another level completes the open run and opens one as long as the stretch. -/
theorem runsOf_other (obs : Nat → Level) {init : Seq} {l v : Level} {d T n : Nat}
    (h : runsOf obs T = init ++ [⟨l, d⟩]) (hl : l ≠ v) (hn : 0 < n)
    (hv : ∀ t, T ≤ t → t < T + n → obs t = v) : runsOf obs (T + n) = (init ++ [⟨l, d⟩]) ++ [⟨v, n⟩] := by
  have h1 : runsOf obs (T + 1) = (init ++ [⟨l, d⟩]) ++ [⟨v, 1⟩] := by
    simp only [runsOf, h, hv T le_rfl (by omega), addTick_append, if_neg hl]; simp
  have h2 := runsOf_same obs h1 (n - 1) fun t h1 h2 => hv t (by omega) (by omega)
  have e1 : T + 1 + (n - 1) = T + n := by omega
  have e2 : 1 + (n - 1) = n := by omega
  rwa [e1, e2] at h2

/-- A waveform that starts with a stretch at one level starts with that run. -/
theorem runsOf_start (obs : Nat → Level) {v : Level} {n : Nat} (hn : 0 < n) (hv : ∀ t, t < n → obs t = v) :
    runsOf obs n = [⟨v, n⟩] := by
  have h1 : runsOf obs 1 = [] ++ [⟨v, 1⟩] := by simp [runsOf, addTick, hv 0 hn]
  have h2 := runsOf_same obs h1 (n - 1) fun t h1 h2 => hv t (by omega)
  have e1 : 1 + (n - 1) = n := by omega
  rwa [e1] at h2

/-- No run of the list is a high one that reaches the idle gap. -/
def NoGap (G : Nat) (rs : Seq) : Prop := ∀ x ∈ rs, ¬(x.level = .high ∧ G ≤ x.dur)

theorem idleTick_none {G : Nat} {rs : Seq} (h : NoGap G rs) (s : Nat) : idleTick G s rs = none := by
  induction rs generalizing s with
  | nil => rfl
  | cons x xs ih =>
    rw [idleTick, if_neg (h x (by simp))]
    exact ih (fun y hy => h y (by simp [hy])) _

theorem idleTick_first {G d' : Nat} {init rest : Seq} (h : NoGap G init) (hd : G ≤ d') (s : Nat) :
    idleTick G s (init ++ ⟨.high, d'⟩ :: rest) = some (s + dur init + G) := by
  induction init generalizing s with
  | nil => simp [idleTick, hd, dur]
  | cons x xs ih =>
    rw [List.cons_append, idleTick, if_neg (h x (by simp)), ih (fun y hy => h y (by simp [hy]))]
    simp only [dur, Option.some.injEq]; omega

theorem completedBefore_late {T s : Nat} {rs : Seq} (h : T ≤ s) : completedBefore T s rs = [] := by
  induction rs generalizing s with
  | nil => rfl
  | cons x xs ih => rw [completedBefore, if_neg (by omega), ih (by omega)]

/-- Before the tick at which a run is still open, exactly the runs before it are completed. -/
theorem completedBefore_append {T s d' : Nat} {l : Level} {init rest : Seq} (h1 : s + dur init < T)
    (h2 : T ≤ s + dur init + d') : completedBefore T s (init ++ ⟨l, d'⟩ :: rest) = init := by
  induction init generalizing s with
  | nil =>
    simp only [dur] at h1 h2
    rw [List.nil_append, completedBefore]
    simp only
    rw [if_neg (by omega), completedBefore_late (by omega)]
  | cons x xs ih =>
    simp only [dur] at h1 h2
    rw [List.cons_append, completedBefore, if_pos (by omega), ih (by omega) (by omega)]

/-- The closed form of a capture whose idle gap is reached at tick `T`, by the deadline (R215, R219). -/
theorem capture_gap {obs : Nat → Level} {G D M T : Nat} {init : Seq} (hG : 1 ≤ G) (hT : T ≤ D)
    (hr : runsOf obs T = init ++ [⟨.high, G⟩]) (hd : dur init + G = T) (hn : NoGap G init) :
    capture obs G D true M = if M < init.length then .overflow else .batch init T := by
  obtain ⟨d', rest, hle, e⟩ := runsOf_prefix obs hr hT
  unfold capture
  rw [if_neg (by simp), e, idleTick_first hn hle]
  simp only [Nat.zero_add, hd]
  rw [completedBefore_append (by omega) (by omega)]

/-- The closed form of a capture whose idle gap is not reached by the deadline (R219, R224). -/
theorem capture_late {obs : Nat → Level} {G D M d : Nat} {l : Level} {init : Seq}
    (hr : runsOf obs D = init ++ [⟨l, d⟩]) (h0 : 0 < d) (hd : dur init + d = D)
    (hn : NoGap G (init ++ [⟨l, d⟩])) :
    capture obs G D true M = if M < init.length then .overflow else .timeout init D := by
  unfold capture
  rw [if_neg (by simp), hr, idleTick_none hn]
  simp only
  rw [completedBefore_append (by omega) (by omega)]

theorem idleTick_append {G s : Nat} {init r : Seq} (h : NoGap G init) :
    idleTick G s (init ++ r) = idleTick G (s + dur init) r := by
  induction init generalizing s with
  | nil => simp [dur]
  | cons x xs ih =>
    rw [List.cons_append, idleTick, if_neg (h x (by simp)), ih (fun y hy => h y (by simp [hy]))]
    simp only [dur, Nat.add_assoc]

theorem idleTick_ge {G s T : Nat} {r : Seq} (h : idleTick G s r = some T) : s + G ≤ T := by
  induction r generalizing s with
  | nil => cases h
  | cons x xs ih =>
    rw [idleTick] at h
    split at h
    · cases h; exact le_rfl
    · have := ih h; omega

theorem completedBefore_length {T s : Nat} {init r : Seq} (h : s + dur init < T) :
    init.length ≤ (completedBefore T s (init ++ r)).length := by
  induction init generalizing s with
  | nil => simp
  | cons x xs ih =>
    simp only [dur] at h
    rw [List.cons_append, completedBefore, if_pos (by omega)]
    simpa using ih (s := s + x.dur) (by omega)

/-- The closed form of a capture with more completed runs than the engine holds, none of which reaches the idle gap
(R218, R219). -/
theorem capture_overflow {obs : Nat → Level} {G D M T d : Nat} {l : Level} {init : Seq} (hG : 1 ≤ G) (hT : T ≤ D)
    (hr : runsOf obs T = init ++ [⟨l, d⟩]) (h0 : 0 < d) (hd : dur init + d = T) (hn : NoGap G init)
    (hM : M < init.length) : capture obs G D true M = .overflow := by
  obtain ⟨d', rest, hle, e⟩ := runsOf_prefix obs hr hT
  unfold capture
  rw [if_neg (by simp), e]
  split
  · rename_i T' hT'
    rw [idleTick_append hn] at hT'
    have := idleTick_ge hT'
    exact if_pos (Nat.lt_of_lt_of_le hM (completedBefore_length (by omega)))
  · exact if_pos (Nat.lt_of_lt_of_le hM (completedBefore_length (by omega)))

/-- A slot that captures, by the outcome of its capture (R238). -/
theorem runSlot_capture {p : Params} {k : SlotKind} {P : Profile} {env : SlotEnv} (hk : k.captures = true) :
    runSlot p k P env =
      match capture (line env (txSeq k P)) P.rxIdleGap (captureDeadline p P (txSeq k P)) env.rxAlive p.rxMaxItems with
      | .overflow        => .overflow
      | .batch items T   => .finished (decodeSlot k items P) (max (dur (txSeq k P)) T)
      | .timeout [] D    => .finished .captureTimeout D
      | .timeout items D => .finished (decodeSlot k items P) D := by
  rw [runSlot, if_neg (by simp [hk])]; rfl

/-- A slot that does not capture ends with its sequence (R238). -/
theorem runSlot_write {p : Params} {k : SlotKind} {P : Profile} {env : SlotEnv} (hk : k.captures = false) :
    runSlot p k P env = .finished .done (dur (txSeq k P)) := if_pos hk

/-- The closed form of a capture by a dead engine (R213, R219). -/
theorem capture_dead (obs : Nat → Level) (G D M : Nat) : capture obs G D false M = .timeout [] D := rfl

end Sys2Proof.Machine
end

