-- ==== Sys2Proof/Laws/Slot.lean ====
section
/-! SUPPORT. A slot from its trigger to its completion: the ticks of a capture follow the runs of the line, and a slot in
flight on an instance is a slot of that instance and its two engines alone. -/

namespace Sys2Proof.Machine

/-! ### Runs of moves -/

theorem runEvents_append (a b : List Event) (s : State) :
    runEvents (a ++ b) s = match runEvents a s with
      | .next t    => runEvents b t
      | .fault r   => .fault r
      | .refused r => .refused r := by
  induction a generalizing s with
  | nil => rfl
  | cons e es ih =>
    rw [List.cons_append, runEvents, runEvents]
    cases h : runEvent e s with
    | next t => exact ih t
    | fault r => rfl
    | refused r => rfl

theorem runEvents_append_next {a b : List Event} {s t : State} (h : runEvents a s = .next t) :
    runEvents (a ++ b) s = runEvents b t := by
  rw [runEvents_append, h]

theorem runEvents_cons_next {e : Event} {es : List Event} {s t : State} (h : runEvent e s = .next t) :
    runEvents (e :: es) s = runEvents es t := by
  rw [runEvents, h]

/-! ### One instance with its engines -/

/-- Instance `i` of `s` exists and so do the two engines of `b`. -/
structure Wired (s : State) (i : Nat) (b : Binding) : Prop where
  inst : ∃ x, s.inst? i = some x
  tx   : ∃ e, s.tx? b.tx = some e
  rx   : ∃ e, s.rx? b.rx = some e

theorem State.Coherent.wired {s : State} (h : s.Coherent) {i : Nat} {x : Inst} {b : Binding}
    (hx : s.inst? i = some x) (hb : x.binding = some b) : Wired s i b := by
  have ho := h.owners.bound i x b hx hb
  have h1 : b.tx.toNat < s.txe.length := by rw [h.owners.txCount]; exact ho.txExists
  have h2 : b.rx.toNat < s.rxe.length := by rw [h.owners.rxCount]; exact ho.rxExists
  exact ⟨⟨x, hx⟩, ⟨_, List.getElem?_eq_getElem h1⟩, ⟨_, List.getElem?_eq_getElem h2⟩⟩

section wired
variable {s : State} {i : Nat} {b : Binding}

theorem Wired.inst_scatter_self (h : Wired s i b) (u : Xcvr) : (scatter s i b u).inst? i = some u.inst := by
  obtain ⟨x, hx⟩ := h.inst; rw [inst_scatter, if_pos rfl, hx]; rfl

theorem Wired.tx_scatter_self (h : Wired s i b) (u : Xcvr) : (scatter s i b u).tx? b.tx = some u.tx := by
  obtain ⟨x, hx⟩ := h.tx; rw [tx_scatter, if_pos rfl, hx]; rfl

theorem Wired.rx_scatter_self (h : Wired s i b) (u : Xcvr) : (scatter s i b u).rx? b.rx = some u.rx := by
  obtain ⟨x, hx⟩ := h.rx; rw [rx_scatter, if_pos rfl, hx]; rfl

theorem Wired.gather_scatter (h : Wired s i b) (u : Xcvr) : gather (scatter s i b u) u.inst b = some u :=
  gather_eq.2 ⟨rfl, h.tx_scatter_self u, h.rx_scatter_self u⟩

theorem scatter_scatter (s : State) (i : Nat) (b : Binding) (u v : Xcvr) :
    scatter (scatter s i b u) i b v = scatter s i b v := by
  simp [scatter, State.setInst, State.setTx, State.setRx]

/-- The slot of an instance is in flight at tick `t`: what a tick reads. -/
structure InFlight (b : Binding) (o : Op) (env : SlotEnv) (t : Nat) (u : Xcvr) : Prop where
  live    : u.inst.fault = none
  session : u.inst.session ≠ .idle
  binding : u.inst.binding = some b
  op      : u.inst.op = some o
  env     : u.inst.env = some env
  sessT   : u.inst.sessT = some t
  tx      : u.tx = txAt (txSeq (slotKindOf o) b.profile) t

/-- A tick of a slot in flight is the tick of its instance and engines (R237). -/
theorem Wired.tick (h : Wired s i b) {o : Op} {env : SlotEnv} {t : Nat} {u : Xcvr} (g : Nat)
    (hu : InFlight b o env t u) :
    runEvent (.tick i g) (scatter s i b u) =
      afterTick (scatter s i b u) i b g (slotTick (ctxOf s.params b.profile o env t) u) := by
  have hc : slotCtx (scatter s i b u) u.inst b u.tx = some (ctxOf s.params b.profile o env t) := by
    simp [slotCtx, hu.op, hu.env, hu.sessT, hu.tx, txAt, ctxOf]
  simp only [runEvent, tickInst, h.inst_scatter_self, hu.live, hu.session, hu.binding, h.gather_scatter, hc]
  simp

theorem Wired.tick_goesOn (h : Wired s i b) {o : Op} {env : SlotEnv} {t : Nat} {u v : Xcvr} (g : Nat)
    (hu : InFlight b o env t u) (hv : slotTick (ctxOf s.params b.profile o env t) u = .ok v)
    (hs : v.inst.session ≠ .idle) :
    runEvent (.tick i g) (scatter s i b u) = .next (scatter s i b v) := by
  rw [h.tick g hu, hv]; simp only [afterTick, if_neg hs, scatter_scatter]

theorem Wired.tick_ends (h : Wired s i b) {o : Op} {env : SlotEnv} {t : Nat} {u v : Xcvr} (g : Nat)
    (hu : InFlight b o env t u) (hv : slotTick (ctxOf s.params b.profile o env t) u = .ok v)
    (hs : v.inst.session = .idle) :
    runEvent (.tick i g) (scatter s i b u) = slotDone (scatter s i b v) i g := by
  rw [h.tick g hu, hv]; simp only [afterTick, if_pos hs, scatter_scatter]

end wired

/-! ### A capture, tick by tick -/

/-- The operation `n` ticks later. -/
def opAfter (o : Op) (n : Nat) : Op := { o with elapsed := o.elapsed + n }

theorem slotKindOf_opAfter (o : Op) (n : Nat) : slotKindOf (opAfter o n) = slotKindOf o := by
  obtain ⟨cmd, slot, acc, el⟩ := o; cases cmd <;> rfl

theorem opTick_opAfter (o : Op) (n : Nat) : opTick (opAfter o n) = opAfter o (n + 1) := by
  simp [opTick, opAfter, Nat.add_assoc]

/-- The capture engine before tick `t` of a capture that nothing has ended (R214): its completed items and its current run
are the runs of the line over the ticks before `t`, none of them an idle gap but the current one at most. -/
structure Recorded (obs : Nat → Level) (G M : Nat) (alive : Bool) (t : Nat) (rx : RxEngine) : Prop where
  armed : rx.armed = true
  dead  : alive = false → rx.items = []
  start : t = 0 → rx.items = []
  runs  : alive = true → 0 < t → ∃ l d, rx.lvl = some l ∧ rx.len = some d ∧
    runsOf obs t = rx.items ++ [⟨l, d⟩] ∧ 0 < d ∧ dur rx.items + d = t ∧ NoGap G rx.items ∧
    (l = .high → d ≤ G) ∧ rx.items.length ≤ M

/-- The instance `t` ticks after the trigger that left it as `x0`, the timer and the operation apart unchanged. -/
abbrev tickedAt (x0 : Inst) (o : Op) (t : Nat) : Inst := { x0 with sessT := some t, op := some (opAfter o t) }

/-- A capture slot of instance `x0` (as the trigger left it) at tick `t`. -/
structure CapturingAt (p : Params) (P : Profile) (o : Op) (env : SlotEnv) (x0 : Inst) (t : Nat) (u : Xcvr) : Prop where
  inst : u.inst = tickedAt x0 o t
  tx   : u.tx = txAt (txSeq (slotKindOf o) P) t
  rx   : Recorded (line env (txSeq (slotKindOf o) P)) P.rxIdleGap p.rxMaxItems env.rxAlive t u.rx

/-- The sample at a tick that neither the idle gap nor the deadline ends (R214, R218): one more tick of the runs, or the
overflow of the closed form. -/
theorem rxSample_recorded {p : Params} {P : Profile} {k : SlotCtx} {rx : RxEngine} {D : Nat}
    (hG : 1 ≤ P.rxIdleGap) (hM : k.params = p) (hP : k.profile = P)
    (h : Recorded (line k.env k.seq) P.rxIdleGap p.rxMaxItems k.env.rxAlive k.t rx)
    (hg : idleGapReached k rx = false) (hD : k.t < D) :
    ((∀ x tx, rxSample k ⟨x, tx, rx⟩ = .raise .captureOverflow ⟨x, tx, rx⟩) ∧
      capture (line k.env k.seq) P.rxIdleGap D k.env.rxAlive p.rxMaxItems = .overflow) ∨
    ∃ rx', (∀ x tx, rxSample k ⟨x, tx, rx⟩ = .ok ⟨x, tx, rx'⟩) ∧
      Recorded (line k.env k.seq) P.rxIdleGap p.rxMaxItems k.env.rxAlive (k.t + 1) rx' := by
  subst hM hP
  simp only [rxSample, h.armed, Bool.true_eq_false, if_false]
  by_cases ha : k.env.rxAlive = true
  · simp only [ha, Bool.true_eq_false, if_false]
    by_cases ht : k.t = 0
    · refine .inr ⟨_, fun _ _ => if_pos ht, ⟨rfl, fun hf => by simp at hf, by simp, ?_⟩⟩
      intro _ _
      refine ⟨_, _, rfl, rfl, ?_, by omega, ?_, ?_, fun _ => hG, ?_⟩
      · simp [ht, runsOf, addTick, h.start ht]
      · simp [h.start ht, dur, ht]
      · simp [h.start ht, NoGap]
      · simp [h.start ht]
    · obtain ⟨l, d, hl, hd, hr, h0, hdur, hn, hh, hlen⟩ := h.runs ha (by omega)
      simp only [ht, if_false, hl, hd]
      by_cases hv : line k.env k.seq k.t = l
      · refine .inr ⟨_, fun _ _ => if_pos hv, ⟨rfl, fun hf => by simp at hf, by simp, ?_⟩⟩
        intro _ _
        refine ⟨l, d + 1, by simp, rfl, ?_, by omega, ?_, hn, fun e => ?_, hlen⟩
        · simp only [runsOf, hr, addTick_append, hv, if_true]
        · simp only; omega
        · have hn' := hh e
          have : d ≠ k.profile.rxIdleGap := by
            intro he
            simp [idleGapReached, h.armed, ha, hl, e, hd, he] at hg
            omega
          omega
      · simp only [hv, if_false]
        have hv' : ¬ l = line k.env k.seq k.t := fun e => hv e.symm
        have hruns : runsOf (line k.env k.seq) (k.t + 1) = (rx.items ++ [⟨l, d⟩]) ++ [⟨line k.env k.seq k.t, 1⟩] := by
          simp only [runsOf, hr, addTick_append, hv', if_false]; simp
        have hng : NoGap k.profile.rxIdleGap (rx.items ++ [⟨l, d⟩]) := by
          intro y hy
          rcases List.mem_append.1 hy with hy | hy
          · exact hn y hy
          · rw [List.mem_singleton] at hy; subst hy
            rintro ⟨e, hge⟩
            simp only at e hge
            have : d = k.profile.rxIdleGap := le_antisymm (hh e) hge
            simp [idleGapReached, h.armed, ha, hl, e, hd, this] at hg
            omega
        by_cases hfull : rx.items.length = k.params.rxMaxItems
        · refine .inl ⟨fun _ _ => if_pos hfull, ?_⟩
          refine capture_overflow (T := k.t + 1) hG hD hruns (by omega) ?_ hng ?_
          · rw [dur_append]; simp only [dur]; omega
          · simp only [List.length_append, List.length_cons, List.length_nil]; omega
        · refine .inr ⟨_, fun _ _ => if_neg hfull, ⟨rfl, fun hf => by simp at hf, by simp, ?_⟩⟩
          intro _ _
          refine ⟨_, 1, rfl, rfl, hruns, by omega, ?_, hng, fun _ => hG, ?_⟩
          · rw [dur_append]; simp only [dur]; omega
          · simp only [List.length_append, List.length_cons, List.length_nil]; omega
  · have ha' : k.env.rxAlive = false := by simpa using ha
    exact .inr ⟨_, fun _ _ => if_pos ha', ⟨rfl, fun _ => h.dead ha', fun e => by omega,
      fun hf => absurd hf ha⟩⟩

/-- The idle gap reached at tick `t` is the one of the closed form (R215, R219). -/
theorem capture_of_gap {p : Params} {k : SlotCtx} {rx : RxEngine} {D : Nat}
    (hG : 1 ≤ k.profile.rxIdleGap)
    (h : Recorded (line k.env k.seq) k.profile.rxIdleGap p.rxMaxItems k.env.rxAlive k.t rx)
    (hg : idleGapReached k rx = true) (hD : k.t ≤ D) :
    capture (line k.env k.seq) k.profile.rxIdleGap D k.env.rxAlive p.rxMaxItems = .batch rx.items k.t := by
  simp only [idleGapReached, Bool.and_eq_true, decide_eq_true_eq, beq_iff_eq] at hg
  obtain ⟨⟨⟨⟨_, ha⟩, ht⟩, hl⟩, hd⟩ := hg
  obtain ⟨l, d, hl', hd', hr, h0, hdur, hn, hh, hlen⟩ := h.runs ha ht
  rw [hl] at hl'; rw [hd] at hd'
  cases hl'; cases hd'
  rw [ha, capture_gap hG hD hr hdur hn, if_neg (by omega)]

/-- No idle gap by the deadline is the timeout of the closed form (R219, R224). -/
theorem capture_of_deadline {p : Params} {k : SlotCtx} {rx : RxEngine} (h0 : 0 < k.t)
    (h : Recorded (line k.env k.seq) k.profile.rxIdleGap p.rxMaxItems k.env.rxAlive k.t rx)
    (hg : idleGapReached k rx = false) :
    capture (line k.env k.seq) k.profile.rxIdleGap k.t k.env.rxAlive p.rxMaxItems = .timeout rx.items k.t := by
  by_cases ha : k.env.rxAlive = true
  · obtain ⟨l, d, hl, hd, hr, hd0, hdur, hn, hh, hlen⟩ := h.runs ha h0
    have hng : NoGap k.profile.rxIdleGap (rx.items ++ [⟨l, d⟩]) := by
      intro y hy
      rcases List.mem_append.1 hy with hy | hy
      · exact hn y hy
      · rw [List.mem_singleton] at hy; subst hy
        rintro ⟨e, hge⟩
        simp only at e hge
        have : d = k.profile.rxIdleGap := le_antisymm (hh e) hge
        simp [idleGapReached, h.armed, ha, hl, e, hd, this] at hg
        omega
    rw [ha, capture_late hr hd0 hdur hng, if_neg (by omega)]
  · have ha' : k.env.rxAlive = false := by simpa using ha
    rw [ha', capture_dead, h.dead ha']

/-- A trigger of a capture slot leaves it at tick 0 (R210). -/
theorem trigger_capturing {p : Params} {P : Profile} {o : Op} {env : SlotEnv} {x : Inst} {tx : TxEngine} {rx : RxEngine}
    (ho : x.op = some o) (hc : (slotKindOf o).captures = true) :
    CapturingAt p P o env (trigger p P (slotKindOf o) env ⟨x, tx, rx⟩).inst 0
      (trigger p P (slotKindOf o) env ⟨x, tx, rx⟩) := by
  refine ⟨?_, trigger_tx _ _ _ _ _, ?_⟩
  · simp [trigger, hc, ho, opAfter]
  · simp only [trigger, hc, if_true]
    exact ⟨rfl, fun _ => rfl, fun _ => rfl, fun _ h => absurd h (lt_irrefl 0)⟩

end Sys2Proof.Machine
end

