-- ==== Sys2Proof/Laws/SlotRun.lean ====
section
/-! SUPPORT. A slot from its trigger to its completion tick: its capture, then what is left of its sequence, and the result
of the closed form (R219, R236, R238). -/

namespace Sys2Proof.Machine

/-- What ends the capture of a capture slot at tick `t` (R215, R218, R224). -/
inductive CaptureEnds (p : Params) (P : Profile) (o : Op) (env : SlotEnv) (D t : Nat) (u : Xcvr) : Prop where
  | gap (hg : idleGapReached (ctxOf p P o env t) u.rx = true)
  | deadline (hg : idleGapReached (ctxOf p P o env t) u.rx = false) (ht : t = D)
  | overflow (hg : idleGapReached (ctxOf p P o env t) u.rx = false) (ht : t < D)
      (h : ∀ x tx, rxSample (ctxOf p P o env t) ⟨x, tx, u.rx⟩ = .raise .captureOverflow ⟨x, tx, u.rx⟩)
      (hc : capture (line env (txSeq (slotKindOf o) P)) P.rxIdleGap D env.rxAlive p.rxMaxItems = .overflow)

/-- The registers the trigger of a capture slot leaves, as its ticks find them. -/
structure Armed (p : Params) (b : Binding) (o : Op) (env : SlotEnv) (x0 : Inst) : Prop where
  live     : x0.fault = none
  session  : x0.session = .capturing
  binding  : x0.binding = some b
  env      : x0.env = some env
  queue    : x0.queue = some []
  deadline : x0.deadline = some (opDeadline p b o)
  kind     : (slotKindOf o).captures = true

/-- A capture slot is a slot in flight. -/
theorem CapturingAt.inFlight {p : Params} {b : Binding} {o : Op} {env : SlotEnv} {x0 : Inst} {t : Nat} {u : Xcvr}
    (ha : Armed p b o env x0) (h : CapturingAt p b.profile o env x0 t u) : InFlight b (opAfter o t) env t u := by
  refine ⟨?_, ?_, ?_, ?_, ?_, ?_, ?_⟩
  · rw [h.inst]; exact ha.live
  · rw [h.inst]; simp [ha.session]
  · rw [h.inst]; exact ha.binding
  · rw [h.inst]
  · rw [h.inst]; exact ha.env
  · rw [h.inst]
  · rw [slotKindOf_opAfter]; exact h.tx

theorem ctxOf_opAfter (p : Params) (P : Profile) (o : Op) (n : Nat) (env : SlotEnv) (t : Nat) :
    ctxOf p P (opAfter o n) env t = ctxOf p P o env t := by
  simp [ctxOf, slotKindOf_opAfter]

/-- The ticks of a capture, up to the tick that ends it. -/
theorem capture_run {s : State} {i g : Nat} {b : Binding} {o : Op} {env : SlotEnv} {x0 : Inst} (hw : Wired s i b)
    (hG : 1 ≤ b.profile.rxIdleGap) (ha : Armed s.params b o env x0) :
    ∀ m t u, t + m = opDeadline s.params b o →
      CapturingAt s.params b.profile o env x0 t u →
      ∃ n v, t + n ≤ opDeadline s.params b o ∧
        runEvents (List.replicate n (.tick i g)) (scatter s i b u) = .next (scatter s i b v) ∧
        CapturingAt s.params b.profile o env x0 (t + n) v ∧
        CaptureEnds s.params b.profile o env (opDeadline s.params b o) (t + n) v := by
  intro m
  induction m with
  | zero =>
    intro t u ht hu
    refine ⟨0, u, by omega, rfl, hu, ?_⟩
    cases hg : idleGapReached (ctxOf s.params b.profile o env t) u.rx with
    | true => exact .gap hg
    | false => exact .deadline hg ht
  | succ m ih =>
    intro t u ht hu
    cases hg : idleGapReached (ctxOf s.params b.profile o env t) u.rx with
    | true => exact ⟨0, u, by omega, rfl, hu, .gap hg⟩
    | false =>
      have hst := slotTick_sample (k := ctxOf s.params b.profile o env t) (u := u)
        (D := opDeadline s.params b o)
        (by rw [hu.inst]; exact ha.session) (by rw [hu.inst]; exact ha.queue) (by rw [hu.inst]; exact ha.deadline)
        (by simp only [ctxOf, opSeq, opDeadline] at *; omega) hg
      rw [txDone_txAt (k := ctxOf s.params b.profile o env t) hu.tx] at hst
      rcases rxSample_recorded (k := ctxOf s.params b.profile o env t)
        (D := opDeadline s.params b o) hG rfl rfl hu.rx hg
        (by simp only [ctxOf, opSeq, opDeadline] at *; omega) with ⟨h1, h2⟩ | ⟨rx', h1, h2⟩
      · exact ⟨0, u, by omega, rfl, hu, .overflow hg (by omega) h1 h2⟩
      · rw [h1] at hst
        simp only [andThen, txDrive_txAt] at hst
        have hne : (sessAdvance (ctxOf s.params b.profile o env t)
            ⟨u.inst, txAt (opSeq b o) (t + 1), rx'⟩).inst.session ≠ .idle := by
          simp [sessAdvance, hu.inst, ha.session]
        have hev := hw.tick_goesOn g (CapturingAt.inFlight ha hu) (by rw [ctxOf_opAfter]; exact hst) hne
        obtain ⟨n, v, hle, hr, hv, he⟩ := ih (t + 1) (sessAdvance (ctxOf s.params b.profile o env t)
            ⟨u.inst, txAt (opSeq b o) (t + 1), rx'⟩) (by omega) ⟨by
            simp [sessAdvance, hu.inst, opTick_opAfter, ctxOf], rfl, h2⟩
        have e : t + (n + 1) = t + 1 + n := by omega
        refine ⟨n + 1, v, by omega, ?_, by rw [e]; exact hv, by rw [e]; exact he⟩
        rw [List.replicate_succ, runEvents_cons_next hev]; exact hr

/-- What a completed slot leaves of its instance and engines, before the operation takes the result (R226, R230, R236). -/
structure SlotLeft (s : State) (b : Binding) (x : Inst) (o : Op) (env : SlotEnv) (r : SlotResult) (T : Nat)
    (w : Xcvr) : Prop where
  session : w.inst.session = .idle
  result  : w.inst.slotResult = some r
  op      : w.inst.op = some (opAfter o T)
  frame   : w.inst.binding = x.binding ∧ w.inst.lock = x.lock ∧ w.inst.waiters = x.waiters ∧ w.inst.fault = x.fault
  queue   : w.inst.queue = some []
  tx      : w.tx.busy = false
  rx      : w.rx.armed = false
  kept    : (slotKindOf o).captures = false → s.rx? b.rx = some w.rx
  regs    : (w.inst.capEnd, w.inst.decodeItems) =
    if (slotKindOf o).captures then captureRegs x (slotCapture s.params (slotKindOf o) b.profile env)
    else (x.capEnd, x.decodeItems)

/-- The ticks of a slot whose capture engine is disarmed, up to the end of its sequence (R232, R234); `fin` is what the
last of them leaves. -/
theorem disarmed_run {s : State} {i g : Nat} {b : Binding} {o : Op} {env : SlotEnv} {x0 : Inst} {rx : RxEngine}
    (hw : Wired s i b) (h1 : x0.fault = none) (h2 : x0.session ≠ .idle) (h3 : x0.binding = some b)
    (h4 : x0.env = some env) (fin : Nat → Xcvr)
    (hstep : ∀ t, t ≤ dur (opSeq b o) →
      slotTick (ctxOf s.params b.profile o env t) ⟨tickedAt x0 o t, txAt (opSeq b o) t, rx⟩ =
        if t = dur (opSeq b o) then .ok (fin t)
        else .ok (sessAdvance (ctxOf s.params b.profile o env t) ⟨tickedAt x0 o t, txAt (opSeq b o) (t + 1), rx⟩)) :
    ∀ m t, t + m = dur (opSeq b o) →
      ∃ v, runEvents (List.replicate m (.tick i g)) (scatter s i b ⟨tickedAt x0 o t, txAt (opSeq b o) t, rx⟩) =
          .next (scatter s i b v) ∧
        InFlight b (opAfter o (t + m)) env (t + m) v ∧
        slotTick (ctxOf s.params b.profile o env (t + m)) v = .ok (fin (t + m)) := by
  have hfl : ∀ t, InFlight b (opAfter o t) env t ⟨tickedAt x0 o t, txAt (opSeq b o) t, rx⟩ := fun t =>
    ⟨h1, h2, h3, rfl, h4, rfl, by rw [slotKindOf_opAfter]⟩
  intro m
  induction m with
  | zero =>
    intro t ht
    refine ⟨_, rfl, hfl t, ?_⟩
    have := hstep t (by omega)
    rw [if_pos (by omega)] at this
    exact this
  | succ m ih =>
    intro t ht
    have hst := hstep t (by omega)
    rw [if_neg (by omega)] at hst
    have hev := hw.tick_goesOn g (hfl t) (by rw [ctxOf_opAfter]; exact hst) h2
    obtain ⟨v, hr, hv⟩ := ih (t + 1) (by omega)
    have e : t + (m + 1) = t + 1 + m := by omega
    rw [e]
    refine ⟨v, ?_, hv⟩
    rw [List.replicate_succ, runEvents_cons_next hev, ← hr]
    simp only [sessAdvance, Option.map_some, opTick_opAfter, ctxOf, tickedAt]

/-- A slot from its trigger to its completion: it ends as the closed form says (R238). -/
theorem slot_run {s : State} {i g : Nat} {x : Inst} {b : Binding} {o : Op} {env : SlotEnv} (hc : s.Coherent)
    (hx : s.inst? i = some x) (hf : x.fault = none) (hb : x.binding = some b) (hs : x.session = .idle)
    (ho : x.op = some o) :
    ∃ u T v, runEvent (.trigger i env) s = .next (scatter s i b u) ∧
      runEvents (List.replicate T (.tick i g)) (scatter s i b u) = .next (scatter s i b v) ∧
      InFlight b (opAfter o T) env T v ∧
      ((∃ r w, runSlot s.params (slotKindOf o) b.profile env = .finished r T ∧
          slotTick (ctxOf s.params b.profile o env T) v = .ok w ∧ SlotLeft s b x o env r T w) ∨
       (runSlot s.params (slotKindOf o) b.profile env = .overflow ∧ v.inst.session = .capturing ∧
          v.inst.lock = x.lock ∧
          ∃ w, slotTick (ctxOf s.params b.profile o env T) v = .raise .captureOverflow w ∧ w.inst = v.inst)) := by
  have hw := hc.wired hx hb
  have hG := validProfile_gap (hc.owners.bound i x b hx hb).profile
  have hd : 1 ≤ s.params.queueDepth := by
    have := hc.params
    simp only [Params.wf, Bool.and_eq_true, decide_eq_true_eq] at this; omega
  obtain ⟨tx, htx⟩ := hw.tx
  obtain ⟨rx, hrx⟩ := hw.rx
  obtain ⟨hq, hsl⟩ := hc.slots i x b tx rx hx hf hb htx hrx
  simp only [hs] at hsl
  have hg : gather s x b = some ⟨x, tx, rx⟩ := gather_eq.2 ⟨rfl, htx, hrx⟩
  have htrig : runEvent (.trigger i env) s =
      .next (scatter s i b (trigger s.params b.profile (slotKindOf o) env ⟨x, tx, rx⟩)) := by
    simp [runEvent, triggerInst, hx, hf, hs, ho, hb, hg, hsl.1]
  obtain ⟨e1, e2, e3, -, e5, -⟩ := trigger_frame s.params b.profile (slotKindOf o) env ⟨x, tx, rx⟩
  by_cases hk : (slotKindOf o).captures = true
  · have ha : Armed s.params b o env (trigger s.params b.profile (slotKindOf o) env ⟨x, tx, rx⟩).inst := by
      refine ⟨by rw [e5]; exact hf, ?_, by rw [e1]; exact hb, ?_, ?_, ?_, hk⟩ <;>
        simp [trigger, hk, hq, queueFlush]
    obtain ⟨T, v, hle, hrun, hv, hend⟩ :=
      capture_run (g := g) hw hG ha _ 0 _ (Nat.zero_add _) (trigger_capturing (p := s.params) ho hk)
    simp only [Nat.zero_add] at hle hv hend
    have hfl := CapturingAt.inFlight ha hv
    have hvs : v.inst.session = .capturing := by rw [hv.inst]; exact ha.session
    have hvq : v.inst.queue = some [] := by rw [hv.inst]; exact ha.queue
    have hvD : v.inst.deadline = some (opDeadline s.params b o) := by rw [hv.inst]; exact ha.deadline
    have hvo : v.inst.op = some (opAfter o T) := by rw [hv.inst]
    have hvf : v.inst.binding = x.binding ∧ v.inst.lock = x.lock ∧ v.inst.waiters = x.waiters ∧
        v.inst.fault = x.fault := by
      rw [hv.inst]; exact ⟨e1, e2, e3, e5⟩
    have hvr : v.inst.decodeItems = x.decodeItems := by
      rw [hv.inst]; simp [trigger, hk]
    have hDl : dur (opSeq b o) < opDeadline s.params b o := by
      unfold opDeadline captureDeadline; omega
    cases hend with
    | overflow hg ht h hcap =>
      refine ⟨_, T, v, htrig, hrun, hfl, .inr ⟨by simp [runSlot, slotCapture, hk, hcap], hvs, hvf.2.1, ?_⟩⟩
      have hst := slotTick_sample (k := ctxOf s.params b.profile o env T) (u := v) hvs hvq hvD (Nat.ne_of_lt ht) hg
      rw [txDone_txAt (k := ctxOf s.params b.profile o env T) hv.tx, h] at hst
      exact ⟨_, hst, rfl⟩
    | deadline hg ht =>
      have h0 : dur (opSeq b o) < T := ht ▸ hDl
      have hcap := capture_of_deadline (k := ctxOf s.params b.profile o env T) (p := s.params)
        (Nat.zero_lt_of_lt h0) hv.rx hg
      have hst := slotTick_timeout (k := ctxOf s.params b.profile o env T) (u := v) hvs hvq
        (by rw [hvD, ← ht]; rfl) hg hv.tx h0
      refine ⟨_, T, v, htrig, hrun, hfl, .inl ⟨_, _, ?_, hst, ⟨rfl, rfl, hvo, hvf, hvq, rfl, rfl, by simp [hk], ?_⟩⟩⟩
      all_goals
        simp only [ctxOf] at hcap
        rw [ht] at hcap
      rotate_left
      · rw [if_pos hk, slotCapture, hcap]
        cases hi : v.rx.items <;> simp [captureRegs, ctxOf, ht, hvr]
      rw [runSlot, if_neg (by simp [hk]), slotCapture, hcap]
      cases hi : v.rx.items with
      | nil => simp [ht]
      | cons a as => simp [ht, ctxOf]
    | gap hg =>
      have hcap := capture_of_gap (k := ctxOf s.params b.profile o env T) (p := s.params) hG hv.rx hg hle
      have hst := slotTick_idleGap (k := ctxOf s.params b.profile o env T) (u := v) hvs hvq hd hg hv.tx
      have hrs : runSlot s.params (slotKindOf o) b.profile env =
          .finished (decodeSlot (slotKindOf o) v.rx.items b.profile) (max (dur (opSeq b o)) T) := by
        simp only [ctxOf] at hcap
        rw [runSlot, if_neg (by simp [hk]), slotCapture, hcap]
      have hregs : (some T, some v.rx.items) = if (slotKindOf o).captures then
          captureRegs x (slotCapture s.params (slotKindOf o) b.profile env) else (x.capEnd, x.decodeItems) := by
        simp only [ctxOf] at hcap
        rw [if_pos hk, slotCapture, hcap]; rfl
      by_cases hT : dur (opSeq b o) ≤ T
      · rw [if_pos (by exact hT)] at hst
        refine ⟨_, T, v, htrig, hrun, hfl, .inl ⟨_, _, ?_, hst, ⟨rfl, rfl, hvo, hvf, rfl, rfl, rfl, by simp [hk], hregs⟩⟩⟩
        rw [hrs, Nat.max_eq_right hT]; rfl
      · rw [if_neg (by exact hT)] at hst
        have hev := hw.tick_goesOn g hfl (by rw [ctxOf_opAfter]; exact hst) (by simp [sessAdvance, batchTaken])
        obtain ⟨w, hr2, hf2, ht2⟩ := disarmed_run (g := g) (env := env) (o := o)
          (x0 := batchTaken v.inst v.rx.items T) (rx := { v.rx with armed := false }) hw hfl.live
          (by simp [batchTaken]) hfl.binding hfl.env
          (fun t => ⟨{ tickedAt (batchTaken v.inst v.rx.items T) o t with
              session := .idle, slotResult := some (decodeSlot (slotKindOf o) v.rx.items b.profile) },
            ⟨false, some (opSeq b o), some t⟩, { v.rx with armed := false }⟩)
          (fun t ht => slotTick_draining (k := ctxOf s.params b.profile o env t) rfl rfl rfl rfl ht)
          (dur (opSeq b o) - (T + 1)) (T + 1) (by omega)
        have e : T + 1 + (dur (opSeq b o) - (T + 1)) = dur (opSeq b o) := by omega
        rw [e] at hf2 ht2
        refine ⟨_, dur (opSeq b o), w, htrig, ?_, hf2,
          .inl ⟨_, _, by rw [hrs, Nat.max_eq_left (by omega)], ht2, ⟨rfl, rfl, rfl, hvf, rfl, rfl, rfl, by simp [hk], hregs⟩⟩⟩
        have e3 : dur (opSeq b o) = T + (1 + (dur (opSeq b o) - (T + 1))) := by omega
        rw [e3, List.replicate_add, runEvents_append_next hrun, Nat.add_comm 1, List.replicate_succ,
          runEvents_cons_next hev, ← hr2]
        simp only [sessAdvance, batchTaken, hvo, Option.map_some, opTick_opAfter, ctxOf, tickedAt]
  · have hk' : (slotKindOf o).captures = false := by simpa using hk
    have hinst : trigger s.params b.profile (slotKindOf o) env ⟨x, tx, rx⟩ =
        ⟨tickedAt { x with session := .triggered, env := some env } o 0, txAt (opSeq b o) 0, rx⟩ := by
      simp [trigger, hk', txAt, ho, opAfter, opSeq]
    obtain ⟨v, hr, hf2, ht2⟩ := disarmed_run (g := g) (env := env) (o := o)
      (x0 := { x with session := .triggered, env := some env }) (rx := rx) hw hf (by simp) hb rfl
      (fun t => ⟨{ tickedAt { x with session := .triggered, env := some env } o t with
          session := .idle, slotResult := some .done },
        ⟨false, some (opSeq b o), some t⟩, rx⟩)
      (fun t _ => slotTick_triggered (k := ctxOf s.params b.profile o env t) rfl hsl.2 hk' rfl) _ 0 (Nat.zero_add _)
    simp only [Nat.zero_add] at hf2 ht2
    rw [hinst] at htrig
    exact ⟨_, _, v, htrig, hr, hf2,
      .inl ⟨_, _, by simp [runSlot, hk', opSeq], ht2, ⟨rfl, rfl, rfl, ⟨rfl, rfl, rfl, rfl⟩, hq, rfl, hsl.2, fun _ => hrx,
        by rw [if_neg hk]⟩⟩⟩

end Sys2Proof.Machine
end

