-- ==== Sys2Proof/Laws/Complete.lean ====
section
/-! SUPPORT. A slot as moves on the whole system: the gap before its trigger, its ticks, and the hand-over of its result to
the operation (R236, R251, R252). -/

namespace Sys2Proof.Machine

/-- The ticks of a gap (R251) advance the operation's clock alone. -/
theorem gap_run {s : State} {i : Nat} {x : Inst} {o : Op} (hx : s.inst? i = some x) (hf : x.fault = none)
    (hs : x.session = .idle) (ho : x.op = some o) (n : Nat) :
    runEvents (List.replicate n (.gapTick i)) s = .next (s.setInst i { x with op := some (opAfter o n) }) := by
  have h0 : s.setInst i x = s := by
    obtain ⟨hi, rfl⟩ := List.getElem?_eq_some_iff.1 hx
    simp [State.setInst]
  induction n with
  | zero =>
    have : { x with op := some (opAfter o 0) } = x := by
      rw [show opAfter o 0 = o from rfl, ← ho]
    rw [this, h0]; rfl
  | succ n ih =>
    rw [List.replicate_succ', runEvents_append_next ih, runEvents]
    have hi : (s.setInst i { x with op := some (opAfter o n) }).inst? i = some { x with op := some (opAfter o n) } := by
      rw [inst_setInst, if_pos rfl, hx]; rfl
    have hg : gapInst (s.setInst i { x with op := some (opAfter o n) }) i =
        .next (s.setInst i { x with op := some (opAfter o (n + 1)) }) := by
      unfold gapInst
      rw [hi]
      simp [hf, hs, opTick_opAfter, State.setInst]
    simp only [runEvent, hg, runEvents]

/-- The gap keeps the state coherent. -/
theorem State.Coherent.gapped {s : State} (h : s.Coherent) {i : Nat} {x : Inst} {o : Op} (hx : s.inst? i = some x)
    (hs : x.session = .idle) (ho : x.op = some o) (n : Nat) :
    (s.setInst i { x with op := some (opAfter o n) }).Coherent := by
  refine State.Coherent.update (x := x) (y := { x with op := some (opAfter o n) }) h hx rfl rfl rfl (by simp)
    h.callers rfl rfl ?_ rfl ?_ (by simp) (by simp) ?_
  · intro j; rw [inst_setInst]; split
    · rename_i hij; subst hij; simp [hx]
    · rfl
  · exact (h.locks i x hx).setOp rfl rfl rfl rfl (by simp [ho]) (by simp [hs]) (fun _ => hs)
  · intro b tx rx hf' hb' htx hrx
    obtain ⟨q1, q2⟩ := h.slots i x b tx rx hx hf' hb' htx hrx
    refine ⟨q1, ?_⟩
    simp only [hs] at q2 ⊢
    exact q2

/-- One slot of an operation in flight, from the end of the previous event to its completion (R251, R252): the operation
takes the result of the closed form, the gap and the completion tick later. -/
theorem slot_completes {s : State} {i g gap T : Nat} {x : Inst} {b : Binding} {o : Op} {env : SlotEnv} {r : SlotResult}
    (hc : s.Coherent) (hx : s.inst? i = some x) (hf : x.fault = none) (hb : x.binding = some b)
    (hs : x.session = .idle) (ho : x.op = some o)
    (hr : runSlot s.params (slotKindOf o) b.profile env = .finished r T) :
    ∃ w, runEvents (slotEvents i gap env T g) s = slotDone (scatter s i b w) i g ∧
      SlotLeft s b x o env r (gap + T) w := by
  have hgc := hc.gapped hx hs ho gap
  have hgi : (s.setInst i { x with op := some (opAfter o gap) }).inst? i = some { x with op := some (opAfter o gap) } := by
    rw [inst_setInst, if_pos rfl, hx]; rfl
  obtain ⟨u, T', v, ht, hrun, hfl, ⟨r', w, hrs, hst, hl⟩ | ⟨hrs, -, -⟩⟩ :=
    slot_run (g := g) (env := env) (o := opAfter o gap) hgc hgi hf hb hs rfl
  · rw [slotKindOf_opAfter] at hrs
    have := hrs.symm.trans hr
    cases this
    have hwired := hgc.wired hgi hb
    have hend := hwired.tick_ends g hfl (by rw [ctxOf_opAfter]; exact hst) hl.session
    have hsc : ∀ w, scatter (s.setInst i { x with op := some (opAfter o gap) }) i b w = scatter s i b w := by
      intro w; simp [scatter, State.setInst]
    refine ⟨w, ?_, ⟨hl.session, hl.result, by rw [hl.op]; simp [opAfter, Nat.add_assoc], hl.frame, hl.queue, hl.tx, hl.rx,
      by have := hl.kept; rwa [slotKindOf_opAfter] at this, by have := hl.regs; rwa [slotKindOf_opAfter] at this⟩⟩
    unfold slotEvents
    rw [runEvents_append_next (gap_run hx hf hs ho gap), runEvents_cons_next ht, List.replicate_succ',
      runEvents_append_next hrun, runEvents, hend, hsc]
    cases slotDone (scatter s i b w) i g <;> rfl
  · rw [slotKindOf_opAfter] at hrs
    have := hrs.symm.trans hr
    cases this

/-- Taking the result of a completed slot writes no register of the session but the fault of R48, and no engine. -/
theorem slotDone_regs {s t : State} {i g : Nat} {x : Inst} (hx : s.inst? i = some x) (h : slotDone s i g = .next t) :
    t.txe = s.txe ∧ t.rxe = s.rxe ∧ ∃ y, t.inst? i = some y ∧
      y = { x with lock := y.lock, waiters := y.waiters, op := y.op, fault := y.fault } := by
  unfold slotDone at h
  rw [hx] at h
  simp only at h
  split at h
  · split at h <;> cases h
    · exact ⟨rfl, rfl, _, by rw [inst_setInst, if_pos rfl, hx]; rfl, rfl⟩
    · refine ⟨rfl, rfl, releaseLock x g, by rw [respond_inst_read, inst_setInst, if_pos rfl, hx]; rfl, ?_⟩
      rcases releaseLock_cases x g with ⟨_, e⟩ | ⟨w, ws, _, e⟩ <;> rw [e]
    · exact ⟨by simp, by simp, _, by rw [inst_raiseFault, if_pos rfl, hx]; rfl, rfl⟩
  · cases h
    exact ⟨by simp, by simp, _, by rw [inst_raiseFault, if_pos rfl, hx]; rfl, rfl⟩

/-- After a tick that raises nothing in the slot, the session registers and the engines are what its steps left. -/
theorem Wired.afterTick_regs {s t : State} {i g : Nat} {b : Binding} {v : Xcvr} (hw : Wired s i b)
    (h : afterTick s i b g (.ok v) = .next t) :
    t.tx? b.tx = some v.tx ∧ t.rx? b.rx = some v.rx ∧ ∃ y, t.inst? i = some y ∧
      y = { v.inst with lock := y.lock, waiters := y.waiters, op := y.op, fault := y.fault } := by
  unfold afterTick at h
  split at h
  · cases ‹TickResult.ok v = _›
  · cases ‹TickResult.ok v = _›
    split at h
    · obtain ⟨h1, h2, h3⟩ := slotDone_regs (hw.inst_scatter_self v) h
      exact ⟨by rw [State.tx?, h1]; exact hw.tx_scatter_self v, by rw [State.rx?, h2]; exact hw.rx_scatter_self v, h3⟩
    · cases h
      exact ⟨hw.tx_scatter_self v, hw.rx_scatter_self v, _, hw.inst_scatter_self v, rfl⟩

/-- After a tick that raises a model fault, the instance is what the steps before it left, with the fault (R328). -/
theorem Wired.afterTick_raise {s : State} {i g : Nat} {b : Binding} {v : Xcvr} {r : FaultReason} (hw : Wired s i b)
    (hf : v.inst.fault = none) :
    afterTick s i b g (.raise r v) = .next ((scatter s i b v).setInst i { v.inst with fault := some r }) := by
  simp [afterTick, raiseFault, hw.inst_scatter_self, hf]

/-- A completed slot whose result ends the operation: the response of the operation, and the lock to the next caller or
free (R250, R253). -/
theorem slotDone_finished {s : State} {i g c n : Nat} {x : Inst} {b : Binding} {o : Op} {env : SlotEnv} {r : SlotResult}
    {st : Status} {d : Byte} {w : Xcvr} (hw : Wired s i b) (hl : SlotLeft s b x o env r n w) (hk : x.lock = .held c)
    (ha : afterSlot (opAfter o n) r = .finished st d) :
    slotDone (scatter s i b w) i g =
      .next (respond ((scatter s i b w).setInst i (releaseLock w.inst g)) i c st d (o.elapsed + n)) := by
  have hlk : w.inst.lock = .held c := by rw [hl.frame.2.1]; exact hk
  simp only [slotDone, hw.inst_scatter_self, hl.op, hl.result, hlk, ha]
  rfl

/-- A completed slot after which the operation goes on (R264, R267). -/
theorem slotDone_nextSlot {s : State} {i g c n : Nat} {x : Inst} {b : Binding} {o o' : Op}
    {env : SlotEnv} {r : SlotResult} {w : Xcvr}
    (hw : Wired s i b) (hl : SlotLeft s b x o env r n w) (hk : x.lock = .held c)
    (ha : afterSlot (opAfter o n) r = .nextSlot o') :
    slotDone (scatter s i b w) i g = .next ((scatter s i b w).setInst i { w.inst with op := some o' }) := by
  have hlk : w.inst.lock = .held c := by rw [hl.frame.2.1]; exact hk
  simp [slotDone, hw.inst_scatter_self, hl.op, hl.result, hlk, ha]

end Sys2Proof.Machine
end

