-- ==== Sys2Proof/Laws/Locality.lean ====
section
/-! SUPPORT. What a step on one instance leaves of the others, and of a faulted instance (R298, R326). -/

namespace Sys2Proof.Machine

/-- Taking a move from the script or the free values keeps the state coherent. -/
theorem State.Coherent.popEvent {s : State} (h : s.Coherent) : (Machine.popEvent s).Coherent := by
    refine h.congr ?_ ?_ ?_ ?_ ?_ ?_ ?_ <;> simp [h.callers]

/-- An effect on instance `i` leaves every other instance. -/
theorem effect_other {s t : State} {i j : Nat} (e : Effect s i t) (hij : j ≠ i) : t.inst? j = s.inst? j := by
  have h' : ¬ i = j := fun e => hij e.symm
  cases e <;> simp [inst_raiseFault, inst_setInst, inst_scatter, inst_bindInst, inst_unbindInst, h']

/-- An effect on a faulted instance leaves it. -/
theorem effect_faulted {s t : State} {i : Nat} {x : Inst} {r : FaultReason} (e : Effect s i t) (hx : s.inst? i = some x) (hf : x.fault = some r) : t.inst? i = some x := by
  cases e with
  | nothing => exact hx
  | fault r' => rw [inst_raiseFault, if_pos rfl, hx]; simp [hf]; 
                obtain ⟨⟩ := x; simp at hf; simp [hf]
  | answer st hp => simpa using hx
  | lock x' b cmd hp hx' hf' => rw [hx] at hx'; cases hx'; simp [hf] at hf'
  | bind x' b hp hx' hf' => rw [hx] at hx'; cases hx'; simp [hf] at hf'
  | unbind x' b hp hx' hf' => rw [hx] at hx'; cases hx'; simp [hf] at hf'
  | gap x' hx' hf' => rw [hx] at hx'; cases hx'; simp [hf] at hf'
  | started x' b o tx rx env hx' hf' => rw [hx] at hx'; cases hx'; simp [hf] at hf'
  | tick x' b o tx rx k v hx' hf' => rw [hx] at hx'; cases hx'; simp [hf] at hf'
  | raise x' b o tx rx k v r hx' hf' => rw [hx] at hx'; cases hx'; simp [hf] at hf'
  | lost x' b o tx rx k v hx' hf' => rw [hx] at hx'; cases hx'; simp [hf] at hf'
  | nextSlot x' b o tx rx k v o1 o' r c hx' hf' => rw [hx] at hx'; cases hx'; simp [hf] at hf'
  | finish x' b o tx rx k v o1 r c g st d hx' hf' => rw [hx] at hx'; cases hx'; simp [hf] at hf'

/-- An effect leaves the engines of another bound instance, and of a faulted one. -/
theorem effect_engines {s t : State} {i j : Nat} {x : Inst} {b : Binding} (h : s.Coherent) (e : Effect s i t) (hx : s.inst? j = some x) (hb : x.binding = some b)
   (hc : j ≠ i ∨ x.fault ≠ none) : t.tx? b.tx = s.tx? b.tx ∧ t.rx? b.rx = s.rx? b.rx := by
  have ho := h.owners.bound j x b hx hb
  have key : ∀ x' b', s.inst? i = some x' → x'.fault = none → x'.binding = some b' → b'.tx ≠ b.tx ∧ b'.rx ≠ b.rx := by
    intro x' b' hx' hf' hb'
    have ho' := h.owners.bound i x' b' hx' hb'
    have hji : j ≠ i := by
      rcases hc with hc | hc
      · exact hc
      · rintro rfl; rw [hx] at hx'; cases hx'; exact hc hf'
    refine ⟨fun e => ?_, fun e => ?_⟩
    · have := ho'.txOwned; rw [e, ho.txOwned] at this; simp [hji] at this
    · have := ho'.rxOwned; rw [e, ho.rxOwned] at this; simp [hji] at this
  cases e with
  | nothing => exact ⟨rfl, rfl⟩
  | fault r' => simp
  | answer st hp => simp
  | lock x' b cmd hp hx' hf' => simp
  | bind x' b' hp hx' hf' hb' hv hfit hr =>
    obtain ⟨a1, a2, a3, a4, a5, a6, a7, a8⟩ := bindRefused_false hr
    have n1 : b'.tx ≠ b.tx := by intro e; rw [e, ho.txOwned] at a4; cases a4
    have n2 : b'.rx ≠ b.rx := by intro e; rw [e, ho.rxOwned] at a5; cases a5
    simp [bindInst, tx_quietTx, rx_quietRx, n1, n2]
  | unbind x' b' hp hx' hf' hb' => 
    obtain ⟨n1, n2⟩ := key x' b' hx' hf' hb'
    simp [unbindInst, tx_quietTx, rx_quietRx, n1, n2]
  | gap x' hx' hf' => simp
  | started x' b' o tx rx env hx' hf' hs ho hb' => obtain ⟨n1, n2⟩ := key x' b' hx' hf' hb'; simp [tx_scatter, rx_scatter, n1, n2]
  | tick x' b' o tx rx k v hx' hf' hs ho hb' => obtain ⟨n1, n2⟩ := key x' b' hx' hf' hb'; simp [tx_scatter, rx_scatter, n1, n2]
  | raise x' b' o tx rx k v r hx' hf' hs ho hb' => obtain ⟨n1, n2⟩ := key x' b' hx' hf' hb'; simp [tx_scatter, rx_scatter, n1, n2]
  | lost x' b' o tx rx k v hx' hf' hs ho hb' => obtain ⟨n1, n2⟩ := key x' b' hx' hf' hb'; simp [tx_scatter, rx_scatter, n1, n2]
  | nextSlot x' b' o tx rx k v o1 o' r c hx' hf' hs ho hb' => obtain ⟨n1, n2⟩ := key x' b' hx' hf' hb'; simp [tx_scatter, rx_scatter, n1, n2]
  | finish x' b' o tx rx k v o1 r c g st d hx' hf' hs ho hb' => obtain ⟨n1, n2⟩ := key x' b' hx' hf' hb'; simp [tx_scatter, rx_scatter, n1, n2]

/-- A step is an effect on the instance its move addresses, from a coherent state with the same instances and engines. -/
theorem step_effect_coherent {s t : State} (h : s.Coherent) (hs : step s = .next t) : ∃ s', s'.Coherent ∧ Effect s' (eventTarget (nextEvent s)) t ∧ (∀ j, s'.inst? j = s.inst? j) ∧ (∀ k, s'.tx? k = s.tx? k) ∧ (∀ k, s'.rx? k = s.rx? k) := by
  rcases step_effect hs with he | ⟨c, a, hc, he⟩
  · exact ⟨_, h.popEvent, he, by intro j; simp [State.inst?], by intro j; simp [State.tx?],by intro j; simp [State.rx?]⟩
  · refine ⟨_, ?_, he, by intro j; simp [State.inst?], by intro j; simp [State.tx?],by intro j; simp [State.rx?]⟩
    refine h.popEvent.congr rfl rfl rfl rfl rfl rfl ?_
    simp only [accept_blocked, List.nodup_cons]
    exact ⟨by simpa using hc, h.popEvent.callers⟩

end Sys2Proof.Machine
end

