-- ==== Sys2Proof/Laws/Operation.lean ====
section
/-! SUPPORT. An operation in flight, slot by slot: from the grant of a free lock, through slots that leave another to run,
to the slot that ends it (R250, R252, R253). -/

namespace Sys2Proof.Machine

/-- The instance between two slots of the operation of the holder `c`, with nobody waiting, everything else as in `s0`. -/
structure Holding (s0 s : State) (i c : Nat) (b : Binding) (o : Op) (x : Inst) : Prop where
  coh : s.Coherent
  hx : s.inst? i = some x
  hf : x.fault = none
  hb : x.binding = some b
  hs : x.session = .idle
  hl : x.lock = .held c
  hw : x.waiters = []
  ho : x.op = some o
  insts     : ∀ j, j ≠ i → s.inst? j = s0.inst? j
  engines   : ∀ k, (k ≠ b.tx → s.tx? k = s0.tx? k) ∧ (k ≠ b.rx → s.rx? k = s0.rx? k)
  owners    : s.chanOwner = s0.chanOwner ∧ s.pinOwner = s0.pinOwner
  rest      : s.params = s0.params ∧ s.port = s0.port ∧ s.script = s0.script ∧ s.drawn = s0.drawn ∧ s.responses = s0.responses ∧ s.blocked = s0.blocked

/-- A bus command takes a free lock and leaves the instance between slots. -/
theorem holding_start {s : State} {x : Inst} {b : Binding} (h : Ready s x b) {cmd : Instr} {q : BusCmd} (hq : busCmdOf cmd = some q) :
    ∃ t, exec cmd s = .next t ∧ t.rxe = s.rxe ∧ Holding s t s.port.inst s.port.caller b (opStart q) { x with lock := .held s.port.caller, op := some (opStart q) } := by
  obtain ⟨hc, ⟨hx, hf, hb⟩, hl⟩ := h
  have he : exec cmd s = .next (s.setInst s.port.inst { x with lock := .held s.port.caller, op := some (opStart q) }) := by
    cases cmd <;> simp [busCmdOf] at hq <;> subst hq <;> simp [exec, execReset, execWriteBit, execReadBit, execWriteByte, execReadByte, busCommand, onPort_live hx hf, hb, acquireLock_free hl]
  have hlk := hc.locks _ _ hx
  refine ⟨_, he, rfl, ?_⟩
  have hcoh : (s.setInst s.port.inst { x with lock := .held s.port.caller, op := some (opStart q) }).Coherent := by
    have := Effect.coherent hc (Effect.lock (i := s.port.inst) x b q rfl hx hf hb)
    rwa [acquireLock_free hl] at this
  refine ⟨hcoh, by rw [inst_setInst, if_pos rfl, hx]; rfl, hf, hb, ?_, rfl, hlk.waiters hl, rfl, ?_, ?_, ⟨rfl, rfl⟩, ⟨rfl, rfl, rfl, rfl, rfl, rfl⟩⟩
  · by_contra hne; exact hlk.flight hne (hlk.opHeld.2 hl)
  · intro j hj; rw [inst_setInst, if_neg (Ne.symm hj)]
  · intro k; exact ⟨fun _ => rfl, fun _ => rfl⟩

/-- A slot that ends the operation responds to the holder, releases the lock and leaves the instance at rest. -/
theorem holding_finish {s0 s : State} {i c : Nat} {b : Binding} {o : Op} {x : Inst} (h : Holding s0 s i c b o x) {env gap T g r st d}
    (hr : runSlot s0.params (slotKindOf o) b.profile env = .finished r T) (ha : afterSlot (opAfter o (gap + T)) r = .finished st d) :
    ∃ u, runEvents (slotEvents i gap env T g) s = .next u ∧ 
      u.responses = ⟨i, c, responseWord st d, o.elapsed + (gap + T)⟩ :: s0.responses ∧ u.blocked = s0.blocked.erase c ∧
      (∃ y, u.inst? i = some y ∧ y.binding = some b ∧ y.fault = none ∧ y.lock = .free ∧
    y.waiters = [] ∧ y.op = none ∧ y.session = .idle ∧ y.queue = some []) ∧
  (∀ j, j ≠ i → u.inst? j = s0.inst? j) ∧
  (∀ c, (c ≠ b.tx → u.tx? c = s0.tx? c) ∧ (c ≠ b.rx → u.rx? c = s0.rx? c)) ∧
  (u.chanOwner = s0.chanOwner ∧ u.pinOwner = s0.pinOwner) ∧
  (u.params = s0.params ∧ u.port = s0.port ∧ u.script = s0.script ∧ u.drawn = s0.drawn) ∧ u.Coherent ∧ ((slotKindOf o).captures = false → u.rxe = s.rxe) := by
  rw [← h.rest.1] at hr
  obtain ⟨w, hrun, hl⟩ := slot_completes (g := g) (gap := gap) h.coh h.hx h.hf h.hb h.hs h.ho hr
  have hw := h.coh.wired h.hx h.hb
  rw [slotDone_finished hw hl h.hl ha] at hrun
  have hrl : releaseLock w.inst g = { w.inst with op := none, lock := .free } := by
    rcases releaseLock_cases w.inst g with ⟨_, e⟩ | ⟨w', ws, hp, e⟩
    · exact e
    · have := (pickWaiter_none (g := g)).2 (hl.frame.2.2.1.trans h.hw); rw [this] at hp; cases hp
  refine ⟨_, hrun, by simp [h.rest], by simp [h.rest], ⟨_, by rw [respond_inst_read, inst_setInst, if_pos rfl, hw.inst_scatter_self, hrl]; rfl, ?_⟩, ?_, ?_, ?_, ?_, runEvents_coherent h.coh hrun, ?_⟩
  · exact ⟨hl.frame.1.trans h.hb, hl.frame.2.2.2.trans h.hf, rfl, hl.frame.2.2.1.trans h.hw, rfl, hl.session, hl.queue⟩
  · intro j hj; rw [respond_inst_read, inst_setInst, if_neg (Ne.symm hj), inst_scatter, if_neg (Ne.symm hj)]; exact h.insts j hj
  · intro k
    refine ⟨fun hk => ?_, fun hk => ?_⟩
    · rw [respond_tx_read]; simp only [setInst_tx_read]; rw [tx_scatter, if_neg (Ne.symm hk)]; exact (h.engines k).1 hk
    · rw [respond_rx_read]; simp only [setInst_rx_read]; rw [rx_scatter, if_neg (Ne.symm hk)]; exact (h.engines k).2 hk
  · simpa using h.owners
  · obtain ⟨a1, a2, a3, a4, -⟩ := h.rest; simp [a1, a2, a3, a4]
  · intro hk
    have hrx := hl.kept hk
    simp only [respond_rxe, setInst_rxe, scatter_rxe]
    obtain ⟨hi, e⟩ := List.getElem?_eq_some_iff.1 hrx
    rw [← e]; simp

/-- A slot that leaves another to run keeps the operation in flight. -/
theorem holding_next {s0 s : State} {i c : Nat} {b : Binding} {o o' : Op} {x : Inst} (h : Holding s0 s i c b o x) {env gap T g r}
    (hr : runSlot s0.params (slotKindOf o) b.profile env = .finished r T) (ha : afterSlot (opAfter o (gap + T)) r = .nextSlot o') :
    ∃ u y, runEvents (slotEvents i gap env T g) s = .next u ∧ Holding s0 u i c b o' y ∧ ((slotKindOf o).captures = false → u.rxe = s.rxe) := by
  rw [← h.rest.1] at hr
  obtain ⟨w, hrun, hl⟩ := slot_completes (g := g) (gap := gap) h.coh h.hx h.hf h.hb h.hs h.ho hr
  have hw := h.coh.wired h.hx h.hb
  rw [slotDone_nextSlot hw hl h.hl ha] at hrun
  refine ⟨_, { w.inst with op := some o' }, hrun, ⟨runEvents_coherent h.coh hrun, by rw [inst_setInst, if_pos rfl, hw.inst_scatter_self]; rfl, hl.frame.2.2.2.trans h.hf, hl.frame.1.trans h.hb, hl.session, hl.frame.2.1.trans h.hl, hl.frame.2.2.1.trans h.hw, rfl, ?_, ?_, ?_, ?_⟩, ?_⟩
  · intro j hj; rw [inst_setInst, if_neg (Ne.symm hj), inst_scatter, if_neg (Ne.symm hj)]; exact h.insts j hj
  · intro k
    refine ⟨fun hk => ?_, fun hk => ?_⟩
    · simp only [setInst_tx_read]; rw [tx_scatter, if_neg (Ne.symm hk)]; exact (h.engines k).1 hk
    · simp only [setInst_rx_read]; rw [rx_scatter, if_neg (Ne.symm hk)]; exact (h.engines k).2 hk
  · simpa using h.owners
  · simpa using h.rest
  · intro hk
    have hrx := hl.kept hk
    simp only [setInst_rxe, scatter_rxe]
    obtain ⟨hi, e⟩ := List.getElem?_eq_some_iff.1 hrx
    rw [← e]; simp

/-- A command of one slot, from its issue to its response. -/
theorem holding_single {s : State} {x : Inst} {b : Binding} (h : Ready s x b) {cmd : Instr} {q : BusCmd} (hq : busCmdOf cmd = some q)
   {env gap T g r st d} (hr : runSlot s.params (slotKindOf (opStart q)) b.profile env = .finished r T) (ha : afterSlot (opAfter (opStart q) (gap + T)) r = .finished st d) :
   ∃ u, Completes cmd s b (slotEvents s.port.inst gap env T g) (responseWord st d) (gap + T) u ∧ u.Coherent ∧ ((slotKindOf (opStart q)).captures = false → u.rxe = s.rxe) := by
  obtain ⟨t, he, hrx, hm⟩ := holding_start h hq
  obtain ⟨u, h1, h2, h3, h4, h5, h6, h7, h8, h9, h10⟩ := holding_finish (g := g) hm hr ha
  refine ⟨u, ⟨⟨t, he, h1⟩, ?_, h3, h4, h5, h6, h7, h8⟩, h9, fun hk => (h10 hk).trans hrx⟩
  rw [h2]; simp [answered, opStart]

theorem byteEvents_succ (i n gap env T g) : byteEvents i (n+1) gap env T g = byteEvents i n gap env T g ++ slotEvents i (gap n) (env n) (T n) g := by
  simp [byteEvents, List.range_succ]

theorem byteTicks_succ (n : Nat) (gap T : Nat → Nat) : byteTicks (n+1) gap T = byteTicks n gap T + (gap n + T n) := by
  simp [byteTicks, List.range_succ]

end Sys2Proof.Machine
end

