-- ==== Sys2Proof/Laws/PerInstr.lean ====
section
/-! SUPPORT. Statements made per command: an encoding has the length that R107 reads from its first word. -/

namespace Sys2Proof.Laws.EncodedLength

/-- The encoding of the command is a first word and as many operand words as `CommandLength` asks of it (R107). -/
def Statement (i : Instr) : Prop :=
  ∃ cw ows, encode i = cw :: ows ∧ ows.length + 1 = commandLength cw

theorem validate (sel : ProfileSel) : Statement (.validate sel) := by
  refine ⟨_, _, rfl, ?_⟩
  cases sel with
  | std => rfl
  | od => rfl
  | custom p =>
    show 8 = commandLength (0#6 ++ 0b10#2 ++ 0#16 ++ 0#4 ++ 0x1#4)
    decide

theorem reset : Statement .reset := ⟨_, _, rfl, rfl⟩

theorem writeBit (b : Bool) : Statement (.writeBit b) := by
  refine ⟨_, _, rfl, ?_⟩
  cases b <;> rfl

theorem readBit : Statement .readBit := ⟨_, _, rfl, rfl⟩

theorem writeByte (v : Byte) : Statement (.writeByte v) := by
  refine ⟨_, _, rfl, ?_⟩
  obtain ⟨h, -, -⟩ := writeByteWord_fields v
  simp [commandLength, commandWord, h]

theorem readByte : Statement .readByte := ⟨_, _, rfl, rfl⟩

theorem bind (pin : Pin) (tx rx : Chan) (sel : ProfileSel) : Statement (.bind pin tx rx sel) := by
  refine ⟨_, _, rfl, ?_⟩
  obtain ⟨h, hs, -⟩ := bindWord_fields (pselOf sel) rx tx pin
  simp only [commandLength, commandWord, h, hs]
  cases sel <;> rfl

theorem unbind : Statement .unbind := ⟨_, _, rfl, rfl⟩

end Sys2Proof.Laws.EncodedLength
end

