-- ==== Sys2Proof/Laws/Waveform.lean ====
section
/-! SUPPORT. What a validated profile gives, the levels of the encoders' sequences and of a healthy bus, and the runs of a
waveform as a sequence (R174, R202, R219). -/

namespace Sys2Proof.Machine

/-- The comparisons a validated profile gives (R143 to R146). -/
theorem validProfile_facts {p : Params} {P : Profile} (h : validProfile p P = true) :
   0 < P.resetLow ∧ 0 < P.write1Low ∧ 0 < P.write1High ∧ 0 < P.write0Low ∧ 0 < P.write0High ∧ 0 < P.sampleOffset ∧ 0 < P.rxIdleGap ∧ P.write1Low < P.write0Low ∧ P.sampleOffset < P.rxIdleGap ∧
    (p.validateExtra = true → P.write0Low < P.rxIdleGap) := by
  simp only [validProfile, checkV1, checkV2, checkV3, checkV4, checkV5, Bool.and_eq_true, bne_iff_ne, ne_eq, decide_eq_true_eq, Bool.or_eq_true, Bool.not_eq_true'] at h
  obtain ⟨⟨⟨h1, h2⟩, h3⟩, h4⟩ := h
  refine ⟨by omega, by omega, by omega, by omega, by omega, by omega, by omega, h2, h3, fun he => ?_⟩
  rcases h4 with h4 | h4
  · rw [he] at h4; cases h4
  · omega

/-- A low item and a high item as a waveform. -/
theorem levelAt_lowHigh (a b : Nat) (t : Nat) : levelAt [⟨.low, a⟩, ⟨.high, b⟩] t = if t < a then .low else .high := by
  simp only [levelAt, levelFrom]
  by_cases h : t < a
  · rw [if_pos (by omega), if_pos h]
  · rw [if_neg (by omega), if_neg h]; simp

/-- The line of a healthy bus with no responder. -/
theorem line_silent (a b t : Nat) : line (healthyBus []) [⟨.low, a⟩, ⟨.high, b⟩] t = if t < a then .low else .high := by
  simp only [line, healthyBus, levelAt_lowHigh]
  by_cases h : t < a <;> simp [h, levelAt, levelFrom]

/-- A responder that is low over the ticks `s .. e-1`. -/
theorem level_lowOver (s e t : Nat) (h : s ≤ e) : levelAt (lowOver s e) t = if s ≤ t ∧ t < e then .low else .high := by
  simp only [levelAt, lowOver, levelFrom, Nat.zero_add]
  by_cases h1 : t < s
  · rw [if_pos (by omega), if_neg (by omega)]
  · rw [if_neg (by omega)]
    have : s + (e - s) = e := by omega
    rw [this]

/-- The line of a healthy bus with one responder pulse. -/
theorem line_pulse (a b s e t : Nat) (h : s ≤ e) : line (healthyBus (lowOver s e)) [⟨.low, a⟩, ⟨.high, b⟩] t = if t < a ∨ (s ≤ t ∧ t < e) then .low else .high := by
  simp only [line, healthyBus, levelAt_lowHigh, level_lowOver _ _ _ h]
  by_cases h1 : t < a <;> by_cases h2 : s ≤ t ∧ t < e <;> simp [h1, h2]

/-- A capture of one low stretch and then silence. -/
theorem capture_oneLow {obs : Nat → Level} {n G D M : Nat} (hn : 0 < n) (hG : 0 < G) (hM : 1 ≤ M) (hD : n + G ≤ D)
   (h1 : ∀ t, t < n → obs t = .low) (h2 : ∀ t, n ≤ t → t < n + G → obs t = .high) :
   capture obs G D true M = .batch [⟨.low, n⟩] (n + G) := by
  have e1 := runsOf_start obs hn h1
  have e2 := runsOf_other obs (init := []) e1 (v := .high) (by decide) hG h2
  rw [capture_gap hG hD e2 (by simp [dur]), if_neg (by simp; omega)]
  · rfl
  · intro y hy; simp at hy; subst hy; simp

/-- Runs alternate in level, and none is empty. -/
theorem runsOf_alternate (obs : Nat → Level) (n : Nat) : (runsOf obs n).IsChain (fun a b => a.level ≠ b.level) ∧ (∀ x ∈ runsOf obs n, 0 < x.dur) := by
  induction n with
  | zero => simp [runsOf]
  | succ n ih =>
    cases n with
    | zero => simp [runsOf, addTick]
    | succ n =>
      obtain ⟨init, d, h, h0, hd⟩ := runsOf_succ obs n
      have e : runsOf obs (n + 1 + 1) = addTick (runsOf obs (n + 1)) (obs (n + 1)) := rfl
      rw [e, h, addTick_append]
      rw [h] at ih
      obtain ⟨i1, i2⟩ := ih
      split
      · rename_i hl; simp only at hl
        refine ⟨?_, ?_⟩
        · rw [List.isChain_append] at i1 ⊢
          refine ⟨i1.1, by simp, ?_⟩
          intro a ha b hb; have := i1.2.2 a ha ⟨obs n, d⟩ (by simp); simp at hb; subst hb; simpa [hl] using this
        · intro x hx; simp at hx; rcases hx with hx | rfl
          · exact i2 x (by simp [hx])
          · simp
      · rename_i hl; simp only at hl
        refine ⟨?_, ?_⟩
        · have : init ++ [⟨obs n, d⟩, ⟨obs (n+1), 1⟩] = (init ++ [⟨obs n, d⟩]) ++ [⟨obs (n+1), 1⟩] := by simp
          rw [this, List.isChain_append]
          refine ⟨i1, by simp, ?_⟩
          intro a ha b hb; simp at ha hb; subst ha; subst hb; exact hl
        · intro x hx; simp at hx; rcases hx with hx | rfl | rfl
          · exact i2 x (by simp [hx])
          · exact h0
          · simp

/-- The level past the items of a first part. -/
theorem levelFrom_append (s : Nat) (a b : Seq) (t : Nat) (ht : s + dur a ≤ t) : levelFrom s (a ++ b) t = levelFrom (s + dur a) b t := by
  induction a generalizing s with
  | nil => simp [dur]
  | cons x xs ih =>
    simp only [dur] at ht
    rw [List.cons_append, levelFrom, if_neg (by omega), ih _ (by omega)]
    simp [dur, Nat.add_assoc]

/-- The level within the items of a first part. -/
theorem levelFrom_append_lt (s : Nat) (a b : Seq) (t : Nat) (ht : t < s + dur a) (h0 : s ≤ t) : levelFrom s (a ++ b) t = levelFrom s a t := by
  induction a generalizing s with
  | nil => simp [dur] at ht; omega
  | cons x xs ih =>
    simp only [dur] at ht
    rw [List.cons_append, levelFrom, levelFrom]
    split
    · rfl
    · exact ih _ (by omega) (by omega)

/-- Runs give the waveform back. -/
theorem levelAt_runsOf (obs : Nat → Level) (n t : Nat) (ht : t < n) : levelAt (runsOf obs n) t = obs t := by
  induction n with
  | zero => omega
  | succ n ih =>
    cases n with
    | zero => have : t = 0 := by omega
              subst this; simp [runsOf, addTick, levelAt, levelFrom]
    | succ n =>
      obtain ⟨init, d, h, h0, hd⟩ := runsOf_succ obs n
      have e : runsOf obs (n + 1 + 1) = addTick (runsOf obs (n + 1)) (obs (n + 1)) := rfl
      rw [e, h, addTick_append]
      rw [h] at ih
      simp only [levelAt] at ih ⊢
      by_cases hlt : t < dur init
      · have i := ih (by omega)
        rw [levelFrom_append_lt _ _ _ _ (by omega) (by omega)] at i
        split <;> rw [levelFrom_append_lt _ _ _ _ (by omega) (by omega)] <;> exact i
      · by_cases he : t = n + 1
        · subst he
          split
          · rw [levelFrom_append _ _ _ _ (by omega)]; simp only [levelFrom]; rw [if_pos (by omega)]
          · rw [levelFrom_append _ _ _ _ (by omega)]; simp only [levelFrom]; rw [if_neg (by omega), if_pos (by omega)]
        · have i := ih (by omega)
          rw [levelFrom_append _ _ _ _ (by omega)] at i
          simp only [levelFrom] at i
          rw [if_pos (by omega)] at i
          split
          · rename_i hl
            rw [levelFrom_append _ _ _ _ (by omega)]; simp only [levelFrom]; rw [if_pos (by omega), ← hl]; exact i
          · rw [levelFrom_append _ _ _ _ (by omega)]; simp only [levelFrom]; rw [if_pos (by omega)]; exact i

/-- Where the idle gap stands among the runs. -/
theorem idleTick_some {G : Nat} (rs : Seq) (s T : Nat) (h : idleTick G s rs = some T) : ∃ init d rest, rs = init ++ ⟨.high, d⟩ :: rest ∧ NoGap G init ∧ G ≤ d ∧ T = s + dur init + G := by
  induction rs generalizing s with
  | nil => cases h
  | cons x xs ih =>
    rw [idleTick] at h
    split at h
    · rename_i hx
      cases h
      exact ⟨[], x.dur, xs, by obtain ⟨l, d⟩ := x; simp at hx; simp [hx], (by intro y hy; cases hy), hx.2, by simp [dur]⟩
    · rename_i hx
      obtain ⟨init, d, rest, e, h1, h2, h3⟩ := ih _ h
      refine ⟨x :: init, d, rest, by rw [e]; rfl, ?_, h2, by rw [h3]; simp [dur, Nat.add_assoc]⟩
      intro y hy; rcases List.mem_cons.1 hy with rfl | hy
      · exact hx
      · exact h1 y hy

/-- Runs last as long as the waveform they are of. -/
theorem dur_runsOf (obs : Nat → Level) (n : Nat) : dur (runsOf obs n) = n := by
  cases n with
  | zero => rfl
  | succ n => obtain ⟨init, d, h, h0, hd⟩ := runsOf_succ obs n; rw [h, dur_append]; simpa [dur] using hd

/-- If any run is completed, the first one is. -/
theorem completedBefore_head {T s : Nat} {z : Item} {zs : Seq} (hne : completedBefore T s (z :: zs) ≠ []) : ∃ r, completedBefore T s (z :: zs) = z :: r := by
  rw [completedBefore] at hne ⊢
  split
  · exact ⟨_, rfl⟩
  · rename_i h
    rw [if_neg h, completedBefore_late (by omega)] at hne
    exact absurd rfl hne

end Sys2Proof.Machine
end

