-- ==== Sys2Proof/Tests/Slice0.lean ====
section
/-! SUPPORT. Tests of the model against the vectors of spec/95_test_vectors.md, and for each statement with hypotheses a
state and operands that meet them. -/

namespace Sys2Proof.Tests

open Sys2Proof.Machine

/-! ### Well-formedness (R106): each of the seven durations too long for its operand word -/

/-- The longest durations an operand word can hold (R10). -/
def longest : Profile := ⟨32767, 32767, 32767, 32767, 32767, 32767, 32767⟩

theorem test_wf_longest : (Instr.validate (.custom longest)).wf = true := by decide
theorem test_wf_resetLow : (Instr.validate (.custom { longest with resetLow := 32768 })).wf = false := by decide
theorem test_wf_write1Low : (Instr.validate (.custom { longest with write1Low := 32768 })).wf = false := by decide
theorem test_wf_write1High : (Instr.validate (.custom { longest with write1High := 32768 })).wf = false := by decide
theorem test_wf_write0Low : (Instr.validate (.custom { longest with write0Low := 32768 })).wf = false := by decide
theorem test_wf_write0High : (Instr.validate (.custom { longest with write0High := 32768 })).wf = false := by decide
theorem test_wf_sampleOffset :
    (Instr.bind 4#8 0#4 1#4 (.custom { longest with sampleOffset := 32768 })).wf = false := by decide
theorem test_wf_rxIdleGap :
    (Instr.bind 4#8 0#4 1#4 (.custom { longest with rxIdleGap := 32768 })).wf = false := by decide

/-! ### Words (E-1 to E-21), each written from the encoding of R104 -/

/-- Seven operand words: the Standard profile of S1 in the order of R106. -/
def standardWords : List Word :=
  [0x000001E0#32, 0x00000006#32, 0x00000040#32, 0x0000003C#32, 0x0000000A#32, 0x0000000D#32, 0x00000048#32]

theorem test_decode_validate : decode [0x01000001#32] = .ok (.validate .od) := by decide
theorem test_decode_validate_custom :
    decode (0x02000001#32 :: standardWords) = .ok (.validate (.custom ⟨480, 6, 64, 60, 10, 13, 72⟩)) := by decide
theorem test_decode_reset : decode [0x00000002#32] = .ok .reset := by decide
theorem test_decode_writeBit : decode [0x00000103#32] = .ok (.writeBit true) := by decide
theorem test_decode_readBit : decode [0x00000004#32] = .ok .readBit := by decide
theorem test_decode_writeByte : decode [0x0000A505#32] = .ok (.writeByte 0xA5#8) := by decide
theorem test_decode_readByte : decode [0x00000006#32] = .ok .readByte := by decide
theorem test_decode_bind : decode [0x01320507#32] = .ok (.bind 5#8 2#4 3#4 .od) := by decide
theorem test_decode_bind_custom :
    decode (0x02100407#32 :: standardWords) =
      .ok (.bind 4#8 0#4 1#4 (.custom ⟨480, 6, 64, 60, 10, 13, 72⟩)) := by decide
theorem test_decode_unbind : decode [0x00000008#32] = .ok .unbind := by decide

/-- E-13, E-14, and `OP = 0x9` at its lower edge. -/
theorem test_illegal_opcode :
    decode [0x00000000#32] = .illegal .opcode ∧ decode [0x00000009#32] = .illegal .opcode ∧
    decode [0x0000000F#32] = .illegal .opcode := by decide

/-- E-15, E-16, E-18, E-19, E-20. -/
theorem test_illegal_reserved :
    decode [0x00000012#32] = .illegal .reservedBit ∧ decode [0x00000203#32] = .illegal .reservedBit ∧
    decode [0x04100407#32] = .illegal .reservedBit ∧ decode [0x01000002#32] = .illegal .reservedBit ∧
    decode [0x00000104#32] = .illegal .reservedBit := by decide

/-- E-17. -/
theorem test_illegal_psel : decode [0x03000001#32] = .illegal .profileSelect := by decide

/-- E-21, and an operand bit at the lower edge of the field. -/
theorem test_illegal_operand :
    decode (0x02000001#32 :: 0x000101E0#32 :: standardWords.tail) = .illegal .operandBits ∧
    decode (0x02000001#32 :: 0x00008000#32 :: standardWords.tail) = .illegal .operandBits := by decide

/-- R77: a custom VALIDATE short of a word is no command. -/
theorem test_incomplete : decode (0x02000001#32 :: standardWords.tail) = .incomplete := by decide

/-- R76: the bytes of one word. -/
theorem test_bytes : bytesOfWords [0x0000A505#32] = [0x05#8, 0xA5#8, 0x00#8, 0x00#8] := by decide

/-- Both forms of a row as the opcode table numbers its bits. -/
theorem test_tableWord :
    decodeTableWord 32 0x0000A505 = some (.writeByte 0xA5#8) ∧
    decodeTableWord 32 0x02000001 = some (.validate (.custom ⟨0, 0, 0, 0, 0, 0, 0⟩)) := by decide

/-! ### Responses, items, profiles and the codec (W, V, EN, DP, RB) -/

/-- W-1 to W-6. -/
theorem test_responses :
    responseWord .ok 0#8 = 0x00000000#32 ∧ responseWord .ok 1#8 = 0x00000100#32 ∧
    responseWord .ok 0xCC#8 = 0x0000CC00#32 ∧ responseWord .timingError 0#8 = 0x00000001#32 ∧
    responseWord .initError 0#8 = 0x00000002#32 ∧ responseWord .captureTimeout 0#8 = 0x00000003#32 := by decide

/-- W-7 to W-9. -/
theorem test_items :
    [⟨.low, 480⟩, ⟨.high, 72⟩, ⟨.low, 1⟩, ⟨.high, 32767⟩].map encodeItem =
      [0x01E0#16, 0x8048#16, 0x0001#16, 0xFFFF#16] ∧
    decodeItem 0x803C#16 = ⟨.high, 60⟩ := by decide

/-- The profiles of V-1 to V-14. -/
def vProfiles : List Profile := [
  ⟨480, 6, 64, 60, 10, 13, 72⟩, ⟨70, 1, 8, 8, 3, 3, 13⟩, ⟨0, 6, 64, 60, 10, 13, 72⟩, ⟨480, 6, 64, 60, 0, 13, 72⟩,
  ⟨480, 6, 64, 60, 10, 13, 0⟩, ⟨480, 60, 64, 60, 10, 13, 72⟩, ⟨480, 60, 10, 6, 64, 13, 72⟩,
  ⟨480, 6, 64, 60, 10, 72, 72⟩, ⟨480, 6, 64, 60, 10, 71, 72⟩, ⟨480, 6, 64, 60, 10, 60, 72⟩,
  ⟨480, 6, 64, 60, 10, 13, 64⟩, ⟨1, 1, 1, 2, 1, 1, 3⟩, ⟨480, 2, 64, 60, 10, 1, 72⟩, ⟨70, 1, 8, 8, 3, 3, 13⟩]

theorem test_validation :
    vProfiles.map (validProfile Params.default) =
      [true, true, false, false, false, false, false, false, false, false, false, true, true, true] ∧
    vProfiles.map (validProfile { Params.default with validateExtra := false }) =
      [true, true, false, false, false, false, false, false, true, true, true, true, true, true] := by decide

/-- EN-1 to EN-4. -/
theorem test_encoders :
    [SlotKind.resetSlot, .writeSlot true, .writeSlot false, .readSlot].map (fun k => (txSeq k standard, dur (txSeq k overdrive))) =
      [([⟨.low, 480⟩, ⟨.high, 72⟩], 83), ([⟨.low, 6⟩, ⟨.high, 64⟩], 9), ([⟨.low, 60⟩, ⟨.high, 10⟩], 11),
        ([⟨.low, 6⟩, ⟨.high, 64⟩], 9)] := by decide

/-- DP-2, DP-4 to DP-9, DP-10 and DP-11. -/
theorem test_presence :
    [[⟨.low, 480⟩], [⟨.low, 480⟩, ⟨.high, 1⟩, ⟨.low, 100⟩], [⟨.low, 480⟩, ⟨.high, 71⟩, ⟨.low, 100⟩],
      [⟨.low, 480⟩, ⟨.high, 72⟩, ⟨.low, 100⟩], [⟨.low, 600⟩],
      [⟨.low, 480⟩, ⟨.high, 5⟩, ⟨.low, 2⟩, ⟨.high, 13⟩, ⟨.low, 120⟩],
      [⟨.low, 100⟩, ⟨.high, 10⟩, ⟨.low, 370⟩, ⟨.high, 200⟩, ⟨.low, 5⟩]].map (decodePresence · standard) =
      [.absent, .present, .present, .absent, .absent, .present, .absent] ∧
    [[⟨.low, 70⟩, ⟨.high, 2⟩, ⟨.low, 8⟩], [⟨.low, 70⟩, ⟨.high, 13⟩, ⟨.low, 8⟩]].map (decodePresence · overdrive) =
      [.present, .absent] := by decide

/-- RB-1 to RB-8, RB-14, RB-11 and RB-12. -/
theorem test_readBit :
    [[], [⟨.low, 6⟩], [⟨.low, 13⟩], [⟨.low, 14⟩], [⟨.low, 60⟩], [⟨.low, 6⟩, ⟨.high, 3⟩, ⟨.low, 2⟩],
      [⟨.low, 6⟩, ⟨.high, 6⟩, ⟨.low, 5⟩], [⟨.low, 6⟩, ⟨.high, 7⟩, ⟨.low, 5⟩],
      [⟨.low, 0⟩, ⟨.high, 5⟩, ⟨.low, 20⟩]].map (decodeReadBit · standard) =
      [true, true, true, false, false, true, false, false, false] ∧
    [[⟨.low, 1⟩], [⟨.low, 8⟩]].map (decodeReadBit · overdrive) = [true, false] := by decide

/-- CS-19 and CS-20: the margin 0, and a sequence that outlasts the idle gap. -/
theorem test_slots_standard :
    runSlot { Params.default with captureMargin := 0 } .readSlot standard (healthyBus []) = .finished (.bit true) 78 ∧
    runSlot { Params.default with captureMargin := 0, validateExtra := false } .readSlot ⟨480, 6, 64, 60, 10, 13, 20⟩
      (healthyBus []) = .finished (.bit true) 70 := by decide +kernel

/-- CS-14, CS-15 and CS-16 with a smaller margin, on which their outcomes do not depend (R219). -/
theorem test_slots_overdrive :
    runSlot { Params.default with captureMargin := 30 } .readSlot overdrive (healthyBus (lowOver 0 8)) =
      .finished (.bit false) 21 ∧
    runSlot { Params.default with captureMargin := 30 } .resetSlot overdrive (healthyBus []) =
      .finished (.presence .absent) 83 ∧
    runSlot { Params.default with captureMargin := 30 } .resetSlot overdrive (healthyBus (lowOver 75 91)) =
      .finished (.presence .present) 104 := by decide +kernel

/-! ### Small states -/

/-- Four channels, two pins, room for three items. -/
def tiny : Params := ⟨4, [4#8, 5#8], 1000, 10, 1, 3, true⟩

/-- Power-on of two instances. -/
def small : State := State.powerOn tiny 2

/-- V-12, the smallest profile that passes every check. -/
def p12 : Profile := ⟨1, 1, 1, 2, 1, 1, 3⟩

/-- The words of BIND pin 4, tx 0, rx 1 with `p12`. -/
def bindWords : List Word := [0x02100407#32, 1#32, 1#32, 1#32, 2#32, 1#32, 1#32, 3#32]

/-- What the moves leave of the small state. -/
def after (es : List Event) : State :=
  match runEvents es small with
  | .next t    => t
  | .fault _   => small
  | .refused _ => small

/-- The state with these moves placed. -/
def placed (s : State) (es : List Event) : State := { s with script := es }

/-- The state with a command of caller `c` at the port of instance 0. -/
def atPort (s : State) (c : Nat) : State := s.accept 0 c true

def issueBind : Event := .issue 0 7 bindWords true

/-- Instance 0 bound, at rest. -/
def sBound : State := after [issueBind]

def issueOf (c : Nat) (w : Word) : Event := .issue 0 c [w] true

/-- RESET in flight, its slot not begun. -/
def sReset : State := after [issueBind, issueOf 8 0x00000002#32]

/-- RESET in flight, capturing, one tick done. -/
def sCapturing : State :=
  after [issueBind, issueOf 8 0x00000002#32, .trigger 0 (healthyBus []), .tick 0 0]

/-- WRITE_BIT 1 in flight, triggered, one tick done. -/
def sTriggered : State :=
  after [issueBind, issueOf 8 0x00000103#32, .trigger 0 (healthyBus []), .tick 0 0]

/-- Instance 0 of a state. -/
def inst0 (s : State) : Inst := s.insts.headD Inst.powerOn

def bind12 : Binding := ⟨4#8, 0#4, 1#4, p12⟩

theorem small_coherent : small.Coherent := by
  have hi : ∀ i x, small.inst? i = some x → x = Inst.powerOn := by
    intro i x h
    simp only [small, State.powerOn, State.inst?] at h
    exact List.eq_of_mem_replicate (List.mem_of_getElem? h)
  refine ⟨by decide, by decide, by decide, ⟨by decide, by decide, by decide, by decide, ?_, ?_, ?_⟩, ?_, ?_⟩
  · intro i x b h hb; rw [hi i x h] at hb; cases hb
  · intro c i h; cases h
  · intro c i h; cases h
  · intro i x h; rw [hi i x h]; exact ⟨by decide, by decide, by decide, by decide, by decide⟩
  · intro i x b tx rx h _ hb; rw [hi i x h] at hb; cases hb

theorem after_coherent (es : List Event) : (after es).Coherent := by
  unfold after
  split
  · exact runEvents_coherent small_coherent ‹_›
  · exact small_coherent
  · exact small_coherent

theorem placed_coherent {s : State} (h : s.Coherent) (es : List Event) : (placed s es).Coherent :=
  h.congr rfl rfl rfl rfl rfl rfl h.callers

theorem atPort_coherent {s : State} (h : s.Coherent) {c : Nat} (hc : c ∉ s.blocked) : (atPort s c).Coherent :=
  h.congr rfl rfl rfl rfl rfl rfl (by simpa [atPort, State.accept] using ⟨hc, h.callers⟩)

theorem bound_live : LiveBound (atPort sBound 8) 0 (inst0 sBound) bind12 :=
  ⟨by decide +kernel, by decide +kernel, by decide +kernel⟩

/-! ### One command each, at the port of instance 0 -/

/-- The state an outcome goes on with. -/
def nextOf (r : Result) : State :=
  match r with
  | .next t    => t
  | .fault _   => small
  | .refused _ => small

/-- The responses as `(instance, caller, word, ticks)`. -/
def answers (s : State) : List (Nat × Nat × Word × Nat) := s.responses.map fun r => (r.inst, r.caller, r.word, r.ticks)

/-- LC-14 and V-6: VALIDATE needs no binding, and rejects `write1Low = write0Low`. -/
theorem test_validate :
    answers (nextOf (exec (.validate .od) (atPort small 8))) = [(0, 8, 0x00000000#32, 0)] ∧
    answers (nextOf (exec (.validate (.custom ⟨480, 60, 64, 60, 10, 13, 72⟩)) (atPort small 8))) =
      [(0, 8, 0x00000001#32, 0)] := by decide +kernel

/-- LC-1: what a BIND owns. -/
theorem test_bind :
    answers (nextOf (exec (.bind 4#8 0#4 1#4 .std) (atPort small 8))) = [(0, 8, 0x00000000#32, 0)] ∧
    (nextOf (exec (.bind 4#8 0#4 1#4 .std) (atPort small 8))).chanOwner = [(0, 0), (1, 0)] ∧
    (nextOf (exec (.bind 4#8 0#4 1#4 .std) (atPort small 8))).pinOwner = [(4, 0)] := by decide +kernel

/-- LC-2, LC-4, LC-10: `tx = rx`; a bad profile before a channel that does not exist; a bound instance. -/
theorem test_bind_rejects :
    answers (nextOf (exec (.bind 4#8 0#4 0#4 .std) (atPort small 8))) = [(0, 8, 0x00000002#32, 0)] ∧
    answers (nextOf (exec (.bind 4#8 8#4 9#4 (.custom ⟨480, 6, 64, 60, 10, 72, 72⟩)) (atPort small 8))) =
      [(0, 8, 0x00000001#32, 0)] ∧
    (inst0 (nextOf (exec (.bind 5#8 2#4 3#4 .std) (atPort sBound 8)))).fault = some .alreadyBound := by decide +kernel

/-- LC-11 and LC-13: UNBIND at rest gives everything back, and in flight it is a fault. -/
theorem test_unbind :
    inst0 (nextOf (exec .unbind (atPort sBound 8))) = Inst.powerOn ∧
    (nextOf (exec .unbind (atPort sBound 8))).chanOwner = [] ∧
    (inst0 (nextOf (exec .unbind (atPort sCapturing 9)))).fault = some .inFlightMutation := by decide +kernel

/-- BC-13, and a RESET that takes the lock. -/
theorem test_reset :
    (inst0 (nextOf (exec .reset (atPort small 8)))).fault = some .notBound ∧
    (inst0 (nextOf (exec .reset (atPort sBound 8)))).lock = .held 8 := by decide +kernel

/-- A WRITE_BIT waits for a held lock with its operand (R36). -/
theorem test_writeBit :
    (inst0 (nextOf (exec (.writeBit true) (atPort sReset 9)))).waiters = [⟨9, .writeBit true⟩] := by decide +kernel

theorem test_readBit_starts :
    (inst0 (nextOf (exec .readBit (atPort sBound 8)))).op = some ⟨.readBit, 0, 0#8, 0⟩ := by decide +kernel

/-- BC-7: the slots of WRITE_BYTE 0xCC carry 0, 0, 1, 1, 0, 0, 1, 1. -/
theorem test_writeByte :
    ([0, 1, 2, 3, 4, 5, 6, 7] : List (Fin 8)).map (fun j => slotKindOf ⟨.writeByte 0xCC#8, j, 0#8, 0⟩) =
      [.writeSlot false, .writeSlot false, .writeSlot true, .writeSlot true, .writeSlot false, .writeSlot false,
        .writeSlot true, .writeSlot true] := by decide

/-- P2: the byte is complete after the bit of slot 7, from what the slots before it gave. -/
theorem test_readByte : afterReadByte ⟨.readByte, 7, 0x4C#8, 0⟩ (.bit true) = .finished .ok 0xCC#8 := by decide

/-- E-22 on the first instruction after reset: an illegal word is no `F_NOT_BOUND`. -/
theorem test_illegal_first :
    (inst0 (nextOf (step (State.reset.withFetchWord 32 0x00000012)))).fault = some .illegalCommand := by decide +kernel

/-- `step` runs the placed word first. -/
theorem test_withFetchWord :
    answers (nextOf (step (State.reset.withFetchWord 32 0x01320507))) = [(0, 0, 0x00000000#32, 0)] := by decide +kernel

/-! ### Witnesses: for each statement with hypotheses, data that meet them -/

theorem witness_decodeEncode :
    (Instr.bind 255#8 15#4 0#4 (.custom longest)).wf = true ∧ (Instr.validate (.custom longest)).wf = true ∧
    (Instr.writeByte 0xFF#8).wf = true := by decide

/-- The longest durations and the highest fields come back. -/
theorem witness_decodedWords :
    decode (0x020F5F07#32 :: List.replicate 7 0x00007FFF#32) = .ok (.bind 95#8 15#4 0#4 (.custom longest)) ∧
    decode [0x00000001#32] = .ok (.validate .std) := by decide

theorem witness_oneRow :
    decode [0x0000FF05#32] = .ok (.writeByte 0xFF#8) ∧ ⟨.writeByte, 0x00000005#32, 0xFFFF00FF#32⟩ ∈ opcodeRows ∧
    ⟨.writeBit, 0x00000003#32, 0xFFFFFEFF#32⟩ ∈ opcodeRows := by decide

/-- Complete words of each case, at the edges of the fields, and a legal one. -/
theorem witness_illegalCases :
    ([] : List Word).length + 1 = commandLength 0x00000000#32 ∧ isIllegal [0x00000000#32] = true ∧
    isIllegal [0x00000009#32] = true ∧ isIllegal [0x0000000F#32] = true ∧ isIllegal [0x80000008#32] = true ∧
    isIllegal [0x03000007#32] = true ∧ isIllegal (0x02000001#32 :: List.replicate 7 0x00008000#32) = true ∧
    (List.replicate 7 (0x00007FFF#32 : Word)).length + 1 = commandLength 0x02000001#32 ∧
    isIllegal (0x02000001#32 :: List.replicate 7 0x00007FFF#32) = false ∧ isIllegal [0x00000008#32] = false := by decide

theorem witness_illegalRaises :
    small.inst? 0 = some Inst.powerOn ∧ Inst.powerOn.fault = none ∧ 8 ∉ small.blocked ∧
    isIllegal [0x00000012#32] = true := by decide

theorem witness_itemWord :
    1 ≤ (⟨.low, 1⟩ : Item).dur ∧ (⟨.high, 32767⟩ : Item).dur ≤ 32767 ∧ decodeItem (encodeItem ⟨.high, 32767⟩) = ⟨.high, 32767⟩ ∧
    decodeItem (encodeItem ⟨.low, 1⟩) = ⟨.low, 1⟩ := by decide

/-- Both sides of `VALIDATE_EXTRA`, and V-9, V-11, which only the extra checks reject. -/
theorem witness_validation :
    tiny.validateExtra = true ∧ validProfile tiny p12 = true ∧ validProfile tiny ⟨480, 6, 64, 60, 10, 71, 72⟩ = false ∧
    validProfile { tiny with validateExtra := false } ⟨480, 6, 64, 60, 10, 13, 64⟩ = true := by decide

theorem witness_validProfile : tiny.wf = true ∧ validProfile tiny p12 = true := by decide

/-- The first and the last tick of an item, and the tick past the end. -/
theorem witness_levelAt :
    ([⟨.low, 6⟩, ⟨.high, 7⟩] : Seq)[1]? = some ⟨.high, 7⟩ ∧ startOf [⟨.low, 6⟩, ⟨.high, 7⟩] 1 = 6 ∧
    levelAt [⟨.low, 6⟩, ⟨.high, 7⟩] 5 = .low ∧ levelAt [⟨.low, 6⟩, ⟨.high, 7⟩] 6 = .high ∧
    dur [⟨.low, 6⟩, ⟨.low, 7⟩] ≤ 13 ∧ levelAt [⟨.low, 6⟩, ⟨.low, 7⟩] 12 = .low ∧
    levelAt [⟨.low, 6⟩, ⟨.low, 7⟩] 13 = .high := by decide

/-- Presences at both edges of the window (DP-4, DP-5, DP-6). -/
theorem witness_firstPostResetLow :
    decodePresence [⟨.low, 480⟩, ⟨.high, 1⟩, ⟨.low, 100⟩] standard = .present ∧
    decodePresence [⟨.low, 480⟩, ⟨.high, 71⟩, ⟨.low, 100⟩] standard = .present ∧
    decodePresence [⟨.low, 480⟩, ⟨.high, 72⟩, ⟨.low, 100⟩] standard = .absent ∧
    decodePresence [⟨.low, 480⟩, ⟨.low, 100⟩] standard = .absent := by decide

/-- Both bits, the deadline at its lower edge. -/
theorem witness_loopedBack :
    tiny.wf = true ∧ validProfile tiny p12 = true ∧ p12.write1Low ≤ p12.sampleOffset ∧
    p12.sampleOffset < p12.write0Low ∧ (if true then p12.write1Low else p12.write0Low) + p12.rxIdleGap ≤ 4 ∧
    (if false then p12.write1Low else p12.write0Low) + p12.rxIdleGap ≤ 5 := by decide

/-- A batch with a high item one tick short of the gap, and an empty one. -/
theorem witness_batchForm :
    capture (levelAt [⟨.low, 1⟩, ⟨.high, 2⟩, ⟨.low, 1⟩]) 3 17 true 3 =
      .batch [⟨.low, 1⟩, ⟨.high, 2⟩, ⟨.low, 1⟩] 7 ∧
    capture (levelAt []) 3 17 true 3 = .batch [] 3 ∧
    (healthyBus []).txConnected = true := by decide

/-- A capture slot and a write slot about to be triggered. -/
theorem witness_triggerStarts :
    LiveBound sReset 0 (inst0 sReset) bind12 ∧ (inst0 sReset).session = .idle ∧
    (inst0 sReset).op = some ⟨.reset, 0, 0#8, 0⟩ ∧ (slotKindOf ⟨.reset, 0, 0#8, 0⟩).captures = true ∧
    sReset.tx? 0#4 = some ⟨false, none, none⟩ ∧ sReset.rx? 1#4 = some ⟨false, [], none, none, none⟩ ∧
    (slotKindOf ⟨.writeBit true, 0, 0#8, 0⟩).captures = false :=
  ⟨⟨by decide +kernel, by decide +kernel, by decide +kernel⟩, by decide +kernel, by decide +kernel, by decide,
    by decide +kernel, by decide +kernel, by decide⟩

theorem witness_triggerStarts_write :
    (inst0 (after [issueBind, issueOf 8 0x00000103#32])).op = some ⟨.writeBit true, 0, 0#8, 0⟩ ∧
    (inst0 (after [issueBind, issueOf 8 0x00000103#32])).session = .idle := by decide +kernel

/-- A responder that makes four items in a reset slot, one more than `tiny` has room for. -/
def noisy : SlotEnv := healthyBus [⟨.high, 2⟩, ⟨.low, 1⟩, ⟨.high, 1⟩, ⟨.low, 1⟩]

theorem witness_slotMatches :
    sReset.Coherent ∧ LiveBound sReset 0 (inst0 sReset) bind12 ∧ (inst0 sReset).session = .idle ∧
    (inst0 sReset).op = some ⟨.reset, 0, 0#8, 0⟩ ∧
    runSlot sReset.params .resetSlot p12 (healthyBus []) = .finished (.presence .absent) 4 ∧
    runSlot sReset.params .resetSlot p12 noisy = .overflow ∧
    captureRegs (inst0 sReset) (slotCapture sReset.params .resetSlot p12 (healthyBus [])) =
      (some 4, some [⟨.low, 1⟩]) :=
  ⟨after_coherent _, ⟨by decide +kernel, by decide +kernel, by decide +kernel⟩, by decide +kernel, by decide +kernel,
    by decide +kernel, by decide +kernel, by decide +kernel⟩

/-- The session of instance 0 after one step of a coherent state. -/
def sessionAfter (s : State) : Session := (inst0 (nextOf (step s))).session

/-- A state with this move placed, from these moves. -/
def about (es : List Event) (e : Event) : State := placed (after es) [e]

theorem about_coherent (es : List Event) (e : Event) : (about es e).Coherent := placed_coherent (after_coherent es) [e]

/-- The step goes on. -/
def goesOn (s : State) : Bool :=
  match step s with
  | .next _    => true
  | .fault _   => false
  | .refused _ => false

theorem step_of_goesOn {s : State} (h : goesOn s = true) : step s = .next (nextOf (step s)) := by
  unfold goesOn at h
  split at h <;> simp_all [nextOf]

/-- The moves of a slot up to its tick `n`. -/
def upTo (w : Word) (env : SlotEnv) (n : Nat) : List Event :=
  [issueBind, issueOf 8 w, .trigger 0 env] ++ List.replicate n (.tick 0 0)

/-- A slot of the moves `upTo`, with one more tick next: the session and the timer before it, the session after it. -/
def crossing (w : Word) (env : SlotEnv) (n : Nat) : Session × Option Nat × Session :=
  ((inst0 (after (upTo w env n))).session, (inst0 (after (upTo w env n))).sessT,
    sessionAfter (about (upTo w env n) (.tick 0 0)))

/-- No responder, and the master not connected. -/
def alone : SlotEnv := ⟨false, true, []⟩

/-- A dead capture channel. -/
def dead : SlotEnv := ⟨true, false, []⟩

/-- A line that comes up once and goes low to the end. -/
def stuck : SlotEnv := healthyBus [⟨.low, 2⟩, ⟨.high, 1⟩, ⟨.low, 100⟩]

/-- Every transition of R230, each by one step of a coherent state (`about_coherent`), with its tick: a trigger of each
kind, the end of a write slot, a batch taken while the sequence runs on, the end of that, a batch after the sequence, the
deadline with items and without. -/
theorem witness_sessionTransitions :
    goesOn (about [issueBind, issueOf 8 0x00000002#32] (.trigger 0 (healthyBus []))) = true ∧
    goesOn (about (upTo 0x00000002#32 (healthyBus []) 4) (.tick 0 0)) = true ∧
    ((inst0 (after [issueBind, issueOf 8 0x00000002#32])).session = .idle ∧
      sessionAfter (about [issueBind, issueOf 8 0x00000002#32] (.trigger 0 (healthyBus []))) = .capturing) ∧
    sessionAfter (about [issueBind, issueOf 8 0x00000103#32] (.trigger 0 (healthyBus []))) = .triggered ∧
    crossing 0x00000103#32 (healthyBus []) 2 = (.triggered, some 2, .idle) ∧
    crossing 0x00000002#32 alone 3 = (.capturing, some 3, .draining) ∧
    crossing 0x00000002#32 alone 4 = (.draining, some 4, .idle) ∧
    crossing 0x00000002#32 (healthyBus []) 4 = (.capturing, some 4, .idle) ∧
    crossing 0x00000002#32 stuck 17 = (.capturing, some 17, .idle) ∧
    crossing 0x00000002#32 dead 17 = (.capturing, some 17, .idle) := by decide +kernel

/-- The conditions of those transitions at their ticks, and a tick before, at which nothing happens. -/
theorem witness_transitionConditions :
    (after (upTo 0x00000002#32 alone 3)).rx? 1#4 = some ⟨true, [], some .high, some 3, some 3⟩ ∧
    (after (upTo 0x00000002#32 (healthyBus []) 4)).rx? 1#4 = some ⟨true, [⟨.low, 1⟩], some .high, some 3, some 4⟩ ∧
    (after (upTo 0x00000002#32 stuck 17)).rx? 1#4 =
      some ⟨true, [⟨.low, 2⟩, ⟨.high, 1⟩], some .low, some 14, some 17⟩ ∧
    (after (upTo 0x00000002#32 dead 17)).rx? 1#4 = some ⟨true, [], none, some 0, some 17⟩ ∧
    (inst0 (nextOf (step (about (upTo 0x00000002#32 stuck 17) (.tick 0 0))))).slotResult =
      some (.presence .absent) ∧
    (inst0 (nextOf (step (about (upTo 0x00000002#32 dead 17) (.tick 0 0))))).slotResult = some .captureTimeout ∧
    crossing 0x00000002#32 (healthyBus []) 3 = (.capturing, some 3, .capturing) ∧
    crossing 0x00000002#32 dead 16 = (.capturing, some 16, .capturing) := by decide +kernel

/-- What a tick finds in a capture, as the two statements about ticks name it. -/
theorem witness_slotAt :
    SlotAt (about (upTo 0x00000002#32 (healthyBus []) 4) (.tick 0 0)) (inst0 (after (upTo 0x00000002#32 (healthyBus []) 4)))
      bind12 ⟨.reset, 0, 0#8, 4⟩ (healthyBus []) 4 ⟨true, some [⟨.low, 1⟩, ⟨.high, 3⟩], some 4⟩
      ⟨true, [⟨.low, 1⟩], some .high, some 3, some 4⟩ ∧
    GapAt p12 (healthyBus []) 4 ⟨true, [⟨.low, 1⟩], some .high, some 3, some 4⟩ :=
  ⟨⟨by decide +kernel, by decide +kernel, by decide +kernel, by decide +kernel, by decide +kernel, by decide +kernel⟩,
    ⟨rfl, rfl, by decide, rfl, rfl⟩⟩

/-- A busy generate engine in the middle of its sequence, and at its end. -/
theorem witness_sequenceRunsOn :
    (about (upTo 0x00000103#32 (healthyBus []) 1) (.tick 0 0)).Coherent ∧
    step (about (upTo 0x00000103#32 (healthyBus []) 1) (.tick 0 0)) =
      .next (nextOf (step (about (upTo 0x00000103#32 (healthyBus []) 1) (.tick 0 0)))) ∧
    (about (upTo 0x00000103#32 (healthyBus []) 1) (.tick 0 0)).tx? 0#4 =
      some ⟨true, some [⟨.low, 1⟩, ⟨.high, 1⟩], some 1⟩ ∧
    (about (upTo 0x00000103#32 (healthyBus []) 2) (.tick 0 0)).tx? 0#4 =
      some ⟨true, some [⟨.low, 1⟩, ⟨.high, 1⟩], some 2⟩ :=
  ⟨about_coherent _ _, by with_unfolding_all rfl, by decide +kernel, by decide +kernel⟩

/-- The step that ends a write slot, and one that leaves a bound instance at rest. -/
theorem witness_idleDormant :
    (about (upTo 0x00000103#32 (healthyBus []) 2) (.tick 0 0)).Coherent ∧
    step (about (upTo 0x00000103#32 (healthyBus []) 2) (.tick 0 0)) =
      .next (nextOf (step (about (upTo 0x00000103#32 (healthyBus []) 2) (.tick 0 0)))) ∧
    LiveBound (nextOf (step (about (upTo 0x00000103#32 (healthyBus []) 2) (.tick 0 0)))) 0
      (inst0 (nextOf (step (about (upTo 0x00000103#32 (healthyBus []) 2) (.tick 0 0))))) bind12 ∧
    (inst0 (nextOf (step (about (upTo 0x00000103#32 (healthyBus []) 2) (.tick 0 0))))).session = .idle ∧
    (nextOf (step (about (upTo 0x00000103#32 (healthyBus []) 2) (.tick 0 0)))).tx? 0#4 =
      some ⟨false, some [⟨.low, 1⟩, ⟨.high, 1⟩], some 2⟩ ∧
    (nextOf (step (about (upTo 0x00000103#32 (healthyBus []) 2) (.tick 0 0)))).rx? 1#4 =
      some ⟨false, [], none, none, none⟩ :=
  ⟨about_coherent _ _, step_of_goesOn (by decide +kernel), ⟨by decide +kernel, by decide +kernel, by decide +kernel⟩,
    by decide +kernel, by decide +kernel, by decide +kernel⟩

/-- A capture on a dead channel, its sequence over: the clocks go on with the timer (R346). -/
def sLate : State := about (upTo 0x00000002#32 dead 6) (.tick 0 0)

theorem witness_countersInDeadline :
    sLate.Coherent ∧ step sLate = .next (nextOf (step sLate)) ∧
    LiveBound (nextOf (step sLate)) 0 (inst0 (nextOf (step sLate))) bind12 ∧
    (inst0 (nextOf (step sLate))).session ≠ .idle ∧ (inst0 (nextOf (step sLate))).sessT = some 7 ∧
    (nextOf (step sLate)).tx? 0#4 = some ⟨false, some [⟨.low, 1⟩, ⟨.high, 3⟩], some 7⟩ ∧
    (nextOf (step sLate)).rx? 1#4 = some ⟨true, [], none, some 0, some 7⟩ :=
  ⟨about_coherent _ _, step_of_goesOn (by decide +kernel), ⟨by decide +kernel, by decide +kernel, by decide +kernel⟩,
    by decide +kernel, by decide +kernel, by decide +kernel, by decide +kernel⟩

/-- R43, R346: `TXE.t` and `RXE.t` of a live capture past the end of the sequence, two ticks on. -/
theorem test_clocks :
    (after (upTo 0x00000002#32 stuck 6)).tx? 0#4 = some ⟨false, some [⟨.low, 1⟩, ⟨.high, 3⟩], some 6⟩ ∧
    ((after (upTo 0x00000002#32 stuck 6)).rx? 1#4).bind (·.t) = some 6 ∧
    (inst0 (after (upTo 0x00000002#32 stuck 6))).sessT = some 6 := by decide +kernel

/-- A gap tick of an instance with an operation in flight, of one at rest, of one in a slot, and of a faulted one. -/
theorem witness_gapTick :
    nextEvent (about [issueBind, issueOf 8 0x00000002#32] (.gapTick 0)) = .gapTick 0 ∧
    (about [issueBind, issueOf 8 0x00000002#32] (.gapTick 0)).Coherent ∧
    step (about [issueBind, issueOf 8 0x00000002#32] (.gapTick 0)) =
      .next (nextOf (step (about [issueBind, issueOf 8 0x00000002#32] (.gapTick 0)))) ∧
    LiveBound (nextOf (step (about [issueBind, issueOf 8 0x00000002#32] (.gapTick 0)))) 0
      (inst0 (nextOf (step (about [issueBind, issueOf 8 0x00000002#32] (.gapTick 0))))) bind12 ∧
    (inst0 (nextOf (step (about [issueBind, issueOf 8 0x00000002#32] (.gapTick 0))))).op = some ⟨.reset, 0, 0#8, 1⟩ ∧
    (nextOf (step (about [issueBind, issueOf 8 0x00000002#32] (.gapTick 0)))).tx? 0#4 = some ⟨false, none, none⟩ ∧
    (inst0 sBound).fault = none ∧ (inst0 sBound).op = none ∧ (inst0 sCapturing).session ≠ .idle ∧
    (inst0 (after [issueOf 8 0x00000000#32])).fault ≠ none :=
  ⟨by decide +kernel, about_coherent _ _, step_of_goesOn (by decide +kernel),
    ⟨by decide +kernel, by decide +kernel, by decide +kernel⟩, by decide +kernel⟩

/-- Both edges of the presence window, and a pulse that lasts to its limit. -/
theorem witness_presencePulse :
    tiny.wf = true ∧ validProfile tiny p12 = true ∧ 3 ≤ tiny.rxMaxItems ∧ p12.resetLow < 2 ∧
    3 < p12.resetLow + p12.rxIdleGap ∧ 14 ≤ p12.resetLow + p12.rxIdleGap + tiny.captureMargin ∧
    runSlot tiny .resetSlot p12 (healthyBus (lowOver 2 3)) = .finished (.presence .present) 6 ∧
    runSlot tiny .resetSlot p12 (healthyBus (lowOver 3 14)) = .finished (.presence .present) 17 := by decide +kernel

/-- A responder released at the sample, one tick past it, and one that lasts to its limit. -/
theorem witness_readSlot :
    tiny.wf = true ∧ validProfile tiny p12 = true ∧ p12.write1Low ≤ p12.sampleOffset ∧ p12.write1Low ≤ 1 ∧
    12 + p12.rxIdleGap ≤ p12.write1Low + p12.write1High + p12.rxIdleGap + tiny.captureMargin ∧
    runSlot tiny .readSlot p12 (healthyBus (lowOver 0 1)) = .finished (.bit true) 4 ∧
    runSlot tiny .readSlot p12 (healthyBus (lowOver 0 2)) = .finished (.bit false) 5 ∧
    runSlot tiny .readSlot p12 (healthyBus (lowOver 0 12)) = .finished (.bit false) 15 := by decide +kernel

/-- A profile like V-13, with both outcomes. -/
theorem witness_earlySample :
    tiny.wf = true ∧ validProfile tiny ⟨5, 2, 3, 4, 3, 1, 5⟩ = true ∧ healthy (healthyBus []) ∧
    runSlot tiny .readSlot ⟨5, 2, 3, 4, 3, 1, 5⟩ (healthyBus []) = .finished (.bit false) 7 ∧
    runSlot tiny .readSlot ⟨5, 2, 3, 4, 3, 1, 5⟩ (healthyBus [⟨.low, 100⟩]) = .finished .captureTimeout 20 := by
  decide +kernel

/-- A dead channel, and a line low to the deadline. -/
theorem witness_noItems :
    tiny.wf = true ∧ validProfile tiny p12 = true ∧ SlotKind.readSlot.captures = true ∧
    SlotKind.resetSlot.captures = true ∧ (⟨true, false, []⟩ : SlotEnv).rxAlive = false ∧
    (∀ t, t < dur (txSeq .readSlot p12) + p12.rxIdleGap + tiny.captureMargin → levelAt [⟨.low, 15⟩] t = .low) := by
  decide +kernel

/-- An instance with no binding at the port, and the two kinds of answer of VALIDATE. -/
theorem witness_validateAnswers :
    (atPort small 8).inst? 0 = some Inst.powerOn ∧ Inst.powerOn.fault = none ∧
    validProfile tiny (profileOf .od) = true ∧ validProfile tiny (profileOf (.custom longest)) = false := by decide +kernel

/-- The highest channel and a valid pin. -/
theorem witness_bindSucceeds :
    (atPort small 8).inst? (atPort small 8).port.inst = some Inst.powerOn ∧ Inst.powerOn.fault = none ∧
    Inst.powerOn.binding = none ∧ validProfile (atPort small 8).params (profileOf (.custom p12)) = true ∧
    (0#4 : Chan).toNat < tiny.nch ∧ (3#4 : Chan).toNat < tiny.nch ∧ (0#4 : Chan) ≠ 3#4 ∧
    ownerOf (atPort small 8).chanOwner 0 = none ∧ ownerOf (atPort small 8).chanOwner 3 = none ∧
    5#8 ∈ (atPort small 8).params.validPins ∧ ownerOf (atPort small 8).pinOwner 5 = none ∧
    (atPort small 8).port.allocOk = true := by decide +kernel

theorem witness_bindTimingError :
    (atPort small 8).inst? (atPort small 8).port.inst = some Inst.powerOn ∧ Inst.powerOn.fault = none ∧
    Inst.powerOn.binding = none ∧ validProfile (atPort small 8).params (profileOf (.custom longest)) = false := by
  decide +kernel

/-- Instance 1 unbound beside a bound instance 0: each cause of `INIT_ERROR`, the channel at its lower edge. -/
theorem witness_bindInitError :
    (sBound.accept 1 8 true).inst? 1 = some Inst.powerOn ∧ validProfile tiny (profileOf .std) = true ∧
    tiny.nch ≤ (4#4 : Chan).toNat ∧ tiny.nch ≤ (15#4 : Chan).toNat ∧ ownerOf sBound.chanOwner 0 ≠ none ∧
    ownerOf sBound.chanOwner 1 ≠ none ∧ 6#8 ∉ tiny.validPins ∧ ownerOf sBound.pinOwner 4 ≠ none ∧
    (sBound.accept 1 8 false).port.allocOk = false := by decide +kernel

/-- An unused channel and pin beside them, so that each cause stands alone. -/
theorem witness_bindInitError_alone :
    bindRefused (sBound.accept 1 8 true) 5#8 2#4 3#4 = false ∧ bindRefused (sBound.accept 1 8 true) 5#8 4#4 3#4 = true ∧
    bindRefused (sBound.accept 1 8 true) 5#8 2#4 4#4 = true ∧ bindRefused (sBound.accept 1 8 true) 5#8 2#4 2#4 = true ∧
    bindRefused (sBound.accept 1 8 true) 5#8 0#4 3#4 = true ∧ bindRefused (sBound.accept 1 8 true) 5#8 2#4 1#4 = true ∧
    bindRefused (sBound.accept 1 8 true) 6#8 2#4 3#4 = true ∧ bindRefused (sBound.accept 1 8 true) 4#8 2#4 3#4 = true ∧
    bindRefused (sBound.accept 1 8 false) 5#8 2#4 3#4 = true := by decide +kernel

theorem witness_unbindReleases :
    LiveBound (atPort sBound 8) 0 (inst0 sBound) bind12 ∧ (inst0 sBound).lock = .free ∧
    (inst0 sBound).session = .idle := ⟨bound_live, by decide +kernel, by decide +kernel⟩

/-- A bound instance, an unbound one, one whose lock is held, and one whose session runs. -/
theorem witness_misuse :
    (inst0 sBound).fault = none ∧ (inst0 sBound).binding ≠ none ∧ Inst.powerOn.binding = none ∧
    busCmdOf .readByte ≠ none ∧ (inst0 sReset).binding ≠ none ∧ (inst0 sReset).lock ≠ .free ∧
    (inst0 sReset).session = .idle ∧ (inst0 sCapturing).session ≠ .idle := by decide +kernel

theorem witness_takesFreeLock :
    LiveBound (atPort sBound 8) 0 (inst0 sBound) bind12 ∧ (inst0 sBound).lock = .free :=
  ⟨bound_live, by decide +kernel⟩

theorem witness_waitsForLock :
    LiveBound (atPort sReset 9) 0 (inst0 sReset) bind12 ∧ (inst0 sReset).lock = .held 8 ∧
    busCmdOf (.writeByte 1#8) = some (.writeByte 1#8) :=
  ⟨⟨by decide +kernel, by decide +kernel, by decide +kernel⟩, by decide +kernel, rfl⟩

/-- Two waiters, and the draws that pick each. -/
theorem witness_releaseGrants :
    (releaseLock { Inst.powerOn with lock := .held 1, waiters := [⟨2, .reset⟩, ⟨3, .readBit⟩] } 0).lock = .held 2 ∧
    (releaseLock { Inst.powerOn with lock := .held 1, waiters := [⟨2, .reset⟩, ⟨3, .readBit⟩] } 1).lock = .held 3 ∧
    (releaseLock { Inst.powerOn with lock := .held 1 } 1).lock = .free := by decide

theorem witness_ready : Ready (atPort sBound 8) (inst0 sBound) bind12 :=
  ⟨atPort_coherent (after_coherent _) (by decide +kernel), bound_live, by decide +kernel⟩

/-- Slots of the instance of `witness_ready` with every result RESET and READ_BIT can have. -/
theorem witness_results :
    Ready (atPort sBound 8) (inst0 sBound) bind12 ∧
    runSlot (atPort sBound 8).params .resetSlot bind12.profile (healthyBus []) = .finished (.presence .absent) 4 ∧
    runSlot (atPort sBound 8).params .resetSlot bind12.profile (healthyBus (lowOver 2 4)) =
      .finished (.presence .present) 7 ∧
    runSlot (atPort sBound 8).params .resetSlot bind12.profile ⟨true, false, []⟩ = .finished .captureTimeout 17 ∧
    runSlot (atPort sBound 8).params .readSlot bind12.profile (healthyBus []) = .finished (.bit true) 4 ∧
    runSlot (atPort sBound 8).params .readSlot bind12.profile (healthyBus (lowOver 0 2)) = .finished (.bit false) 5 ∧
    runSlot (atPort sBound 8).params .readSlot bind12.profile ⟨true, false, []⟩ = .finished .captureTimeout 15 :=
  ⟨witness_ready, by decide +kernel⟩

/-- A byte of eight read slots. -/
theorem witness_readByte :
    Ready (atPort sBound 8) (inst0 sBound) bind12 ∧ ∀ j, j < 8 → runSlot (atPort sBound 8).params .readSlot bind12.profile
      (healthyBus (if (0xCC#8 : Byte).getLsbD j then [] else lowOver 0 2)) =
        .finished (.bit ((0xCC#8 : Byte).getLsbD j)) (if (0xCC#8 : Byte).getLsbD j then 4 else 5) :=
  ⟨witness_ready, by decide +kernel⟩

/-- A timeout in the first slot and in the last. -/
theorem witness_readByteTimeout :
    Ready (atPort sBound 8) (inst0 sBound) bind12 ∧
    0 < 8 ∧ 7 < 8 ∧ (∀ j, j < 7 → runSlot (atPort sBound 8).params .readSlot bind12.profile (healthyBus []) =
      .finished (.bit true) 4) ∧
    runSlot (atPort sBound 8).params .readSlot bind12.profile ⟨true, false, []⟩ = .finished .captureTimeout 15 :=
  ⟨witness_ready, by decide, by decide, fun _ _ => witness_results.2.2.2.2.1, witness_results.2.2.2.2.2.2⟩

/-- Both ways of the last premise. -/
theorem witness_echo :
    Ready (atPort sBound 8) (inst0 sBound) bind12 ∧
    bind12.profile.write1Low ≤ bind12.profile.sampleOffset ∧ bind12.profile.sampleOffset < bind12.profile.write0Low ∧
    (atPort sBound 8).params.validateExtra = true ∧ bind12.profile.write0Low <
      bind12.profile.write1Low + bind12.profile.write1High + bind12.profile.rxIdleGap +
        (atPort sBound 8).params.captureMargin := ⟨witness_ready, by decide +kernel⟩

/-- A bus command that takes the lock, one that waits, and one on an unbound instance. -/
theorem witness_busCommandFrame :
    busCmdOf .reset ≠ none ∧
    exec .reset (atPort sBound 8) = .next (nextOf (exec .reset (atPort sBound 8))) ∧
    exec .reset (atPort sReset 9) = .next (nextOf (exec .reset (atPort sReset 9))) ∧
    exec .reset (atPort small 9) = .next (nextOf (exec .reset (atPort small 9))) := by
  refine ⟨by decide, ?_, ?_, ?_⟩ <;> with_unfolding_all rfl

/-- VALIDATE, BIND and UNBIND that go on. -/
theorem witness_lifecycleFrame :
    busCmdOf .unbind = none ∧
    exec (.validate .std) (atPort small 8) = .next (nextOf (exec (.validate .std) (atPort small 8))) ∧
    exec (.bind 5#8 2#4 3#4 .std) (atPort small 8) = .next (nextOf (exec (.bind 5#8 2#4 3#4 .std) (atPort small 8))) ∧
    exec .unbind (atPort sBound 8) = .next (nextOf (exec .unbind (atPort sBound 8))) := by
  refine ⟨by decide, ?_, ?_, ?_⟩ <;> with_unfolding_all rfl

theorem witness_powerOn : tiny.wf = true ∧ 1 ≤ 2 ∧ small.inst? 1 = some Inst.powerOn := by decide

/-- A step of a coherent state, for the statements that need no more. -/
theorem witness_step :
    (about [issueBind] (issueOf 8 0x00000002#32)).Coherent ∧
    eventTarget (nextEvent (about [issueBind] (issueOf 8 0x00000002#32))) <
      (about [issueBind] (issueOf 8 0x00000002#32)).insts.length ∧
    step (about [issueBind] (issueOf 8 0x00000002#32)) =
      .next (nextOf (step (about [issueBind] (issueOf 8 0x00000002#32)))) :=
  ⟨about_coherent _ _, by decide +kernel, by with_unfolding_all rfl⟩

/-- The fault of instance 0 after one step of a state. -/
def faultAfter (s : State) : Option FaultReason := (inst0 (nextOf (step s))).fault

/-- A session in flight on an instance without a binding, which no coherent state has: the tick would read registers that
hold no value, and raises the fault of R48. -/
theorem test_noValue :
    (inst0 (nextOf (runEvent (.tick 0 0) (small.setInst 0 { Inst.powerOn with session := .capturing })))).fault =
      some .noValue := by decide

/-- The edge that raises the capture overflow of `noisy`. -/
theorem witness_overflowAt :
    SlotAt (about (upTo 0x00000002#32 noisy 4) (.tick 0 0)) (inst0 (after (upTo 0x00000002#32 noisy 4)))
      bind12 ⟨.reset, 0, 0#8, 4⟩ noisy 4 ⟨true, some [⟨.low, 1⟩, ⟨.high, 3⟩], some 4⟩
      ⟨true, [⟨.low, 1⟩, ⟨.high, 1⟩, ⟨.low, 1⟩], some .high, some 1, some 4⟩ ∧
    ¬ GapAt p12 noisy 4 ⟨true, [⟨.low, 1⟩, ⟨.high, 1⟩, ⟨.low, 1⟩], some .high, some 1, some 4⟩ ∧
    4 ≠ opDeadline tiny bind12 ⟨.reset, 0, 0#8, 4⟩ ∧ (inst0 (after (upTo 0x00000002#32 noisy 4))).session = .capturing ∧
    OverflowAt tiny bind12 ⟨.reset, 0, 0#8, 4⟩ noisy 4
      ⟨true, [⟨.low, 1⟩, ⟨.high, 1⟩, ⟨.low, 1⟩], some .high, some 1, some 4⟩ :=
  ⟨⟨by decide +kernel, by decide +kernel, by decide +kernel, by decide +kernel, by decide +kernel, by decide +kernel⟩,
    fun h => absurd h.full (by decide), by decide, by decide +kernel, ⟨rfl, rfl, by decide, by decide, by decide⟩⟩

/-- Every reason that a step gives, each from a coherent state (`about_coherent`) without a fault. -/
theorem witness_modelFaults :
    goesOn (about (upTo 0x00000002#32 noisy 4) (.tick 0 0)) = true ∧
    faultAfter (about [] (issueOf 8 0x00000000#32)) = some .illegalCommand ∧
    faultAfter (about [] (issueOf 8 0x00000004#32)) = some .notBound ∧
    faultAfter (about [] (issueOf 8 0x00000008#32)) = some .notBound ∧
    faultAfter (about [issueBind] (.issue 0 8 bindWords true)) = some .alreadyBound ∧
    faultAfter (about [issueBind, issueOf 8 0x00000002#32] (issueOf 9 0x00000008#32)) = some .inFlightMutation ∧
    (inst0 (after (upTo 0x00000002#32 noisy 4))).fault = none ∧
    faultAfter (about (upTo 0x00000002#32 noisy 4) (.tick 0 0)) = some .captureOverflow := by decide +kernel

/-- A slot stopped by a fault, with a tick of it next. -/
def sFaulted : State :=
  about [issueBind, issueOf 8 0x00000002#32, .trigger 0 (healthyBus []), issueOf 9 0x00000008#32] (.tick 0 0)

theorem witness_faulted :
    sFaulted.Coherent ∧ step sFaulted = .next (nextOf (step sFaulted)) ∧ sFaulted.inst? 0 = some (inst0 sFaulted) ∧
    (inst0 sFaulted).fault = some .inFlightMutation ∧ (inst0 sFaulted).binding = some bind12 ∧
    small.inst? 1 = some Inst.powerOn :=
  ⟨about_coherent _ _, step_of_goesOn (by decide +kernel), by decide +kernel, by decide +kernel, by decide +kernel,
    by decide +kernel⟩

/-- The same instance with a RESET of caller 3 next: no response, and the caller blocks (R326). -/
theorem witness_faulted_command :
    (placed sFaulted [issueOf 3 0x00000002#32]).Coherent ∧
    step (placed sFaulted [issueOf 3 0x00000002#32]) =
      .next (nextOf (step (placed sFaulted [issueOf 3 0x00000002#32]))) ∧
    eventTarget (nextEvent (placed sFaulted [issueOf 3 0x00000002#32])) = 0 ∧ decode [0x00000002#32] ≠ .incomplete ∧
    answers (nextOf (step (placed sFaulted [issueOf 3 0x00000002#32]))) = answers sFaulted ∧
    (nextOf (step (placed sFaulted [issueOf 3 0x00000002#32]))).blocked = [3, 9, 8] :=
  ⟨placed_coherent (about_coherent _ _) _, step_of_goesOn (by decide +kernel), by decide +kernel⟩

/-- Both instances bound, a trigger of instance 0 next. -/
def sTwo : State :=
  about [issueBind, issueOf 8 0x00000002#32, .issue 1 9 [0x00320507#32] true] (.trigger 0 (healthyBus []))

theorem witness_twoInstances :
    sTwo.Coherent ∧ step sTwo = .next (nextOf (step sTwo)) ∧ (1 : Nat) ≠ eventTarget (nextEvent sTwo) ∧
    sTwo.inst? 0 = some (inst0 sTwo) ∧ (inst0 sTwo).binding = some bind12 ∧
    (sTwo.inst? 1).bind (fun x => x.binding.map fun b => (b.pin, b.tx, b.rx)) = some (5#8, 2#4, 3#4) :=
  ⟨about_coherent _ _, step_of_goesOn (by decide +kernel), by decide +kernel, by decide +kernel, by decide +kernel,
    by decide +kernel⟩

/-- After that step both instances are bound, to different pins and channels. -/
theorem witness_noShared :
    (nextOf (step sTwo)).inst? 0 = some (inst0 (nextOf (step sTwo))) ∧
    (inst0 (nextOf (step sTwo))).binding = some bind12 ∧
    ((nextOf (step sTwo)).inst? 1).bind (fun x => x.binding.map fun b => (b.pin, b.tx, b.rx)) = some (5#8, 2#4, 3#4) := by
  decide +kernel

/-- A BIND and an UNBIND that change a binding. -/
theorem witness_bindingChanges :
    goesOn (about [] issueBind) = true ∧ goesOn (about [issueBind] (issueOf 8 0x00000008#32)) = true ∧
    (inst0 (nextOf (step (about [] issueBind)))).binding ≠ (inst0 (about [] issueBind)).binding ∧
    (inst0 (nextOf (step (about [issueBind] (issueOf 8 0x00000008#32))))).binding ≠
      (inst0 (about [issueBind] (issueOf 8 0x00000008#32))).binding := by decide +kernel

/-- A tick that answers nothing, one that answers with nobody waiting, and one that answers with a waiter. -/
theorem witness_responseReleases :
    goesOn (about (upTo 0x00000002#32 (healthyBus []) 3) (.tick 0 0)) = true ∧
    (inst0 (after (upTo 0x00000002#32 (healthyBus []) 3))).lock = .held 8 ∧
    answers (nextOf (step (about (upTo 0x00000002#32 (healthyBus []) 3) (.tick 0 0)))) = [(0, 7, 0#32, 0)] ∧
    (inst0 (nextOf (step (about (upTo 0x00000002#32 (healthyBus []) 4) (.tick 0 0))))).lock = .free ∧
    answers (nextOf (step (about (upTo 0x00000002#32 (healthyBus []) 4) (.tick 0 0)))) =
      [(0, 8, 0x00000000#32, 4), (0, 7, 0#32, 0)] ∧
    (inst0 (nextOf (step (about (upTo 0x00000002#32 (healthyBus []) 4 ++ [issueOf 9 0x00000004#32])
      (.tick 0 0))))).lock = .held 9 := by decide +kernel

/-- A blocked caller, and a word list too short and too long. -/
theorem witness_blocked :
    8 ∈ sReset.blocked ∧ ([] : List Word).length + 1 ≠ commandLength 0x02000001#32 ∧
    ([0#32] : List Word).length + 1 ≠ commandLength 0x00000002#32 := by decide +kernel

theorem witness_stepRuns :
    (placed sBound [issueOf 8 0x00000002#32]).script = .issue 0 8 [0x00000002#32] true :: [] ∧ 8 ∉ sBound.blocked ∧
    decode [0x00000002#32] = .ok .reset ∧ decodeTableWord 32 0x00000002 = some .reset := by decide +kernel

end Sys2Proof.Tests
end

section
/-! SUPPORT. What no step changes (R11, R346), and how far the counters of a slot can run (R20, R346): the two statements
of the scope rules. -/

namespace Sys2Proof.Machine

/-! ### What every step leaves (R11, R346) -/

@[simp] theorem bindInst_params (s : State) (i : Nat) (x : Inst) (b : Binding) :
    (bindInst s i x b).params = s.params := by simp [bindInst]

@[simp] theorem unbindInst_params (s : State) (i : Nat) (x : Inst) (b : Binding) :
    (unbindInst s i x b).params = s.params := by simp [unbindInst]

@[simp] theorem bindInst_insts_length (s : State) (i : Nat) (x : Inst) (b : Binding) :
    (bindInst s i x b).insts.length = s.insts.length := by simp [bindInst]

@[simp] theorem unbindInst_insts_length (s : State) (i : Nat) (x : Inst) (b : Binding) :
    (unbindInst s i x b).insts.length = s.insts.length := by simp [unbindInst]

/-- Every way of changing the state writes it through updates that leave the parameters. -/
theorem Effect.params_eq {s t : State} {i : Nat} (e : Effect s i t) : t.params = s.params := by
  cases e <;> simp

/-- Every way of changing the state writes the list `INST` in place, entry by entry. -/
theorem Effect.insts_length_eq {s t : State} {i : Nat} (e : Effect s i t) : t.insts.length = s.insts.length := by
  cases e <;> simp

theorem step_params {s t : State} (h : step s = .next t) : t.params = s.params := by
  obtain he | ⟨c, a, _, he⟩ := step_effect h
  · simpa using he.params_eq
  · simpa using he.params_eq

theorem step_insts_length {s t : State} (h : step s = .next t) : t.insts.length = s.insts.length := by
  obtain he | ⟨c, a, _, he⟩ := step_effect h
  · simpa using he.insts_length_eq
  · simpa using he.insts_length_eq

/-- Settles O59: `Effect` lists all that a step can do, and none of it writes the parameters or changes the length of `INST`. -/
theorem parametersNeverChange : Obligations.ParametersNeverChange := by
  intro s t h
  have hp := step_params h
  exact ⟨hp, step_insts_length h, fun ticks => by rw [nanoseconds, hp]⟩

/-! ### The counters of a slot (R20, R43 to R45, R346) -/

theorem step_coherent {s t : State} (h : s.Coherent) (hs : step s = .next t) : t.Coherent :=
  runEvent_coherent h.popEvent hs

/-- The current run of a capture is no longer than the capture: 0 at its first tick and on a dead channel (R213, R214). -/
theorem RxOk.len_le {p : Params} {P : Profile} {env : SlotEnv} {t : Nat} {rx : RxEngine} (h : RxOk p P env t rx) :
    ∃ m, rx.len = some m ∧ m ≤ t := by
  rcases Nat.eq_zero_or_pos t with h0 | hpos
  · exact ⟨0, (h.start h0).2, Nat.zero_le t⟩
  · cases halive : env.rxAlive with
    | false => exact ⟨0, (h.dead halive).2, Nat.zero_le t⟩
    | true =>
      obtain ⟨_, m, _, hlen, _, hle, _⟩ := h.run halive hpos
      exact ⟨m, hlen, hle⟩

/-- A coherent slot in flight has one tick count, on the session timer and both engines, and it has not passed the capture
deadline of the slot's sequence (R222). -/
theorem SlotOk.counters {p : Params} {P : Profile} {x : Inst} {tx : TxEngine} {rx : RxEngine} (h : SlotOk p P x tx rx)
    (hs : x.session ≠ .idle) :
    ∃ k n, x.sessT = some n ∧ tx.t = some n ∧ n ≤ captureDeadline p P (txSeq k P) ∧
      (rx.armed = true → rx.t = some n ∧ ∃ m, rx.len = some m ∧ m ≤ n) := by
  obtain ⟨_, h⟩ := h
  have inDeadline : ∀ {k t}, t ≤ dur (txSeq k P) → t ≤ captureDeadline p P (txSeq k P) := by
    intro k t ht; unfold captureDeadline; omega
  cases hsess : x.session with
  | idle => exact absurd hsess hs
  | triggered =>
    simp only [hsess] at h
    obtain ⟨o, _, t, _, _, htimer, _, rfl, hle, hdis⟩ := h
    exact ⟨slotKindOf o, t, htimer, rfl, inDeadline hle, by simp [hdis]⟩
  | capturing =>
    simp only [hsess] at h
    obtain ⟨o, _, t, _, _, htimer, _, rfl, _, hle, hrx⟩ := h
    exact ⟨slotKindOf o, t, htimer, rfl, hle, fun _ => ⟨hrx.clock, hrx.len_le⟩⟩
  | draining =>
    simp only [hsess] at h
    obtain ⟨o, _, t, _, _, _, htimer, _, rfl, hle, _, hdis⟩ := h
    exact ⟨slotKindOf o, t, htimer, rfl, inDeadline hle, by simp [hdis]⟩

theorem durFits_iff {d : Nat} : durFits d = true ↔ d < 2 ^ 15 := decide_eq_true_iff

/-- The largest deadline of a profile that fits its operand words (R106, R222): three durations of 15 bits and the margin. -/
theorem captureDeadline_le {P : Profile} (h : P.fits = true) (p : Params) (k : SlotKind) :
    captureDeadline p P (txSeq k P) ≤ 3 * (2 ^ 15 - 1) + p.captureMargin := by
  simp only [Profile.fits, Bool.and_eq_true, durFits_iff] at h
  unfold captureDeadline
  cases k with
  | resetSlot => simp only [txSeq, encodeReset, dur]; omega
  | readSlot => simp only [txSeq, encodeReadTrigger, dur]; omega
  | writeSlot b =>
    cases b
    · simp only [txSeq, encodeWriteBit, Bool.false_eq_true, if_false, dur]; omega
    · simp only [txSeq, encodeWriteBit, if_true, dur]; omega

/-- Settles O21: the state after the step is coherent, so its slots are, and a bound profile fits its operand words. -/
theorem countersStayInDeadline : Obligations.CountersStayInDeadline := by
  intro s t i x b tx rx hc hstep hx hs htx hrx
  have ht : t.Coherent := step_coherent hc hstep
  obtain ⟨k, n, htimer, hgen, hle, hcap⟩ := (ht.slots i x b tx rx hx.inst hx.live hx.bound htx hrx).counters hs
  have hfits := (ht.owners.bound i x b hx.inst hx.bound).fits
  exact ⟨n, htimer, hgen, hle.trans (captureDeadline_le hfits t.params k), hcap⟩

end Sys2Proof.Machine
end

section
/-! SUPPORT. The state as a whole (R30 to R50), whose entry `INST[i]` is called a transceiver here: power-on and the
invariant, what a command can do at its port, what changes a binding, what a faulted transceiver answers to each move
(R40, R326), and which faults a step can raise (R48, R325); with the statements of the state rules. -/

namespace Sys2Proof.Machine

/-! ### The invariant (R36 to R42, R230 to R235) -/

/-- Settles O48: a step is a move from the state with the move taken, and each way a move writes the state keeps it
coherent. -/
theorem stepKeepsCoherence : Obligations.StepKeepsCoherence :=
  fun _ _ hc hs => step_coherent hc hs

/-! ### Power-on (R49, R360) -/

theorem powerOn_inst {p : Params} {n i : Nat} {x : Inst} (h : (State.powerOn p n).inst? i = some x) :
    x = Inst.powerOn :=
  List.eq_of_mem_replicate (List.mem_of_getElem? h)

theorem powerOn_tx {p : Params} {n : Nat} {c : Chan} {e : TxEngine} (h : (State.powerOn p n).tx? c = some e) :
    e = TxEngine.powerOn :=
  List.eq_of_mem_replicate (List.mem_of_getElem? h)

theorem powerOn_rx {p : Params} {n : Nat} {c : Chan} {e : RxEngine} (h : (State.powerOn p n).rx? c = some e) :
    e = RxEngine.powerOn :=
  List.eq_of_mem_replicate (List.mem_of_getElem? h)

/-- Settles O46: every transceiver and every engine is its power-on value, and both ownership tables are empty. -/
theorem powerOnValues : Obligations.PowerOnValues := by
  intro p n
  refine ⟨List.length_replicate, fun i x hx => ?_, fun c => ⟨rfl, rfl⟩, fun c e he => ?_, fun c e he => ?_⟩
  · simp [powerOn_inst hx, Inst.powerOn, Inst.bound]
  · simp [powerOn_tx he, TxEngine.powerOn, TxEngine.drive]
  · simp [powerOn_rx he, RxEngine.powerOn]

theorem lockOk_powerOn : LockOk Inst.powerOn :=
  ⟨by decide, by decide, by decide, by decide, by decide⟩

/-- At power-on nothing is owned and nothing is bound, so the tables and the bindings agree (R41, R42). -/
theorem ownershipOk_powerOn (p : Params) (n : Nat) : OwnershipOk (State.powerOn p n) where
  chanForm := List.Pairwise.nil
  pinForm := List.Pairwise.nil
  txCount := List.length_replicate
  rxCount := List.length_replicate
  bound i x b hx hb := by rw [powerOn_inst hx] at hb; cases hb
  chans c i h := by cases h
  pins c i h := by cases h

theorem powerOn_coherent {p : Params} {n : Nat} (hp : p.wf = true) (hn : 1 ≤ n) : (State.powerOn p n).Coherent where
  params := hp
  count := hn.trans_eq List.length_replicate.symm
  callers := List.nodup_nil
  owners := ownershipOk_powerOn p n
  locks i x hx := by rw [powerOn_inst hx]; exact lockOk_powerOn
  slots i x b tx rx hx _ hb := by rw [powerOn_inst hx] at hb; cases hb

/-- Settles O47: the state the machine starts in is one of the power-on states, its default parameters meeting R7, R13
and R14. -/
theorem powerOnIsCoherent : Obligations.PowerOnIsCoherent :=
  ⟨fun _ _ hp hn => powerOn_coherent hp hn, powerOn_coherent (p := Params.default) rfl (by decide)⟩

/-! ### Owners after every step (R41, R42, R293) -/

/-- Settles O53: the state after the step is coherent, so both transceivers own what their bindings name, and an identifier
has one owner. -/
theorem noSharedChannelOrPin : Obligations.NoSharedChannelOrPin := by
  intro s t i x b hc hs hx hb
  have ht : t.Coherent := step_coherent hc hs
  have hi := ht.owners.bound i x b hx hb
  refine ⟨hi.distinct, hi.txExists, hi.rxExists, fun j y d hy hd hij => ?_⟩
  have hj := ht.owners.bound j y d hy hd
  have differ : ∀ {o : Owners} {k k' : Nat}, ownerOf o k = some i → ownerOf o k' = some j → k ≠ k' := by
    rintro o k k' hk hk' rfl
    exact hij (Option.some.inj (hk.symm.trans hk'))
  exact ⟨fun h => differ hi.txOwned hj.txOwned (congrArg _ h), fun h => differ hi.rxOwned hj.rxOwned (congrArg _ h),
    fun h => differ hi.txOwned hj.rxOwned (congrArg _ h), fun h => differ hi.rxOwned hj.txOwned (congrArg _ h),
    fun h => differ hi.pinOwned hj.pinOwned (congrArg _ h)⟩

/-! ### What a command does at its port, by command -/

/-- The misuses of the host that a command at a live transceiver answers with a model fault (R297, R325). -/
def Misuse (x : Inst) (cmd : Instr) : FaultReason → Prop
  | .notBound         => (busCmdOf cmd ≠ none ∨ cmd = .unbind) ∧ x.binding = none
  | .alreadyBound     => (∃ pin tx rx sel, cmd = .bind pin tx rx sel) ∧ x.binding ≠ none
  | .inFlightMutation => cmd = .unbind ∧ (x.lock ≠ .free ∨ x.session ≠ .idle)
  | _                 => False

/-- The ways a command at the port changes a state in which the port's transceiver is `x`. Where `Effect` forgets the
command, this keeps it. -/
inductive CommandEffect (s : State) (x : Inst) : Instr → State → Prop where
  /-- A faulted transceiver takes no step (R326). -/
  | frozen {cmd : Instr} (hf : x.fault ≠ none) : CommandEffect s x cmd s
  /-- VALIDATE, or a BIND refused: a response and nothing else (R147, R295). -/
  | answer {cmd : Instr} (st : Status) (hc : busCmdOf cmd = none) (hf : x.fault = none) :
      CommandEffect s x cmd (respondPort s st 0#8)
  /-- A misuse (R297). -/
  | misuse {cmd : Instr} (r : FaultReason) (hr : Misuse x cmd r) (hf : x.fault = none) :
      CommandEffect s x cmd (raiseFault s s.port.inst r)
  /-- A bus command takes the lock or waits for it (R250). -/
  | lock {cmd : Instr} (q : BusCmd) (hq : busCmdOf cmd = some q) (hf : x.fault = none) (hb : x.binding ≠ none) :
      CommandEffect s x cmd (s.setInst s.port.inst (acquireLock x s.port.caller q))
  /-- A BIND that succeeds (R290). -/
  | bind (pin : Pin) (tx rx : Chan) (sel : ProfileSel) (hf : x.fault = none) (hb : x.binding = none) :
      CommandEffect s x (.bind pin tx rx sel)
        (respondPort (bindInst s s.port.inst x ⟨pin, tx, rx, profileOf sel⟩) .ok 0#8)
  /-- An UNBIND that succeeds (R296). -/
  | unbind (b : Binding) (hf : x.fault = none) (hb : x.binding = some b) :
      CommandEffect s x .unbind (respondPort (unbindInst s s.port.inst x b) .ok 0#8)

section commands
variable {s t : State} {x y : Inst} {cmd : Instr}

theorem busCommand_commandEffect {q : BusCmd} (hq : busCmdOf cmd = some q) (hx : s.inst? s.port.inst = some x)
    (h : busCommand q s = .next t) : CommandEffect s x cmd t := by
  obtain ⟨x', hx', ⟨hf, rfl⟩ | ⟨hf, h⟩⟩ := onPort_next h <;> cases hx.symm.trans hx'
  · exact .frozen hf
  · split at h <;> cases h
    · exact .misuse .notBound ⟨.inl (by simp [hq]), ‹_›⟩ hf
    · exact .lock q hq hf (by simp [*])

theorem execValidate_commandEffect {sel : ProfileSel} (hx : s.inst? s.port.inst = some x)
    (h : execValidate sel s = .next t) : CommandEffect s x (.validate sel) t := by
  obtain ⟨x', hx', ⟨hf, rfl⟩ | ⟨hf, h⟩⟩ := onPort_next h <;> cases hx.symm.trans hx'
  · exact .frozen hf
  · split at h <;> cases h <;> exact .answer _ rfl hf

theorem execBind_commandEffect {pin : Pin} {tx rx : Chan} {sel : ProfileSel} (hx : s.inst? s.port.inst = some x)
    (h : execBind pin tx rx sel s = .next t) : CommandEffect s x (.bind pin tx rx sel) t := by
  obtain ⟨x', hx', ⟨hf, rfl⟩ | ⟨hf, h⟩⟩ := onPort_next h <;> cases hx.symm.trans hx'
  · exact .frozen hf
  · split at h
    · cases h
      exact .misuse .alreadyBound ⟨⟨_, _, _, _, rfl⟩, by simp [*]⟩ hf
    · split at h
      · cases h; exact .answer _ rfl hf
      · split at h <;> cases h
        · exact .answer _ rfl hf
        · exact .bind _ _ _ _ hf ‹_›

theorem execUnbind_commandEffect (hx : s.inst? s.port.inst = some x) (h : execUnbind s = .next t) :
    CommandEffect s x .unbind t := by
  obtain ⟨x', hx', ⟨hf, rfl⟩ | ⟨hf, h⟩⟩ := onPort_next h <;> cases hx.symm.trans hx'
  · exact .frozen hf
  · split at h
    · cases h
      exact .misuse .notBound ⟨.inr rfl, ‹_›⟩ hf
    · split at h <;> cases h
      · exact .misuse .inFlightMutation ⟨rfl, ‹_›⟩ hf
      · exact .unbind _ hf ‹_›

/-- Everything a command can do at the port. -/
theorem exec_commandEffect (hx : s.inst? s.port.inst = some x) (h : exec cmd s = .next t) :
    CommandEffect s x cmd t := by
  cases cmd with
  | validate sel => exact execValidate_commandEffect hx h
  | reset => exact busCommand_commandEffect rfl hx h
  | writeBit b => exact busCommand_commandEffect rfl hx h
  | readBit => exact busCommand_commandEffect rfl hx h
  | writeByte v => exact busCommand_commandEffect rfl hx h
  | readByte => exact busCommand_commandEffect rfl hx h
  | bind pin tx rx sel => exact execBind_commandEffect hx h
  | unbind => exact execUnbind_commandEffect hx h

/-! ### What a command changes of the transceiver at its port -/

theorem inst_raiseFault_self {i : Nat} {r : FaultReason} (hx : s.inst? i = some x) :
    (raiseFault s i r).inst? i = some { x with fault := x.fault <|> some r } := by
  simp [inst_raiseFault, hx]

theorem inst_bindInst_self {i : Nat} {b : Binding} (hx : s.inst? i = some x) :
    (bindInst s i x b).inst? i = some (boundInst x b) := by
  simp [inst_bindInst, hx]

theorem inst_unbindInst_self {i : Nat} {b : Binding} (hx : s.inst? i = some x) :
    (unbindInst s i x b).inst? i = some (unboundInst x) := by
  simp [inst_unbindInst, hx]

/-- The transceiver at the port after a command: as it was, faulted by a misuse, at the lock, bound, or unbound. -/
theorem CommandEffect.inst_cases (e : CommandEffect s x cmd t) (hx : s.inst? s.port.inst = some x)
    (hy : t.inst? s.port.inst = some y) :
    y = x ∨ (∃ r, Misuse x cmd r ∧ y = { x with fault := some r }) ∨
    (∃ q, busCmdOf cmd = some q ∧ y = acquireLock x s.port.caller q) ∨
    (∃ pin tx rx sel, cmd = .bind pin tx rx sel ∧ x.binding = none ∧
      y = boundInst x ⟨pin, tx, rx, profileOf sel⟩) ∨
    (cmd = .unbind ∧ y = unboundInst x) := by
  cases e with
  | frozen => exact .inl (Option.some.inj (hy.symm.trans hx))
  | answer st =>
    rw [respondPort_inst_read] at hy
    exact .inl (Option.some.inj (hy.symm.trans hx))
  | misuse r hr hf =>
    rw [inst_raiseFault_self hx, hf] at hy
    exact .inr (.inl ⟨r, hr, (Option.some.inj hy).symm⟩)
  | lock q hq =>
    rw [inst_setInst_self hx] at hy
    exact .inr (.inr (.inl ⟨q, hq, (Option.some.inj hy).symm⟩))
  | bind pin tx rx sel hf hb =>
    rw [respondPort_inst_read, inst_bindInst_self hx] at hy
    exact .inr (.inr (.inr (.inl ⟨pin, tx, rx, sel, rfl, hb, (Option.some.inj hy).symm⟩)))
  | unbind b =>
    rw [respondPort_inst_read, inst_unbindInst_self hx] at hy
    exact .inr (.inr (.inr (.inr ⟨rfl, (Option.some.inj hy).symm⟩)))

/-- A command sets the fault of its transceiver only for a misuse. -/
theorem CommandEffect.fault_cases (e : CommandEffect s x cmd t) (hx : s.inst? s.port.inst = some x)
    (hy : t.inst? s.port.inst = some y) : y.fault = x.fault ∨ ∃ r, Misuse x cmd r ∧ y.fault = some r := by
  obtain rfl | ⟨r, hr, rfl⟩ | ⟨q, -, rfl⟩ | ⟨_, _, _, _, -, -, rfl⟩ | ⟨-, rfl⟩ := e.inst_cases hx hy
  · exact .inl rfl
  · exact .inr ⟨r, hr, rfl⟩
  · rw [acquireLock_frame]; exact .inl rfl
  · exact .inl rfl
  · exact .inl rfl

/-- A command changes the binding of its transceiver only as BIND and UNBIND do (R290, R296). -/
theorem CommandEffect.binding_cases (e : CommandEffect s x cmd t) (hx : s.inst? s.port.inst = some x)
    (hy : t.inst? s.port.inst = some y) :
    y.binding = x.binding ∨
    (∃ pin tx rx sel, cmd = .bind pin tx rx sel ∧ x.binding = none ∧
      y.binding = some ⟨pin, tx, rx, profileOf sel⟩) ∨
    (cmd = .unbind ∧ y.binding = none) := by
  obtain rfl | ⟨r, -, rfl⟩ | ⟨q, -, rfl⟩ | ⟨pin, tx, rx, sel, hc, hb, rfl⟩ | ⟨hc, rfl⟩ := e.inst_cases hx hy
  · exact .inl rfl
  · exact .inl rfl
  · rw [acquireLock_frame]; exact .inl rfl
  · exact .inr (.inl ⟨pin, tx, rx, sel, hc, hb, rfl⟩)
  · exact .inr (.inr ⟨hc, rfl⟩)

end commands

/-! ### The frame of VALIDATE, BIND and UNBIND (R50, R78, R298) -/

section lifecycle
variable {s t : State} {x y : Inst} {cmd : Instr}

@[simp] theorem bindInst_chanOwner (s : State) (i : Nat) (x : Inst) (b : Binding) :
    (bindInst s i x b).chanOwner = claim (claim s.chanOwner b.tx.toNat i) b.rx.toNat i := by simp [bindInst]

@[simp] theorem bindInst_pinOwner (s : State) (i : Nat) (x : Inst) (b : Binding) :
    (bindInst s i x b).pinOwner = claim s.pinOwner b.pin.toNat i := by simp [bindInst]

@[simp] theorem bindInst_port (s : State) (i : Nat) (x : Inst) (b : Binding) :
    (bindInst s i x b).port = s.port := by simp [bindInst]

@[simp] theorem bindInst_script (s : State) (i : Nat) (x : Inst) (b : Binding) :
    (bindInst s i x b).script = s.script := by simp [bindInst]

@[simp] theorem bindInst_drawn (s : State) (i : Nat) (x : Inst) (b : Binding) :
    (bindInst s i x b).drawn = s.drawn := by simp [bindInst]

@[simp] theorem unbindInst_chanOwner (s : State) (i : Nat) (x : Inst) (b : Binding) :
    (unbindInst s i x b).chanOwner = release (release s.chanOwner b.tx.toNat) b.rx.toNat := by simp [unbindInst]

@[simp] theorem unbindInst_pinOwner (s : State) (i : Nat) (x : Inst) (b : Binding) :
    (unbindInst s i x b).pinOwner = release s.pinOwner b.pin.toNat := by simp [unbindInst]

@[simp] theorem unbindInst_port (s : State) (i : Nat) (x : Inst) (b : Binding) :
    (unbindInst s i x b).port = s.port := by simp [unbindInst]

@[simp] theorem unbindInst_script (s : State) (i : Nat) (x : Inst) (b : Binding) :
    (unbindInst s i x b).script = s.script := by simp [unbindInst]

@[simp] theorem unbindInst_drawn (s : State) (i : Nat) (x : Inst) (b : Binding) :
    (unbindInst s i x b).drawn = s.drawn := by simp [unbindInst]

theorem tx_bindInst_ne (s : State) (i : Nat) (x : Inst) {b : Binding} {c : Chan} (h : c ≠ b.tx) :
    (bindInst s i x b).tx? c = s.tx? c := by simp [bindInst, tx_quietTx, h.symm]

theorem rx_bindInst_ne (s : State) (i : Nat) (x : Inst) {b : Binding} {c : Chan} (h : c ≠ b.rx) :
    (bindInst s i x b).rx? c = s.rx? c := by simp [bindInst, rx_quietRx, h.symm]

theorem tx_unbindInst_ne (s : State) (i : Nat) (x : Inst) {b : Binding} {c : Chan} (h : c ≠ b.tx) :
    (unbindInst s i x b).tx? c = s.tx? c := by simp [unbindInst, tx_quietTx, h.symm]

theorem rx_unbindInst_ne (s : State) (i : Nat) (x : Inst) {b : Binding} {c : Chan} (h : c ≠ b.rx) :
    (unbindInst s i x b).rx? c = s.rx? c := by simp [unbindInst, rx_quietRx, h.symm]

/-- A binding that BIND or UNBIND names: the one the transceiver had or the one it has now. -/
def Named (x y : Inst) (b : Binding) : Prop := x.binding = some b ∨ y.binding = some b

/-- A command writes no transceiver but the one at its port. -/
theorem CommandEffect.insts_other (e : CommandEffect s x cmd t) {j : Nat} (hj : j ≠ s.port.inst) :
    t.inst? j = s.inst? j := by
  cases e <;> simp [inst_raiseFault, inst_setInst, inst_bindInst, inst_unbindInst, hj.symm]

/-- A command writes neither the parameters, nor the port, nor the draws. -/
theorem CommandEffect.rest (e : CommandEffect s x cmd t) :
    t.params = s.params ∧ t.port = s.port ∧ t.script = s.script ∧ t.drawn = s.drawn := by
  cases e <;> simp

/-- VALIDATE, BIND and UNBIND leave the lock and those who wait for it (R78). -/
theorem CommandEffect.lifecycle_lock (e : CommandEffect s x cmd t) (hc : busCmdOf cmd = none)
    (hx : s.inst? s.port.inst = some x) (hy : t.inst? s.port.inst = some y) :
    y.lock = x.lock ∧ y.waiters = x.waiters := by
  obtain rfl | ⟨r, -, rfl⟩ | ⟨q, hq, -⟩ | ⟨_, _, _, _, -, -, rfl⟩ | ⟨-, rfl⟩ := e.inst_cases hx hy
  · exact ⟨rfl, rfl⟩
  · exact ⟨rfl, rfl⟩
  · cases hc.symm.trans hq
  · exact ⟨rfl, rfl⟩
  · exact ⟨rfl, rfl⟩

/-- A command leaves every engine and every owner but those of the bindings it names: a BIND the new one, an UNBIND the
one given back. -/
theorem CommandEffect.unnamed (e : CommandEffect s x cmd t) (hx : s.inst? s.port.inst = some x)
    (hy : t.inst? s.port.inst = some y) :
    (∀ c, (∀ b, Named x y b → c ≠ b.tx) → t.tx? c = s.tx? c) ∧
    (∀ c, (∀ b, Named x y b → c ≠ b.rx) → t.rx? c = s.rx? c) ∧
    (∀ c, (∀ b, Named x y b → c ≠ b.tx.toNat ∧ c ≠ b.rx.toNat) → ownerOf t.chanOwner c = ownerOf s.chanOwner c) ∧
    (∀ c, (∀ b, Named x y b → c ≠ b.pin.toNat) → ownerOf t.pinOwner c = ownerOf s.pinOwner c) := by
  cases e with
  | frozen => simp
  | answer => simp
  | misuse => simp
  | lock => simp
  | bind pin tx rx sel hf hb =>
    have hn : Named x y ⟨pin, tx, rx, profileOf sel⟩ := by
      rw [respondPort_inst_read, inst_bindInst_self hx] at hy
      cases hy
      exact .inr rfl
    refine ⟨fun c h => ?_, fun c h => ?_, fun c h => ?_, fun c h => ?_⟩
    · exact tx_bindInst_ne s _ x (h _ hn)
    · exact rx_bindInst_ne s _ x (h _ hn)
    · obtain ⟨htx, hrx⟩ := h _ hn
      simp [ownerOf_claim, htx.symm, hrx.symm]
    · simp [ownerOf_claim, (h _ hn).symm]
  | unbind b hf hb =>
    have hn : Named x y b := .inl hb
    refine ⟨fun c h => ?_, fun c h => ?_, fun c h => ?_, fun c h => ?_⟩
    · exact tx_unbindInst_ne s _ x (h _ hn)
    · exact rx_unbindInst_ne s _ x (h _ hn)
    · obtain ⟨htx, hrx⟩ := h _ hn
      simp [ownerOf_release, htx.symm, hrx.symm]
    · simp [ownerOf_release, (h _ hn).symm]

/-- VALIDATE reads nothing it could misuse and takes no lock: all it does is answer (R147). -/
theorem CommandEffect.validate_frame {sel : ProfileSel} (e : CommandEffect s x (.validate sel) t)
    (hx : s.inst? s.port.inst = some x) (hy : t.inst? s.port.inst = some y) :
    y = x ∧ t.txe = s.txe ∧ t.rxe = s.rxe ∧ t.chanOwner = s.chanOwner ∧ t.pinOwner = s.pinOwner := by
  cases e with
  | frozen => exact ⟨Option.some.inj (hy.symm.trans hx), rfl, rfl, rfl, rfl⟩
  | answer =>
    rw [respondPort_inst_read] at hy
    exact ⟨Option.some.inj (hy.symm.trans hx), rfl, rfl, rfl, rfl⟩
  | misuse r hr => cases r <;> simp [Misuse, busCmdOf] at hr
  | lock q hq => cases hq

end lifecycle

/-- Settles O45: each part is a frame of `CommandEffect`. -/
theorem lifecycleFrame : Obligations.LifecycleFrame := by
  intro s t x y cmd hc h hx hy
  have e := exec_commandEffect hx h
  obtain ⟨hlock, hwaiters⟩ := e.lifecycle_lock hc hx hy
  obtain ⟨htx, hrx, hchan, hpin⟩ := e.unnamed hx hy
  exact ⟨hlock, hwaiters, fun j => e.insts_other, htx, hrx, hchan, hpin,
    fun sel hsel => (hsel ▸ e).validate_frame hx hy, e.rest⟩

/-! ### What a step can do, by the move it takes -/

/-- A step writes no transceiver but the one its move addresses. -/
theorem step_inst_other {s t : State} {j : Nat} (h : step s = .next t) (hj : j ≠ eventTarget (nextEvent s)) :
    t.inst? j = s.inst? j := by
  obtain e | ⟨c, a, -, e⟩ := step_effect h <;> simpa using effect_other e hj

/-- Issuing words leaves the transceiver, faults it for an illegal command (R108), or runs the decoded command. -/
theorem issue_cases {s t : State} {i c : Nat} {ws : List Word} {a : Bool} {x : Inst} (hx : s.inst? i = some x)
    (h : issue s i c ws a = .next t) :
    t.inst? i = some x ∨ t = raiseFault (s.accept i c a) i .illegalCommand ∨
    ∃ cmd, decode ws = .ok cmd ∧ CommandEffect (s.accept i c a) x cmd t := by
  have hx' : (s.accept i c a).inst? i = some x := by simpa using hx
  unfold issue at h
  split at h
  · cases h; exact .inl hx
  · cases hd : decode ws with
    | ok cmd =>
      rw [hd] at h
      exact .inr (.inr ⟨cmd, rfl, exec_commandEffect hx' h⟩)
    | illegal why =>
      rw [hd] at h
      obtain ⟨_, -, ⟨-, rfl⟩ | ⟨-, h⟩⟩ := onPort_next h
      · exact .inl hx'
      · cases h; exact .inr (.inl rfl)
    | incomplete => rw [hd] at h; cases h; exact .inl hx'

/-! ### Bindings (R32 to R35, R149) -/

section bindings
variable {s t : State} {i : Nat} {x y : Inst}

theorem raiseFault_binding {r : FaultReason} (hx : s.inst? i = some x) (hy : (raiseFault s i r).inst? i = some y) :
    y.binding = x.binding := by
  rw [inst_raiseFault_self hx] at hy
  cases hy; rfl

theorem issue_binding {c : Nat} {ws : List Word} {a : Bool} (hx : s.inst? i = some x) (hy : t.inst? i = some y)
    (h : issue s i c ws a = .next t) :
    y.binding = x.binding ∨
    (∃ pin tx rx sel, decode ws = .ok (.bind pin tx rx sel) ∧ x.binding = none ∧
      y.binding = some ⟨pin, tx, rx, profileOf sel⟩) ∨
    (decode ws = .ok .unbind ∧ y.binding = none) := by
  have hx' : (s.accept i c a).inst? i = some x := by simpa using hx
  obtain ht | rfl | ⟨cmd, hd, e⟩ := issue_cases hx h
  · cases hy.symm.trans ht; exact .inl rfl
  · exact .inl (raiseFault_binding hx' hy)
  · rw [hd]
    obtain hb | ⟨pin, tx, rx, sel, rfl, hb⟩ | ⟨rfl, hb⟩ := e.binding_cases hx' hy
    · exact .inl hb
    · exact .inr (.inl ⟨pin, tx, rx, sel, rfl, hb⟩)
    · exact .inr (.inr ⟨rfl, hb⟩)

theorem gapInst_binding (hx : s.inst? i = some x) (hy : t.inst? i = some y) (h : gapInst s i = .next t) :
    y.binding = x.binding := by
  simp only [gapInst, hx] at h
  split at h <;> cases h
  · cases hx.symm.trans hy; rfl
  · rw [inst_setInst_self hx] at hy; cases hy; rfl

theorem inst_scatter_self {b : Binding} {u : Xcvr} (hx : s.inst? i = some x) :
    (scatter s i b u).inst? i = some u.inst := by
  simp [inst_scatter, hx]

theorem triggerInst_binding {env : SlotEnv} (hx : s.inst? i = some x) (hy : t.inst? i = some y)
    (h : triggerInst s i env = .next t) : y.binding = x.binding := by
  simp only [triggerInst, hx] at h
  have same : s = t → y.binding = x.binding := by
    rintro rfl; cases hx.symm.trans hy; rfl
  have faulted : raiseFault s i .noValue = t → y.binding = x.binding := by
    rintro rfl; exact raiseFault_binding hx hy
  split at h
  · exact same (by injection h)
  · split at h
    · exact same (by injection h)
    · split at h
      · exact faulted (by injection h)
      · split at h
        · exact faulted (by injection h)
        · rename_i u hu
          obtain ⟨rfl, -, -⟩ := gather_eq.1 hu
          split at h
          · exact same (by injection h)
          · cases h
            rw [inst_scatter_self hx] at hy; cases hy
            exact (trigger_frame _ _ _ _ _).1

/-- Whatever a tick's steps leave, the binding stays: none of the steps writes it (R237). -/
theorem afterTick_binding {b : Binding} {k : SlotCtx} {u : Xcvr} {g : Nat} (hx : s.inst? i = some u.inst)
    (hy : t.inst? i = some y) (h : afterTick s i b g (slotTick k u) = .next t) : y.binding = u.inst.binding := by
  cases hv : slotTick k u with
  | raise r v =>
    rw [hv] at h; cases h
    exact (raiseFault_binding (inst_scatter_self hx) hy).trans (slotTick_raise_frame hv).1.binding
  | ok v =>
    have hb := (slotTick_ok_frame hv).1.binding
    rw [hv] at h
    simp only [afterTick] at h
    split at h
    · obtain ⟨-, -, z, hz, hregs⟩ := slotDone_regs (inst_scatter_self hx) h
      cases hy.symm.trans hz
      rw [hregs]; exact hb
    · cases h
      rw [inst_scatter_self hx] at hy; cases hy
      exact hb

theorem tickInst_binding {g : Nat} (hx : s.inst? i = some x) (hy : t.inst? i = some y)
    (h : tickInst s i g = .next t) : y.binding = x.binding := by
  simp only [tickInst, hx] at h
  have faulted : raiseFault s i .noValue = t → y.binding = x.binding := by
    rintro rfl; exact raiseFault_binding hx hy
  split at h
  · cases h; cases hx.symm.trans hy; rfl
  · split at h
    · exact faulted (by injection h)
    · split at h
      · exact faulted (by injection h)
      · rename_i u hu
        obtain ⟨rfl, -, -⟩ := gather_eq.1 hu
        split at h
        · exact faulted (by injection h)
        · exact afterTick_binding hx hy h

end bindings

/-- Settles O54: a step changes the binding of no transceiver but the one its move addresses, and there only a command that
is BIND or UNBIND does. -/
theorem onlyLifecycleChangesBinding : Obligations.OnlyLifecycleChangesBinding := by
  intro s t i x y h hx hy hne
  have hi : i = eventTarget (nextEvent s) := by
    by_contra hi
    rw [step_inst_other h hi, hx] at hy
    cases hy; exact hne rfl
  have hx' : (popEvent s).inst? i = some x := by simpa using hx
  rw [step] at h
  cases he : nextEvent s <;> rw [he] at h hi <;> cases hi
  case issue c ws a => exact ⟨c, ws, a, rfl, (issue_binding hx' hy h).resolve_left hne⟩
  case gapTick => exact absurd (gapInst_binding hx' hy h) hne
  case trigger env => exact absurd (triggerInst_binding hx' hy h) hne
  case tick g => exact absurd (tickInst_binding hx' hy h) hne

/-! ### A faulted transceiver (R40, R109, R326) -/

/-- What a move leaves on a faulted transceiver: the caller of a command issued to it blocks, and nothing else happens. -/
def frozenMove : Event → State → State
  | .issue i c ws a, s => if c ∈ s.blocked ∨ decode ws = .incomplete then s else s.accept i c a
  | .gapTick _,      s => s
  | .trigger _ _,    s => s
  | .tick _ _,       s => s

section frozen
variable {s : State} {x : Inst}

theorem exec_faulted {cmd : Instr} (hx : s.inst? s.port.inst = some x) (hf : x.fault ≠ none) :
    exec cmd s = .next s := by
  cases cmd <;> exact onPort_faulted hx hf

theorem runDecoded_faulted {d : Decoded} (hx : s.inst? s.port.inst = some x) (hf : x.fault ≠ none) :
    runDecoded d s = .next s := by
  cases d with
  | ok cmd => exact exec_faulted hx hf
  | illegal why => exact onPort_faulted hx hf
  | incomplete => rfl

theorem runEvent_faulted {e : Event} (hx : s.inst? (eventTarget e) = some x) (hf : x.fault ≠ none) :
    runEvent e s = .next (frozenMove e s) := by
  have hs : x.fault.isSome = true := Option.isSome_iff_ne_none.2 hf
  cases e with
  | issue i c ws a =>
    simp only [runEvent, issue, frozenMove]
    split
    · rfl
    · exact runDecoded_faulted (by simpa [eventTarget] using hx) hf
  | gapTick i => simp [runEvent, gapInst, frozenMove, show s.inst? i = some x from hx, hs]
  | trigger i env => simp [runEvent, triggerInst, frozenMove, show s.inst? i = some x from hx, hs]
  | tick i g => simp [runEvent, tickInst, frozenMove, show s.inst? i = some x from hx, hs]

theorem frozenMove_responses (e : Event) (s : State) : (frozenMove e s).responses = s.responses := by
  cases e with
  | issue i c ws a => simp only [frozenMove]; split <;> rfl
  | gapTick i => rfl
  | trigger i env => rfl
  | tick i g => rfl

theorem frozenMove_blocked (e : Event) {c : Nat} (h : c ∈ s.blocked) : c ∈ (frozenMove e s).blocked := by
  cases e with
  | issue i d ws a => simp only [frozenMove]; split <;> simp [h]
  | gapTick i => exact h
  | trigger i env => exact h
  | tick i g => exact h

theorem frozenMove_issue_blocked {i c : Nat} {ws : List Word} {a : Bool} (h : decode ws ≠ .incomplete) :
    c ∈ (frozenMove (.issue i c ws a) s).blocked := by
  by_cases hc : c ∈ s.blocked
  · exact frozenMove_blocked _ hc
  · simp [frozenMove, hc, h]

end frozen

/-- No step changes a faulted transceiver, nor its engines, nor what it owns: another transceiver's step does not reach them
(R298), and its own takes no step (R326). -/
theorem step_faulted_frame {s t : State} {i : Nat} {x : Inst} (hc : s.Coherent) (hs : step s = .next t)
    (hx : s.inst? i = some x) (hf : x.fault ≠ none) :
    t.inst? i = some x ∧ ∀ b, x.binding = some b →
      t.tx? b.tx = s.tx? b.tx ∧ t.rx? b.rx = s.rx? b.rx ∧ BindingOwned t i b := by
  obtain ⟨s', hc', e, hinsts, htx, hrx⟩ := step_effect_coherent hc hs
  have hx' : s'.inst? i = some x := (hinsts i).trans hx
  have ht : t.inst? i = some x := by
    by_cases hi : i = eventTarget (nextEvent s)
    · obtain ⟨r, hr⟩ := Option.ne_none_iff_exists'.1 hf
      subst hi
      exact effect_faulted e hx' hr
    · exact (step_inst_other hs hi).trans hx
  refine ⟨ht, fun b hb => ?_⟩
  obtain ⟨h1, h2⟩ := effect_engines hc' e hx' hb (.inr hf)
  exact ⟨h1.trans (htx _), h2.trans (hrx _), (step_coherent hc hs).owners.bound i x b ht hb⟩

/-- Settles O51: the frame of a faulted transceiver, and `frozenMove` for the moves on it. -/
theorem faultFreezesInstance : Obligations.FaultFreezesInstance := by
  refine ⟨fun s t i x r hc hs hx hr => ?_, fun p n i x hx => by rw [powerOn_inst hx]; rfl⟩
  have hf : x.fault ≠ none := by simp [hr]
  obtain ⟨ht, hbound⟩ := step_faulted_frame hc hs hx hf
  refine ⟨ht, fun b hb => ?_, fun hi => ?_⟩
  · obtain ⟨htx, hrx, hown⟩ := hbound b hb
    exact ⟨htx, hrx, hown.txOwned, hown.rxOwned, hown.pinOwned⟩
  · have hx' : (popEvent s).inst? (eventTarget (nextEvent s)) = some x := by simpa [hi] using hx
    have hmove : t = frozenMove (nextEvent s) (popEvent s) := by
      rw [step, runEvent_faulted hx' hf] at hs
      cases hs; rfl
    subst hmove
    refine ⟨by simp [frozenMove_responses], fun c hcb => frozenMove_blocked _ (by simpa using hcb), ?_⟩
    intro c ws a he hd
    rw [he]
    exact frozenMove_issue_blocked hd

/-! ### Every move takes a step (R48, R77, R226) -/

section total
variable {s : State}

theorem onPort_total {run : Inst → Result} (hi : s.port.inst < s.insts.length) (h : ∀ x, ∃ t, run x = .next t) :
    ∃ t, onPort s run = .next t := by
  have hx : s.inst? s.port.inst = some s.insts[s.port.inst] := List.getElem?_eq_getElem hi
  simp only [onPort, hx]
  split
  · exact ⟨_, rfl⟩
  · exact h _

theorem busCommand_total (q : BusCmd) (hi : s.port.inst < s.insts.length) : ∃ t, busCommand q s = .next t :=
  onPort_total hi fun x => by cases x.binding <;> exact ⟨_, rfl⟩

theorem exec_total (cmd : Instr) (hi : s.port.inst < s.insts.length) : ∃ t, exec cmd s = .next t := by
  cases cmd with
  | validate sel => exact onPort_total hi fun x => by split <;> exact ⟨_, rfl⟩
  | reset => exact busCommand_total _ hi
  | writeBit b => exact busCommand_total _ hi
  | readBit => exact busCommand_total _ hi
  | writeByte v => exact busCommand_total _ hi
  | readByte => exact busCommand_total _ hi
  | bind pin tx rx sel =>
    refine onPort_total hi fun x => ?_
    split
    · exact ⟨_, rfl⟩
    · split
      · exact ⟨_, rfl⟩
      · split <;> exact ⟨_, rfl⟩
  | unbind =>
    refine onPort_total hi fun x => ?_
    split
    · exact ⟨_, rfl⟩
    · split <;> exact ⟨_, rfl⟩

theorem issue_total {i : Nat} (c : Nat) (ws : List Word) (a : Bool) (hi : i < s.insts.length) :
    ∃ t, issue s i c ws a = .next t := by
  unfold issue
  split
  · exact ⟨_, rfl⟩
  · cases decode ws with
    | ok cmd => exact exec_total cmd hi
    | illegal why => exact onPort_total hi fun _ => ⟨_, rfl⟩
    | incomplete => exact ⟨_, rfl⟩

theorem gapInst_total (s : State) (i : Nat) : ∃ t, gapInst s i = .next t := by
  unfold gapInst
  split
  · exact ⟨_, rfl⟩
  · split <;> exact ⟨_, rfl⟩

theorem triggerInst_total (s : State) (i : Nat) (env : SlotEnv) : ∃ t, triggerInst s i env = .next t := by
  unfold triggerInst
  repeat' split
  all_goals exact ⟨_, rfl⟩

theorem slotDone_total (s : State) (i g : Nat) : ∃ t, slotDone s i g = .next t := by
  unfold slotDone
  repeat' split
  all_goals exact ⟨_, rfl⟩

theorem afterTick_total (s : State) (i : Nat) (b : Binding) (g : Nat) (r : TickResult) :
    ∃ t, afterTick s i b g r = .next t := by
  cases r with
  | raise r u => exact ⟨_, rfl⟩
  | ok u =>
    simp only [afterTick]
    split
    · exact slotDone_total _ i g
    · exact ⟨_, rfl⟩

theorem tickInst_total (s : State) (i g : Nat) : ∃ t, tickInst s i g = .next t := by
  unfold tickInst
  split
  · exact ⟨_, rfl⟩
  · split
    · exact ⟨_, rfl⟩
    · split
      · exact ⟨_, rfl⟩
      · split
        · exact ⟨_, rfl⟩
        · split
          · exact ⟨_, rfl⟩
          · exact afterTick_total _ i _ g _

/-- Every move whose transceiver exists takes a step: no command and no slot stops the model (log entry 14). -/
theorem runEvent_total {e : Event} (hi : eventTarget e < s.insts.length) : ∃ t, runEvent e s = .next t := by
  cases e with
  | issue i c ws a => exact issue_total c ws a hi
  | gapTick i => exact gapInst_total s i
  | trigger i env => exact triggerInst_total s i env
  | tick i g => exact tickInst_total s i g

end total

/-! ### The faults of a step from a coherent state (R48, R325) -/

section faults
variable {s t : State} {i : Nat} {x y : Inst}

theorem issue_fault {c : Nat} {ws : List Word} {a : Bool} (hx : s.inst? i = some x) (hf : x.fault = none)
    (hy : t.inst? i = some y) (h : issue s i c ws a = .next t) :
    y.fault = none ∨ y.fault = some .illegalCommand ∨ ∃ cmd r, Misuse x cmd r ∧ y.fault = some r := by
  have hx' : (s.accept i c a).inst? i = some x := by simpa using hx
  obtain ht | rfl | ⟨cmd, -, e⟩ := issue_cases hx h
  · cases hy.symm.trans ht; exact .inl hf
  · rw [inst_raiseFault_self hx', hf] at hy
    cases hy; exact .inr (.inl rfl)
  · obtain hy' | ⟨r, hr, hy'⟩ := e.fault_cases hx' hy
    · exact .inl (hy'.trans hf)
    · exact .inr (.inr ⟨cmd, r, hr, hy'⟩)

theorem gapInst_fault (hx : s.inst? i = some x) (hf : x.fault = none) (hy : t.inst? i = some y)
    (h : gapInst s i = .next t) : y.fault = none := by
  simp only [gapInst, hx] at h
  split at h <;> cases h
  · cases hx.symm.trans hy; exact hf
  · rw [inst_setInst_self hx] at hy; cases hy; exact hf

/-- A trigger of a coherent state raises no fault: it finds its binding and both engines. -/
theorem State.Coherent.triggerInst_fault (hc : s.Coherent) {env : SlotEnv} (hx : s.inst? i = some x)
    (hf : x.fault = none) (hy : t.inst? i = some y) (h : triggerInst s i env = .next t) : y.fault = none := by
  have same : s = t → y.fault = none := by
    rintro rfl; cases hx.symm.trans hy; exact hf
  by_cases hs : x.session = .idle
  · cases ho : x.op with
    | none =>
      simp only [triggerInst, hx, ho, ite_self] at h
      exact same (by injection h)
    | some o =>
      obtain ⟨b, tx, rx, -, -, -, -, heq⟩ := hc.triggerInst_eq hx hf hs ho env
      rw [heq] at h; cases h
      rw [inst_scatter_self hx] at hy; cases hy
      obtain ⟨-, -, -, -, hfault, -⟩ := trigger_frame s.params b.profile (slotKindOf o) env ⟨x, tx, rx⟩
      exact hfault.trans hf
  · simp only [triggerInst, hx, ne_eq, hs, not_false_eq_true, or_true, if_true] at h
    exact same (by injection h)

/-- A slot that is over with a result its operation can read hands it over, or ends the operation, without a fault. -/
theorem slotDone_fault {g c : Nat} {o : Op} {r : SlotResult} (hx : s.inst? i = some x) (hf : x.fault = none)
    (ho : x.op = some o) (hr : x.slotResult = some r) (hl : x.lock = .held c) (ha : afterSlot o r ≠ .noValue)
    (hy : t.inst? i = some y) (h : slotDone s i g = .next t) : y.fault = none := by
  simp only [slotDone, hx, ho, hr, hl] at h
  cases hcase : afterSlot o r with
  | nextSlot o' =>
    rw [hcase] at h; cases h
    rw [inst_setInst_self hx] at hy; cases hy; exact hf
  | finished st d =>
    rw [hcase] at h; cases h
    rw [respond_inst_read, inst_setInst_self hx] at hy; cases hy
    rw [releaseLock_frame]; exact hf
  | noValue => exact absurd hcase ha

/-- A tick of a coherent state raises no fault but that of an overflow (R218). -/
theorem State.Coherent.tickInst_fault (hc : s.Coherent) {g : Nat} (hx : s.inst? i = some x) (hf : x.fault = none)
    (hy : t.inst? i = some y) (h : tickInst s i g = .next t) :
    y.fault = none ∨ y.fault = some .captureOverflow := by
  by_cases hs : x.session = .idle
  · simp only [tickInst, hx, hs, or_true, if_true] at h
    cases h; cases hx.symm.trans hy; exact .inl hf
  · obtain ⟨b, o, env, n, tx, rx, hb, ho, -, -, -, -, -, heq, hleft⟩ := hc.tickInst_eq hx hf hs g
    rw [heq] at h
    cases hv : slotTick (ctxOf s.params b.profile o env n) ⟨x, tx, rx⟩ with
    | raise r v =>
      have hvf : v.inst.fault = none := (slotTick_raise_frame hv).1.fault.trans hf
      rw [hv] at h hleft
      cases hleft; cases h
      rw [inst_raiseFault_self (inst_scatter_self hx), hvf] at hy
      cases hy; exact .inr rfl
    | ok v =>
      obtain ⟨hframe, -⟩ := slotTick_ok_frame hv
      have hvf : v.inst.fault = none := hframe.fault.trans hf
      rw [hv] at h hleft
      cases hleft with
      | goesOn _ hvs =>
        simp only [afterTick, if_neg hvs] at h; cases h
        rw [inst_scatter_self hx] at hy; cases hy; exact .inl hvf
      | ended _ r hvs hvo hvr hfits =>
        simp only [afterTick, if_pos hvs] at h
        cases hlock : x.lock with
        | free => cases ho.symm.trans ((hc.locks i x hx).opHeld.2 hlock)
        | held c =>
          exact .inl (slotDone_fault (inst_scatter_self hx) hvf hvo hvr (hframe.lock.trans hlock)
            (afterSlot_fits hfits) hy h)

/-- No move of a coherent state reads a register that holds no value (R48). -/
theorem State.Coherent.runEvent_fault_ne_noValue (hc : s.Coherent) {e : Event} (hx : s.inst? (eventTarget e) = some x)
    (hf : x.fault = none) (hy : t.inst? (eventTarget e) = some y) (h : runEvent e s = .next t) :
    y.fault ≠ some .noValue := by
  cases e with
  | issue i c ws a =>
    obtain hn | hn | ⟨cmd, r, hr, hn⟩ := issue_fault hx hf hy h
    · simp [hn]
    · simp [hn]
    · rw [hn]; rintro ⟨⟩; exact hr
  | gapTick i => simp [gapInst_fault hx hf hy h]
  | trigger i env => simp [hc.triggerInst_fault hx hf hy h]
  | tick i g => obtain hn | hn := hc.tickInst_fault hx hf hy h <;> simp [hn]

end faults

/-- Settles O49: every move is total, and no move of a coherent state reads a register that holds no value. -/
theorem coherentStateSteps : Obligations.CoherentStateSteps := by
  refine ⟨fun s hi => runEvent_total (by simpa using hi), fun s t i x y hc hs hx hf hy => ?_⟩
  by_cases hi : i = eventTarget (nextEvent s)
  · subst hi
    exact hc.popEvent.runEvent_fault_ne_noValue (by simpa using hx) hf hy hs
  · rw [step_inst_other hs hi, hx] at hy
    cases hy; simp [hf]

end Sys2Proof.Machine
end

section
/-! SUPPORT. Words on a byte transport (R76): the four bytes of a word put together again are the word, so a list of words
comes back from its bytes; with the statement of the memory rules. -/

namespace Sys2Proof

theorem bytesOfWords_cons (w : Word) (ws : List Word) :
    bytesOfWords (w :: ws) = bytesOfWord w ++ bytesOfWords ws := rfl

/-- The word read from four bytes, the least significant first (R76). -/
theorem wordsOfBytes_cons (b0 b1 b2 b3 : Byte) (bs : List Byte) :
    wordsOfBytes (b0 :: b1 :: b2 :: b3 :: bs) = (wordsOfBytes bs).map ((b3 ++ b2 ++ b1 ++ b0) :: ·) := rfl

/-- Two neighbouring fields put together are the field over both (R17). -/
theorem field_append_field (w : Word) {lo m hi n : Nat} (h : hi = lo + m) :
    field w hi n ++ field w lo m = field w lo (n + m) :=
  BitVec.extractLsb'_append_extractLsb'_eq_extractLsb' h

/-- The four bytes of a word, the most significant first, are the word (R76). -/
theorem append_bytes_eq_self (w : Word) : field w 24 8 ++ field w 16 8 ++ field w 8 8 ++ field w 0 8 = w := by
  rw [field_append_field w (show 24 = 16 + 8 from rfl), field_append_field w (show 16 = 8 + 8 from rfl),
    field_append_field w (show 8 = 0 + 8 from rfl)]
  exact BitVec.extractLsb'_eq_self

/-- Reading back the bytes of a word and of what follows it (R76). -/
theorem wordsOfBytes_bytesOfWord_append (w : Word) (bs : List Byte) :
    wordsOfBytes (bytesOfWord w ++ bs) = (wordsOfBytes bs).map (w :: ·) := by
  simp only [bytesOfWord, List.cons_append, List.nil_append, wordsOfBytes_cons, append_bytes_eq_self]

/-- The words come back from their bytes (R76). -/
theorem wordsOfBytes_bytesOfWords (ws : List Word) : wordsOfBytes (bytesOfWords ws) = some ws := by
  induction ws with
  | nil => rfl
  | cons w ws ih => rw [bytesOfWords_cons, wordsOfBytes_bytesOfWord_append, ih, Option.map_some]

/-- The decoder reads from bytes the command it reads from their words (R76, R77). -/
theorem decodeBytes_bytesOfWords (ws : List Word) : decodeBytes (bytesOfWords ws) = decode ws := by
  simp [decodeBytes, wordsOfBytes_bytesOfWords]

/-- Settles O6: the words come back by induction on the list, and the bytes of one word are its four fields. -/
theorem bytesCarryWords : Obligations.BytesCarryWords := fun ws =>
  ⟨wordsOfBytes_bytesOfWords ws, decodeBytes_bytesOfWords ws, fun _ => rfl⟩

end Sys2Proof
end

section
/-! SUPPORT. The encoding of commands (R101 to R109): which row of the table the decoder takes and what it then reads from
the words, that decoding and encoding undo each other, and which commands are illegal; with the statements about words and
commands. -/

namespace Sys2Proof

open Sys2Proof.Machine

/-! ### The row that selects a word (R103, R104) -/

section rows
variable {r q : Row} {cw : Word}

theorem field_and (v w : Word) (lo n : Nat) : field (v &&& w) lo n = field v lo n &&& field w lo n :=
  BitVec.extractLsb'_and

/-- Where the mask of a row has ones only, a word it selects has the bits of the pattern (R104). -/
theorem field_of_rowSelects (hs : rowSelects r cw = true) {lo n : Nat} (hm : field r.mask lo n = BitVec.allOnes n) :
    field cw lo n = field r.pattern lo n := by
  rw [← eq_of_beq hs, field_and, hm, BitVec.and_allOnes]

/-- Every mask covers the opcode (R103). -/
theorem opcode_of_rowSelects (hr : r ∈ opcodeRows) (hs : rowSelects r cw = true) :
    field cw 0 4 = field r.pattern 0 4 :=
  field_of_rowSelects hs ((by decide : ∀ r ∈ opcodeRows, field r.mask 0 4 = BitVec.allOnes 4) r hr)

/-- The opcodes of the table differ, so an opcode names one row. -/
theorem rowFor_eq_some : rowFor cw = some r ↔ r ∈ opcodeRows ∧ field r.pattern 0 4 = field cw 0 4 := by
  constructor
  · intro h
    have ho := List.find?_some (p := fun r : Row => field r.pattern 0 4 == field cw 0 4) h
    exact ⟨List.mem_of_find?_eq_some h, eq_of_beq ho⟩
  · rintro ⟨hr, ho⟩
    rw [rowFor, ← ho]
    exact (by decide : ∀ r ∈ opcodeRows,
      opcodeRows.find? (fun q => field q.pattern 0 4 == field r.pattern 0 4) = some r) r hr

/-- No row has the opcode 0x0 or 0x9 to 0xF (R103). -/
theorem rowFor_eq_none : rowFor cw = none ↔ field cw 0 4 = 0x0#4 ∨ 0x9#4 ≤ field cw 0 4 := by
  unfold rowFor
  generalize field cw 0 4 = op
  revert op
  decide

theorem rowFor_of_rowSelects (hr : r ∈ opcodeRows) (hs : rowSelects r cw = true) : rowFor cw = some r :=
  rowFor_eq_some.2 ⟨hr, (opcode_of_rowSelects hr hs).symm⟩

theorem rowSelects_unique (hr : r ∈ opcodeRows) (hq : q ∈ opcodeRows) (hsr : rowSelects r cw = true)
    (hsq : rowSelects q cw = true) : r = q :=
  Option.some.inj ((rowFor_of_rowSelects hr hsr).symm.trans (rowFor_of_rowSelects hq hsq))

theorem row_eq_of_name (hr : r ∈ opcodeRows) (hq : q ∈ opcodeRows) (h : r.name = q.name) : r = q :=
  (by decide : ∀ r ∈ opcodeRows, ∀ q ∈ opcodeRows, r.name = q.name → r = q) r hr q hq h

end rows

/-! ### What the decoder reads once it has the row -/

/-- The command of a row's mnemonic with the operands of its words (R104 to R106). -/
def decodeOperands (m : Mnemonic) (cw : Word) (ows : List Word) : Decoded :=
  match m with
  | .validate  => decodeSel (field cw 24 2) ows .validate
  | .reset     => .ok .reset
  | .writeBit  => .ok (.writeBit (cw.getLsbD 8))
  | .readBit   => .ok .readBit
  | .writeByte => .ok (.writeByte (field cw 8 8))
  | .readByte  => .ok .readByte
  | .bind      => decodeSel (field cw 24 2) ows (.bind (field cw 8 8) (field cw 16 4) (field cw 20 4))
  | .unbind    => .ok .unbind

section decoding
variable {r : Row} {cw : Word} {ows : List Word} {i : Instr}

theorem decodeComplete_of_rowSelects (hr : r ∈ opcodeRows) (hs : rowSelects r cw = true) :
    decodeComplete cw ows = decodeOperands r.name cw ows := by
  simp only [decodeComplete, rowFor_of_rowSelects hr hs, hs, if_true]
  cases r.name <;> rfl

/-- A word list decodes exactly when it has the length of R107, a row selects its first word and the operands are legal. -/
theorem decode_cons_eq_ok : decode (cw :: ows) = .ok i ↔
    ows.length + 1 = commandLength cw ∧
      ∃ r ∈ opcodeRows, rowSelects r cw = true ∧ decodeOperands r.name cw ows = .ok i := by
  constructor
  · intro h
    simp only [decode] at h
    split at h
    · rename_i hl
      refine ⟨hl, ?_⟩
      cases hrow : rowFor cw with
      | none => simp [decodeComplete, hrow] at h
      | some r =>
        have hr := (rowFor_eq_some.1 hrow).1
        by_cases hs : rowSelects r cw = true
        · exact ⟨r, hr, hs, (decodeComplete_of_rowSelects hr hs).symm.trans h⟩
        · simp [decodeComplete, hrow, hs] at h
    · cases h
  · rintro ⟨hl, r, hr, hs, hd⟩
    simp only [decode, if_pos hl]
    exact (decodeComplete_of_rowSelects hr hs).trans hd

theorem decodeSel_mnemonic {psel : BitVec 2} {k : ProfileSel → Instr} {m : Mnemonic}
    (hk : ∀ sel, mnemonicOf (k sel) = m) (h : decodeSel psel ows k = .ok i) : mnemonicOf i = m := by
  obtain ⟨-, rfl⟩ | ⟨-, rfl⟩ | ⟨-, p, -, -, rfl⟩ := decodeSel_ok h <;> exact hk _

theorem decodeOperands_mnemonic {m : Mnemonic} (h : decodeOperands m cw ows = .ok i) : mnemonicOf i = m := by
  cases m with
  | validate => exact decodeSel_mnemonic (fun _ => rfl) h
  | bind => exact decodeSel_mnemonic (fun _ => rfl) h
  | reset | writeBit | readBit | writeByte | readByte | unbind => cases h; rfl

end decoding

/-- Settles O3: the decoder reads the command of the row that selects the word, and neither two rows nor two mnemonics
share a word. -/
theorem oneRowSelectsEachCommand : Obligations.OneRowSelectsEachCommand := by
  intro cw ows i h q hq
  obtain ⟨-, r, hr, hs, hd⟩ := decode_cons_eq_ok.1 h
  rw [decodeOperands_mnemonic hd]
  constructor
  · intro hsq
    rw [rowSelects_unique hq hr hsq hs]
  · intro hn
    rwa [row_eq_of_name hq hr hn]

/-! ### Decoding what was encoded -/

theorem encode_length (i : Instr) : Laws.EncodedLength.Statement i := by
  cases i with
  | validate sel => exact Laws.EncodedLength.validate sel
  | reset => exact Laws.EncodedLength.reset
  | writeBit b => exact Laws.EncodedLength.writeBit b
  | readBit => exact Laws.EncodedLength.readBit
  | writeByte v => exact Laws.EncodedLength.writeByte v
  | readByte => exact Laws.EncodedLength.readByte
  | bind pin tx rx sel => exact Laws.EncodedLength.bind pin tx rx sel
  | unbind => exact Laws.EncodedLength.unbind

/-- The fields of a VALIDATE word (R104). -/
theorem validateWord_fields (psel : BitVec 2) :
    let w : Word := 0#6 ++ psel ++ 0#16 ++ 0#4 ++ 0x1#4
    field w 24 2 = psel ∧ w &&& 0xFCFFFFFF#32 = 1#32 := by
  revert psel; decide

/-- The row of a command selects its command word (R104). -/
theorem rowSelects_commandWord (i : Instr) :
    ∃ r ∈ opcodeRows, r.name = mnemonicOf i ∧ rowSelects r (commandWord i) = true := by
  cases i with
  | validate sel =>
    obtain ⟨-, h⟩ := validateWord_fields (pselOf sel)
    exact ⟨⟨.validate, 0x00000001#32, 0xFCFFFFFF#32⟩, by decide, rfl, beq_iff_eq.2 h⟩
  | reset => decide
  | writeBit b => cases b <;> decide
  | readBit => decide
  | writeByte v =>
    obtain ⟨-, -, h⟩ := writeByteWord_fields v
    exact ⟨⟨.writeByte, 0x00000005#32, 0xFFFF00FF#32⟩, by decide, rfl, beq_iff_eq.2 h⟩
  | readByte => decide
  | bind pin tx rx sel =>
    obtain ⟨-, -, -, -, -, h⟩ := bindWord_fields (pselOf sel) rx tx pin
    exact ⟨⟨.bind, 0x00000007#32, 0xFC0000FF#32⟩, by decide, rfl, beq_iff_eq.2 h⟩
  | unbind => decide

/-- The operands of an encoded command come back from its words (R105, R106). -/
theorem decodeOperands_encode {i : Instr} (hw : i.wf = true) {cw : Word} {ows : List Word}
    (he : encode i = cw :: ows) : decodeOperands (mnemonicOf i) cw ows = .ok i := by
  cases i with
  | validate sel =>
    cases he
    obtain ⟨hp, -⟩ := validateWord_fields (pselOf sel)
    simp only [decodeOperands, mnemonicOf, commandWord, hp, decodeSel_operandWords hw]
  | bind pin tx rx sel =>
    cases he
    obtain ⟨-, hp, hpin, htx, hrx, -⟩ := bindWord_fields (pselOf sel) rx tx pin
    simp only [decodeOperands, mnemonicOf, commandWord, hp, hpin, htx, hrx, decodeSel_operandWords hw]
  | writeBit b => cases he; cases b <;> rfl
  | writeByte v =>
    cases he
    obtain ⟨-, hv, -⟩ := writeByteWord_fields v
    simp only [decodeOperands, mnemonicOf, commandWord, hv]
  | reset | readBit | readByte | unbind => rfl

/-- Decoding undoes encoding (R104, R106, R107). -/
theorem decode_encode {i : Instr} (hw : i.wf = true) : decode (encode i) = .ok i := by
  obtain ⟨cw, ows, he, hl⟩ := encode_length i
  obtain ⟨r, hr, hn, hs⟩ := rowSelects_commandWord i
  have hcw : commandWord i = cw := by cases i <;> cases he <;> rfl
  rw [he, decode_cons_eq_ok]
  exact ⟨hl, r, hr, hcw ▸ hs, hn ▸ decodeOperands_encode hw he⟩

/-- Settles O1: the encoding has the length of R107, the row of the command selects it, and the operands come back. -/
theorem decodeEncodeRoundTrip : Obligations.DecodeEncodeRoundTrip := fun _ => decode_encode

/-- Settles O5: each word list is, by computation, the encoding of its command. -/
theorem sampleWordsDecode : Obligations.SampleWordsDecode :=
  ⟨decode_encode (i := .validate .std) rfl, decode_encode (i := .validate .od) rfl,
    decode_encode (i := .validate (.custom ⟨480, 6, 64, 60, 10, 13, 72⟩)) rfl,
    decode_encode (i := .reset) rfl, decode_encode (i := .writeBit false) rfl,
    decode_encode (i := .writeBit true) rfl, decode_encode (i := .readBit) rfl,
    decode_encode (i := .writeByte 0xA5#8) rfl, decode_encode (i := .readByte) rfl,
    decode_encode (i := .bind 4#8 0#4 1#4 .std) rfl, decode_encode (i := .bind 5#8 2#4 3#4 .od) rfl,
    decode_encode (i := .bind 4#8 0#4 1#4 (.custom ⟨480, 6, 64, 60, 10, 13, 72⟩)) rfl,
    decode_encode (i := .unbind) rfl⟩

/-! ### Encoding what was decoded -/

/-- An operand word with no bit above its duration is the word of that duration (R106). -/
theorem operandWord_durOf {w : Word} (h : operandClear w = true) : operandWord (durOf w) = w := by
  have h0 : w.toNat / 2 ^ 15 % 2 ^ 17 = 0 := by
    have := congrArg BitVec.toNat (eq_of_beq h)
    simpa [field, Nat.shiftRight_eq_div_pow] using this
  apply BitVec.eq_of_toNat_eq
  simp only [operandWord, durOf, field, durw, BitVec.toNat_ofNat, BitVec.extractLsb'_toNat, Nat.shiftRight_zero]
  have := w.isLt
  omega

theorem operandWords_of_decodeCustomProfile {ows : List Word} {p : Profile} (h : decodeCustomProfile ows = some p)
    (hc : ows.all operandClear = true) : operandWords (.custom p) = ows := by
  unfold decodeCustomProfile at h
  split at h
  · cases h
    simp only [List.all_cons, List.all_nil, Bool.and_true, Bool.and_eq_true] at hc
    simp only [operandWords, operandWord_durOf, hc]
  · cases h

/-- A profile select that decodes is the one that its field and its operand words encode (R105, R106). -/
theorem decodeSel_reencodes {psel : BitVec 2} {ows : List Word} {k : ProfileSel → Instr} {i : Instr}
    (h0 : psel ≠ 0b10#2 → ows = []) (h : decodeSel psel ows k = .ok i) :
    ∃ sel, i = k sel ∧ pselOf sel = psel ∧ operandWords sel = ows := by
  obtain ⟨rfl, rfl⟩ | ⟨rfl, rfl⟩ | ⟨rfl, p, hp, hc, rfl⟩ := decodeSel_ok h
  · exact ⟨.std, rfl, rfl, (h0 (by decide)).symm⟩
  · exact ⟨.od, rfl, rfl, (h0 (by decide)).symm⟩
  · exact ⟨.custom p, rfl, rfl, operandWords_of_decodeCustomProfile hp hc⟩

section lengths
variable {cw : Word} {ows : List Word}

/-- Only a VALIDATE or a BIND has operand words (R107). -/
theorem operands_nil_of_opcode (hl : ows.length + 1 = commandLength cw)
    (h : ¬ (field cw 0 4 = 0x1#4 ∨ field cw 0 4 = 0x7#4)) : ows = [] := by
  rw [commandLength, if_neg (fun hc => h hc.1)] at hl
  exact List.eq_nil_of_length_eq_zero (by omega)

/-- Only a custom profile has operand words (R107). -/
theorem operands_nil_of_psel (hl : ows.length + 1 = commandLength cw) (h : field cw 24 2 ≠ 0b10#2) : ows = [] := by
  rw [commandLength, if_neg (fun hc => h hc.2)] at hl
  exact List.eq_nil_of_length_eq_zero (by omega)

end lengths

/-- The bit `k` as a field of one bit (R17). -/
theorem ofBool_getLsbD {n : Nat} (w : BitVec n) (k : Nat) : BitVec.ofBool (w.getLsbD k) = w.extractLsb' k 1 := by
  apply BitVec.eq_of_getLsbD_eq
  intro i hi
  obtain rfl : i = 0 := by omega
  simp

section words
variable (w : Word)

/-- The bits above the opcode, and the opcode (R103). -/
theorem plainWord_eq : field w 4 28 ++ field w 0 4 = w := by
  rw [field_append_field w (show 4 = 0 + 4 from rfl)]
  exact BitVec.extractLsb'_eq_self

/-- The fields of a WRITE_BIT word, put together (R104). -/
theorem writeBitWord_eq : field w 9 23 ++ BitVec.ofBool (w.getLsbD 8) ++ field w 4 4 ++ field w 0 4 = w := by
  rw [ofBool_getLsbD, ← field, field_append_field w (show 9 = 8 + 1 from rfl),
    field_append_field w (show 8 = 4 + 4 from rfl)]
  exact plainWord_eq w

/-- The fields of a WRITE_BYTE word, put together (R104). -/
theorem writeByteWord_eq : field w 16 16 ++ field w 8 8 ++ field w 4 4 ++ field w 0 4 = w := by
  rw [field_append_field w (show 16 = 8 + 8 from rfl), field_append_field w (show 8 = 4 + 4 from rfl)]
  exact plainWord_eq w

/-- The fields of a VALIDATE word, put together (R104). -/
theorem validateWord_eq : field w 26 6 ++ field w 24 2 ++ field w 8 16 ++ field w 4 4 ++ field w 0 4 = w := by
  rw [field_append_field w (show 26 = 24 + 2 from rfl), field_append_field w (show 24 = 8 + 16 from rfl),
    field_append_field w (show 8 = 4 + 4 from rfl)]
  exact plainWord_eq w

/-- The fields of a BIND word, put together (R104). -/
theorem bindWord_eq : field w 26 6 ++ field w 24 2 ++ field w 20 4 ++ field w 16 4 ++ field w 8 8 ++ field w 4 4 ++
    field w 0 4 = w := by
  rw [field_append_field w (show 26 = 24 + 2 from rfl), field_append_field w (show 24 = 20 + 4 from rfl),
    field_append_field w (show 20 = 16 + 4 from rfl)]
  exact writeByteWord_eq w

end words

section reencode
variable {cw : Word} {ows : List Word} {i : Instr} {r : Row}

/-- A row whose mask has ones only selects its pattern alone. -/
theorem eq_pattern_of_rowSelects (hs : rowSelects r cw = true) (hm : r.mask = BitVec.allOnes 32) : cw = r.pattern := by
  rw [← eq_of_beq hs, hm, BitVec.and_allOnes]

/-- The bits that the row fixes and the operands that the decoder reads are all the bits of the command. -/
theorem encode_of_decodeOperands (hl : ows.length + 1 = commandLength cw) (hr : r ∈ opcodeRows)
    (hs : rowSelects r cw = true) (h : decodeOperands r.name cw ows = .ok i) : encode i = cw :: ows := by
  have hop : field cw 0 4 = field r.pattern 0 4 := opcode_of_rowSelects hr hs
  have plain (hm : r.mask = BitVec.allOnes 32) (hp : encode i = [r.pattern])
      (hn : ¬ (field r.pattern 0 4 = 0x1#4 ∨ field r.pattern 0 4 = 0x7#4)) : encode i = cw :: ows := by
    rw [operands_nil_of_opcode hl (hop ▸ hn), eq_pattern_of_rowSelects hs hm, hp]
  have fixed {lo n : Nat} := field_of_rowSelects (lo := lo) (n := n) hs
  have h4 : field cw 4 4 = 0#4 :=
    (fixed ((by decide : ∀ r ∈ opcodeRows, field r.mask 4 4 = BitVec.allOnes 4) r hr)).trans
      ((by decide : ∀ r ∈ opcodeRows, field r.pattern 4 4 = 0#4) r hr)
  fin_cases hr
  · -- VALIDATE
    obtain ⟨sel, rfl, hp, ho⟩ := decodeSel_reencodes (operands_nil_of_psel hl) h
    have hw := validateWord_eq cw
    rw [fixed (lo := 26) rfl, fixed (lo := 8) rfl, h4, hop, ← hp] at hw
    exact congrArg₂ List.cons hw ho
  · cases h; exact plain rfl rfl (by decide) -- RESET
  · -- WRITE_BIT
    cases h
    have hw := writeBitWord_eq cw
    rw [fixed (lo := 9) rfl, h4, hop] at hw
    exact congrArg₂ List.cons hw (operands_nil_of_opcode hl (hop ▸ by decide)).symm
  · cases h; exact plain rfl rfl (by decide) -- READ_BIT
  · -- WRITE_BYTE
    cases h
    have hw := writeByteWord_eq cw
    rw [fixed (lo := 16) rfl, h4, hop] at hw
    exact congrArg₂ List.cons hw (operands_nil_of_opcode hl (hop ▸ by decide)).symm
  · cases h; exact plain rfl rfl (by decide) -- READ_BYTE
  · -- BIND
    obtain ⟨sel, rfl, hp, ho⟩ := decodeSel_reencodes (operands_nil_of_psel hl) h
    have hw := bindWord_eq cw
    rw [fixed (lo := 26) rfl, h4, hop, ← hp] at hw
    exact congrArg₂ List.cons hw ho
  · cases h; exact plain rfl rfl (by decide) -- UNBIND

end reencode

/-- Settles O2: a decoded command can be encoded, and its words have no bits but its operands and what its row fixes. -/
theorem decodedWordsReencode : Obligations.DecodedWordsReencode := by
  intro ws i h
  cases ws with
  | nil => cases h
  | cons cw ows =>
    obtain ⟨hl, r, hr, hs, hd⟩ := decode_cons_eq_ok.1 h
    exact ⟨decode_wf h, encode_of_decodeOperands hl hr hs hd⟩

/-! ### Illegal commands (R108) -/

/-- The answer rejects the command if `P` holds and is a command otherwise. -/
def Decoded.RejectsIff (d : Decoded) (P : Prop) : Prop :=
  (P ∧ ∃ why, d = .illegal why) ∨ (¬ P ∧ ∃ i, d = .ok i)

theorem Decoded.rejectsIff_ok (i : Instr) {P : Prop} (h : ¬ P) : (Decoded.ok i).RejectsIff P :=
  .inr ⟨h, i, rfl⟩

theorem Decoded.rejectsIff_illegal (why : Illegal) {P : Prop} (h : P) : (Decoded.illegal why).RejectsIff P :=
  .inl ⟨h, why, rfl⟩

theorem isIllegal_eq_true {ws : List Word} : isIllegal ws = true ↔ ∃ why, decode ws = .illegal why := by
  unfold isIllegal
  split <;> simp_all

theorem isIllegal_iff_of_rejectsIff {ws : List Word} {P : Prop} (h : (decode ws).RejectsIff P) :
    (isIllegal ws = true ↔ P) ∧ (isIllegal ws = false → ∃ i, decode ws = .ok i) := by
  obtain ⟨hP, why, hd⟩ | ⟨hP, i, hd⟩ := h
  · simp [isIllegal, hd, hP]
  · simp [isIllegal, hd, hP]

/-- Any seven operand words make a profile (R106). -/
theorem decodeCustomProfile_of_length {ows : List Word} (h : ows.length = 7) : ∃ p, decodeCustomProfile ows = some p := by
  match ows, h with
  | [_, _, _, _, _, _, _], _ => exact ⟨_, rfl⟩

theorem all_operandClear {ows : List Word} : ows.all operandClear = true ↔ ¬ ∃ ow ∈ ows, field ow 15 17 ≠ 0#17 := by
  simp [operandClear]

/-- A profile select is rejected for cases (c) and (d) of R108 and no other. -/
theorem decodeSel_rejectsIff {psel : BitVec 2} {ows : List Word} (k : ProfileSel → Instr)
    (hl : ows.length = if psel = 0b10#2 then 7 else 0) :
    (decodeSel psel ows k).RejectsIff (psel = 0b11#2 ∨ ∃ ow ∈ ows, field ow 15 17 ≠ 0#17) := by
  by_cases hcustom : psel = 0b10#2
  · subst hcustom
    obtain ⟨p, hp⟩ := decodeCustomProfile_of_length (hl.trans (if_pos rfl))
    by_cases hc : ows.all operandClear = true
    · simp only [decodeSel, hp, hc]
      exact Decoded.rejectsIff_ok (k (.custom p)) (by simpa using all_operandClear.1 hc)
    · simp only [decodeSel, hp, hc]
      exact Decoded.rejectsIff_illegal .operandBits (.inr (not_not.1 fun h => hc (all_operandClear.2 h)))
  · rw [if_neg hcustom] at hl
    obtain rfl := List.eq_nil_of_length_eq_zero hl
    by_cases h3 : psel = 0b11#2
    · subst h3
      exact Decoded.rejectsIff_illegal .profileSelect (.inl rfl)
    · obtain rfl | rfl : psel = 0b00#2 ∨ psel = 0b01#2 := by
        revert psel; decide
      · exact Decoded.rejectsIff_ok (k .std) (by simp)
      · exact Decoded.rejectsIff_ok (k .od) (by simp)

/-- Cases (c) and (d) of R108. -/
def IllegalOperands (cw : Word) (ows : List Word) : Prop :=
  ((field cw 0 4 = 0x1#4 ∨ field cw 0 4 = 0x7#4) ∧ field cw 24 2 = 0b11#2) ∨ ∃ ow ∈ ows, field ow 15 17 ≠ 0#17

section illegal
variable {cw : Word} {ows : List Word} {r : Row}

/-- Case (b) of R108, for the row that the opcode names. -/
theorem reservedBit_iff (hrow : rowFor cw = some r) :
    (∃ q ∈ opcodeRows, field q.pattern 0 4 = field cw 0 4 ∧ cw &&& q.mask ≠ q.pattern) ↔ rowSelects r cw = false := by
  constructor
  · rintro ⟨q, hq, hop, hne⟩
    cases (rowFor_eq_some.2 ⟨hq, hop⟩).symm.trans hrow
    exact beq_eq_false_iff_ne.2 hne
  · intro hs
    obtain ⟨hr, hop⟩ := rowFor_eq_some.1 hrow
    exact ⟨r, hr, hop, beq_eq_false_iff_ne.1 hs⟩

/-- A VALIDATE or a BIND has seven operand words for a custom profile and none otherwise (R107). -/
theorem operands_length_of_opcode (hl : ows.length + 1 = commandLength cw)
    (h : field cw 0 4 = 0x1#4 ∨ field cw 0 4 = 0x7#4) : ows.length = if field cw 24 2 = 0b10#2 then 7 else 0 := by
  simp only [commandLength, h, true_and] at hl
  split <;> simp_all

/-- A command that its row selects is rejected for its profile select or its operand words (R108 (c), (d)). -/
theorem decodeOperands_rejectsIff (hl : ows.length + 1 = commandLength cw) (hr : r ∈ opcodeRows)
    (hs : rowSelects r cw = true) :
    (decodeOperands r.name cw ows).RejectsIff (IllegalOperands cw ows) := by
  have hop := opcode_of_rowSelects hr hs
  have withSel (k : ProfileSel → Instr) (h : field r.pattern 0 4 = 0x1#4 ∨ field r.pattern 0 4 = 0x7#4) :
      (decodeSel (field cw 24 2) ows k).RejectsIff (IllegalOperands cw ows) := by
    rw [← hop] at h
    simpa only [IllegalOperands, h, true_and] using decodeSel_rejectsIff k (operands_length_of_opcode hl h)
  have plain (i : Instr) (h : ¬ (field r.pattern 0 4 = 0x1#4 ∨ field r.pattern 0 4 = 0x7#4)) :
      (Decoded.ok i).RejectsIff (IllegalOperands cw ows) := by
    rw [← hop] at h
    obtain rfl := operands_nil_of_opcode hl h
    exact Decoded.rejectsIff_ok i (by simp [IllegalOperands, h])
  fin_cases hr
  · exact withSel .validate (by decide)
  · exact plain .reset (by decide)
  · exact plain (.writeBit _) (by decide)
  · exact plain .readBit (by decide)
  · exact plain (.writeByte _) (by decide)
  · exact plain .readByte (by decide)
  · exact withSel (.bind _ _ _) (by decide)
  · exact plain .unbind (by decide)

/-- A complete command is rejected in the cases (a) to (d) of R108 and no other. -/
theorem decode_rejectsIff (hl : ows.length + 1 = commandLength cw) :
    (decode (cw :: ows)).RejectsIff
      ((field cw 0 4 = 0x0#4 ∨ 0x9#4 ≤ field cw 0 4) ∨
        (∃ r ∈ opcodeRows, field r.pattern 0 4 = field cw 0 4 ∧ cw &&& r.mask ≠ r.pattern) ∨
        ((field cw 0 4 = 0x1#4 ∨ field cw 0 4 = 0x7#4) ∧ field cw 24 2 = 0b11#2) ∨
        (∃ ow ∈ ows, field ow 15 17 ≠ 0#17)) := by
  simp only [decode, if_pos hl]
  rw [← rowFor_eq_none]
  cases hrow : rowFor cw with
  | none =>
    simp only [decodeComplete, hrow]
    exact Decoded.rejectsIff_illegal .opcode (.inl trivial)
  | some r =>
    rw [reservedBit_iff hrow]
    cases hs : rowSelects r cw with
    | false =>
      simp only [decodeComplete, hrow, hs]
      exact Decoded.rejectsIff_illegal .reservedBit (.inr (.inl trivial))
    | true =>
      have hr := (rowFor_eq_some.1 hrow).1
      rw [decodeComplete_of_rowSelects hr hs]
      simpa [IllegalOperands] using decodeOperands_rejectsIff hl hr hs

end illegal

end Sys2Proof
end

section
/-! SUPPORT. Commands at the port and the words that answer them (R100, R108 to R112, R120): what issuing words does, which
responses a step adds, and the layout of response and item words; with the statements about them. -/

namespace Sys2Proof.Machine

/-! ### Issuing words (R77, R100, R108, R109) -/

section issuing
variable {s : State} {i c : Nat} {ws : List Word} {a : Bool}

theorem issue_blocked (h : c ∈ s.blocked) : issue s i c ws a = .next s := if_pos (.inl h)

theorem issue_incomplete (h : decode ws = .incomplete) : issue s i c ws a = .next s := if_pos (.inr h)

theorem issue_complete (hc : c ∉ s.blocked) (hd : decode ws ≠ .incomplete) :
    issue s i c ws a = runDecoded (decode ws) (s.accept i c a) := if_neg (not_or.2 ⟨hc, hd⟩)

theorem issue_ok {cmd : Instr} (hc : c ∉ s.blocked) (hd : decode ws = .ok cmd) :
    issue s i c ws a = exec cmd (s.accept i c a) := by
  rw [issue_complete hc (by simp [hd]), hd]
  rfl

/-- A model fault of a live transceiver sets `FAULT` and nothing else (R326). -/
theorem raiseFault_live {x : Inst} (hx : s.inst? i = some x) (hf : x.fault = none) (r : FaultReason) :
    raiseFault s i r = s.setInst i { x with fault := some r } := by
  simp only [raiseFault, hx, hf]

theorem issue_illegal {x : Inst} {why : Illegal} (hx : s.inst? i = some x) (hf : x.fault = none) (hc : c ∉ s.blocked)
    (hd : decode ws = .illegal why) :
    issue s i c ws a = .next ((s.accept i c a).setInst i { x with fault := some .illegalCommand }) := by
  have hx' : (s.accept i c a).inst? i = some x := by simpa using hx
  rw [issue_complete hc (by simp [hd]), hd, runDecoded, onPort_live hx' hf, accept_port, raiseFault_live hx' hf]

/-- A word list without the length that R107 reads from its first word is no complete command (R77). -/
theorem decode_incomplete (h : ∀ cw ows, ws = cw :: ows → ows.length + 1 ≠ commandLength cw) :
    decode ws = .incomplete := by
  cases ws with
  | nil => rfl
  | cons cw ows => exact if_neg (h cw ows rfl)

end issuing

/-- Settles O4: the decoder rejects a complete command in the cases of R108 alone, and the port of a live transceiver raises
the fault. -/
theorem illegalCommandCases : Obligations.IllegalCommandCases := by
  refine ⟨fun cw ows hl => isIllegal_iff_of_rejectsIff (decode_rejectsIff hl), fun s i c x ws a hx hf hc hill => ?_⟩
  obtain ⟨why, hd⟩ := isIllegal_eq_true.1 hill
  exact issue_illegal hx hf hc hd

/-- Settles O57: a blocked caller and an incomplete word list are the two cases in which issuing is no move. -/
theorem blockedCallerIssuesNothing : Obligations.BlockedCallerIssuesNothing := by
  rintro s i c ws a (hc | hl)
  · exact issue_blocked hc
  · exact issue_incomplete (decode_incomplete hl)

/-! ### The command a step runs (R109) -/

theorem step_issue {s : State} {i c : Nat} {ws : List Word} {a : Bool} {rest : List Event}
    (h : s.script = .issue i c ws a :: rest) : step s = issue { s with script := rest } i c ws a := by
  simp only [step, nextEvent, popEvent, h, runEvent]

theorem lt_foldr_max_succ {l : List Nat} {c : Nat} (h : c ∈ l) : c < l.foldr (fun c m => max (c + 1) m) 0 := by
  induction l with
  | nil => cases h
  | cons d l ih =>
    rw [List.foldr_cons]
    obtain rfl | h := List.mem_cons.1 h
    · omega
    · have := ih h
      omega

/-- The caller of a placed command has no command outstanding. -/
theorem freshCaller_notMem_blocked (s : State) : freshCaller s ∉ s.blocked :=
  fun h => absurd (lt_foldr_max_succ h) (lt_irrefl _)

/-- The words of a table entry decode to the command that their bytes decode to (R76). -/
theorem decode_tableWords {nbits w : Nat} {cmd : Instr} (h : decodeTableWord nbits w = some cmd) :
    decode (tableWords nbits w) = .ok cmd := by
  unfold decodeTableWord at h
  rw [decodeBytes_bytesOfWords] at h
  split at h <;> cases h
  assumption

/-- Settles O58: a step with an issue at the head of the script is that issue, and `withFetchWord` puts one there for a
caller that is not blocked. -/
theorem stepRunsDecodedCommand : Obligations.StepRunsDecodedCommand := by
  refine ⟨fun s i c ws a rest cmd h hc hd => ?_, fun s nbits w cmd h => ?_⟩
  · rw [step_issue h]
    exact issue_ok hc hd
  · have hs : (s.withFetchWord nbits w).script = .issue 0 (freshCaller s) (tableWords nbits w) true :: s.script := rfl
    rw [step_issue hs]
    exact issue_ok (freshCaller_notMem_blocked s) (decode_tableWords h)

/-! ### The responses a step adds (R111, R112) -/

@[simp] theorem bindInst_responses (s : State) (i : Nat) (x : Inst) (b : Binding) :
    (bindInst s i x b).responses = s.responses := by simp [bindInst]

@[simp] theorem unbindInst_responses (s : State) (i : Nat) (x : Inst) (b : Binding) :
    (unbindInst s i x b).responses = s.responses := by simp [unbindInst]

/-- A bus command that ends with an error has no data (R255 to R267). -/
theorem afterSlot_finished_data {o : Op} {r : SlotResult} {st : Status} {d : Byte}
    (h : afterSlot o r = .finished st d) (hst : st ≠ .ok) : d = 0#8 := by
  unfold afterSlot at h
  split at h
  · -- RESET: a presence is `OK`, a timeout has no data
    cases r <;> cases h
    · exact absurd rfl hst
    · rfl
  · -- WRITE_BIT
    cases h; rfl
  · -- READ_BIT: a bit is `OK`, a timeout has no data
    cases r <;> cases h
    · exact absurd rfl hst
    · rfl
  · -- WRITE_BYTE
    unfold afterWriteByte at h
    split at h <;> cases h
    rfl
  · -- READ_BYTE: the last bit is `OK`, a timeout has no data
    cases r with
    | bit b =>
      simp only [afterReadByte] at h
      split at h <;> cases h
      exact absurd rfl hst
    | captureTimeout => cases h; rfl
    | done | presence => cases h

/-- At most one response is added, from transceiver `i`, and an error carries no data. -/
def AddsResponse (i : Nat) (old new : List Response) : Prop :=
  new = old ∨ ∃ c st d n, new = ⟨i, c, responseWord st d, n⟩ :: old ∧ (st ≠ .ok → d = 0#8)

theorem Effect.addsResponse {s t : State} {i : Nat} (e : Effect s i t) : AddsResponse i s.responses t.responses := by
  cases e with
  | answer st hp => exact .inr ⟨_, st, 0#8, _, by rw [respondPort_responses, hp], fun _ => rfl⟩
  | bind x b hp =>
    exact .inr ⟨_, .ok, 0#8, _, by rw [respondPort_responses, bindInst_port, hp, bindInst_responses], fun _ => rfl⟩
  | unbind x b hp =>
    exact .inr ⟨_, .ok, 0#8, _, by rw [respondPort_responses, unbindInst_port, hp, unbindInst_responses], fun _ => rfl⟩
  | finish x b o tx rx k v o1 r c g st d hx hf hs ho hb htx hrx hk hv hvs hvo hvr hl ha =>
    exact .inr ⟨c, st, d, o1.elapsed, rfl, afterSlot_finished_data ha⟩
  | nothing | fault | lock | gap | started | tick | raise | lost | nextSlot => exact .inl (by simp)

/-- Settles O56: each way of changing the state adds at most one response, and only an operation that ends well has
data. -/
theorem responsesWellFormed : Obligations.ResponsesWellFormed := by
  intro s t h
  obtain e | ⟨c, a, -, e⟩ := step_effect h
  · simpa [AddsResponse] using e.addsResponse
  · simpa [AddsResponse] using e.addsResponse

/-! ### Response words and item words (R110, R111, R120) -/

/-- The fields of a response word (R110). -/
theorem responseWord_fields (st : Status) (d : Byte) :
    responseStatus (responseWord st d) = statusCode st ∧ responseData (responseWord st d) = d ∧
      (responseWord st d).extractLsb' 4 4 = 0#4 ∧ (responseWord st d).extractLsb' 16 16 = 0#16 := by
  unfold responseStatus responseData responseWord
  refine ⟨?_, ?_, ?_, ?_⟩
  · exact BitVec.extractLsb'_append_eq_right
  · rw [BitVec.extractLsb'_append_eq_of_le (by decide), BitVec.extractLsb'_append_eq_of_le (by decide)]
    exact BitVec.extractLsb'_append_eq_right
  · rw [BitVec.extractLsb'_append_eq_of_le (by decide)]
    exact BitVec.extractLsb'_append_eq_right
  · rw [BitVec.extractLsb'_append_eq_of_le (by decide), BitVec.extractLsb'_append_eq_of_le (by decide)]
    exact BitVec.extractLsb'_append_eq_left

/-- Settles O8: the four fields are the four parts of the word, and the codes are read off `statusCode`. -/
theorem responseWordFields : Obligations.ResponseWordFields := by
  refine fun d => ⟨fun st => ?_, rfl, rfl, rfl, rfl⟩
  cases st <;> exact responseWord_fields _ d

/-- A level as the top bit of an item word (R18, R120). -/
def levelOf (b : Bool) : Level := if b then .high else .low

theorem levelBit_levelOf (b : Bool) : levelBit (levelOf b) = BitVec.ofBool b := by cases b <;> rfl

theorem levelOf_levelBit (l : Level) : levelOf ((levelBit l).getLsbD 0) = l := by cases l <;> rfl

theorem decodeItem_encodeItem {x : Item} (h : x.dur ≤ 32767) : decodeItem (encodeItem x) = x := by
  have hlevel : (encodeItem x).getLsbD 15 = (levelBit x.level).getLsbD 0 := by
    rw [encodeItem, BitVec.getLsbD_append]
    simp
  have hdur : ((encodeItem x).extractLsb' 0 15).toNat = x.dur := by
    rw [encodeItem, BitVec.extractLsb'_append_eq_right, BitVec.toNat_ofNat]
    exact Nat.mod_eq_of_lt (by omega)
  rw [decodeItem, hdur, hlevel, ← levelOf, levelOf_levelBit]

theorem encodeItem_decodeItem (w : BitVec 16) : encodeItem (decodeItem w) = w := by
  rw [encodeItem, decodeItem, ← levelOf, levelBit_levelOf, ofBool_getLsbD, BitVec.ofNat_toNat, BitVec.setWidth_eq,
    BitVec.extractLsb'_append_extractLsb'_eq_extractLsb' (show 15 = 0 + 15 from rfl)]
  exact BitVec.extractLsb'_eq_self

/-- Settles O7: the top bit of the word is the level and the 15 bits below it are the duration. -/
theorem itemWordKeepsItem : Obligations.ItemWordKeepsItem :=
  ⟨fun _ _ h => decodeItem_encodeItem h, encodeItem_decodeItem⟩

end Sys2Proof.Machine
end

section
/-! SUPPORT. The timing profiles (R140 to R151): what validation accepts, the canonical profiles and VALIDATE; and the read
slot of a profile that samples inside the master's own low phase (R151, R179). -/

namespace Sys2Proof.Machine

/-! ### Validation (R143 to R146) -/

section checks
variable {P : Profile}

theorem checkV1_iff : checkV1 P = true ↔
    P.resetLow ≠ 0 ∧ P.write1Low ≠ 0 ∧ P.write1High ≠ 0 ∧ P.write0Low ≠ 0 ∧ P.write0High ≠ 0 ∧
      P.sampleOffset ≠ 0 ∧ P.rxIdleGap ≠ 0 := by
  simp only [checkV1, Bool.and_eq_true, bne_iff_ne, and_assoc]

theorem checkV2_iff : checkV2 P = true ↔ P.write1Low < P.write0Low := decide_eq_true_iff

theorem checkV3_iff : checkV3 P = true ↔ P.sampleOffset < P.rxIdleGap := decide_eq_true_iff

theorem checkV4_iff : checkV4 P = true ↔ P.sampleOffset < P.write0Low := decide_eq_true_iff

/-- The greatest of the four durations is below the idle gap exactly when each of them is. -/
theorem checkV5_iff : checkV5 P = true ↔
    P.write1Low < P.rxIdleGap ∧ P.write1High < P.rxIdleGap ∧ P.write0Low < P.rxIdleGap ∧ P.write0High < P.rxIdleGap := by
  simp only [checkV5, decide_eq_true_iff, max_lt_iff, and_assoc]

/-- The checks that make up validation, the last two of them under `VALIDATE_EXTRA` only (R146). -/
theorem validProfile_iff {p : Params} : validProfile p P = true ↔
    checkV1 P = true ∧ checkV2 P = true ∧ checkV3 P = true ∧
      (p.validateExtra = true → checkV4 P = true ∧ checkV5 P = true) := by
  cases h : p.validateExtra <;> simp [validProfile, h, and_assoc]

end checks

/-- Settles O9: validation is the five checks, and each of them is its comparison. -/
theorem validationChecks : Obligations.ValidationChecks := by
  intro p P
  rw [validProfile_iff, checkV1_iff, checkV2_iff, checkV3_iff, checkV4_iff, checkV5_iff]

/-! ### The canonical profiles (R141, R142, R150) -/

theorem standard_valid (p : Params) : validProfile p standard = true :=
  validProfile_iff.2 ⟨by decide, by decide, by decide, fun _ => by decide⟩

theorem overdrive_valid (p : Params) : validProfile p overdrive = true :=
  validProfile_iff.2 ⟨by decide, by decide, by decide, fun _ => by decide⟩

/-- Settles O10: both profiles pass all five checks, so they are valid whether or not `VALIDATE_EXTRA` asks for V4 and V5. -/
theorem canonicalProfilesPass : Obligations.CanonicalProfilesPass :=
  ⟨rfl, rfl, fun p => ⟨standard_valid p, overdrive_valid p⟩⟩

/-! ### VALIDATE (R147) -/

theorem respondPort_eq_answered (s : State) (st : Status) (d : Byte) :
    respondPort s st d = answered s (responseWord st d) 0 := rfl

theorem exec_validate (sel : ProfileSel) (s : State) : exec (.validate sel) s = execValidate sel s := rfl

theorem execValidate_live {s : State} {x : Inst} (hx : s.inst? s.port.inst = some x) (hf : x.fault = none)
    (sel : ProfileSel) : execValidate sel s = .next (answered s
      (if validProfile s.params (profileOf sel) then responseWord .ok 0#8 else responseWord .timingError 0#8) 0) := by
  rw [execValidate, onPort_live hx hf]
  split <;> rw [respondPort_eq_answered]

/-- Settles O27: the port of a live transceiver runs VALIDATE, whose answer for a canonical profile is that of a valid one. -/
theorem validateAnswers : Obligations.ValidateAnswers := by
  intro s x sel hx hf
  rw [exec_validate, execValidate_live hx hf]
  refine ⟨rfl, ?_⟩
  rintro (rfl | rfl)
  · rw [profileOf, if_pos (standard_valid s.params)]
  · rw [profileOf, if_pos (overdrive_valid s.params)]

/-! ### A sample in the master's own low phase (R151, R179) -/

/-- The items of a capture that reached the idle gap, and the tick of it (R219). -/
theorem capture_eq_batch {obs : Nat → Level} {G D M T : Nat} {alive : Bool} {items : Seq}
    (h : capture obs G D alive M = .batch items T) :
    idleTick G 0 (runsOf obs D) = some T ∧ items = completedBefore T 0 (runsOf obs D) := by
  unfold capture at h
  split at h
  · cases h
  · split at h
    · split at h <;> cases h
      exact ⟨‹_›, rfl⟩
    · split at h <;> cases h

/-- The items of a capture by a working engine that did not reach the idle gap (R219, R224). -/
theorem capture_eq_timeout {obs : Nat → Level} {G D M T : Nat} {items : Seq}
    (h : capture obs G D true M = .timeout items T) : items = completedBefore D 0 (runsOf obs D) := by
  unfold capture at h
  split at h
  · cases ‹true = false›
  · split at h
    · split at h <;> cases h
    · split at h <;> cases h
      rfl

/-- A line that is low over the first `n` ticks has a first run that is low and at least that long. -/
theorem runsOf_lowStart {obs : Nat → Level} {n D : Nat} (hn : 0 < n) (hD : n ≤ D) (hlow : ∀ t, t < n → obs t = .low) :
    ∃ d rest, n ≤ d ∧ runsOf obs D = ⟨.low, d⟩ :: rest :=
  runsOf_prefix obs (init := []) (runsOf_start obs hn hlow) hD

/-- The completed runs, if there are any, begin with the first run. -/
theorem levelAt_completedBefore_low {d T t : Nat} {rest : Seq} (hne : completedBefore T 0 (⟨.low, d⟩ :: rest) ≠ [])
    (ht : t < d) : levelAt (completedBefore T 0 (⟨.low, d⟩ :: rest)) t = .low := by
  obtain ⟨r, hr⟩ := completedBefore_head hne
  rw [hr, levelAt, levelFrom, if_pos (by simpa using ht)]

/-- When the first run is low, the idle gap is reached only after it, so it is completed by then. -/
theorem completedBefore_idleTick_ne_nil {G d T : Nat} {rest : Seq} (hG : 0 < G)
    (h : idleTick G 0 (⟨.low, d⟩ :: rest) = some T) : completedBefore T 0 (⟨.low, d⟩ :: rest) ≠ [] := by
  have hlater : idleTick G (0 + d) rest = some T := by simpa [idleTick] using h
  have hT := idleTick_ge hlater
  rw [completedBefore, if_pos (by simp only; omega)]
  exact List.cons_ne_nil _ _

/-- The items that the capture of a slot hands to the codec (R223, R224): those of a batch, or those, if there are any, that
the deadline found complete. -/
def HandsOver (items : Seq) : Captured → Prop
  | .batch got _   => got = items
  | .timeout got _ => got = items ∧ items ≠ []
  | .overflow      => False

/-- A capturing slot that finishes is a timeout, or decodes what its capture handed over (R226, R238). -/
theorem runSlot_finished {p : Params} {k : SlotKind} {P : Profile} {env : SlotEnv} {r : SlotResult} {T : Nat}
    (hk : k.captures = true) (h : runSlot p k P env = .finished r T) :
    r = .captureTimeout ∨ ∃ items, HandsOver items (slotCapture p k P env) ∧ r = decodeSlot k items P := by
  rw [runSlot_capture hk, ← slotCapture] at h
  split at h
  next => cases h
  next items _ hc =>
    cases h
    exact .inr ⟨items, by simp [HandsOver, hc], rfl⟩
  next =>
    cases h
    exact .inl rfl
  next items _ hne hc =>
    cases h
    exact .inr ⟨items, by simpa [HandsOver, hc] using hne, rfl⟩

/-- What a working engine hands over of a line that is low over the first `n` ticks is low there. -/
theorem HandsOver.low {obs : Nat → Level} {G D M n t : Nat} {items : Seq}
    (h : HandsOver items (capture obs G D true M)) (hG : 0 < G) (hD : n ≤ D) (hlow : ∀ t, t < n → obs t = .low)
    (ht : t < n) : levelAt items t = .low := by
  obtain ⟨d, rest, hd, hruns⟩ := runsOf_lowStart (by omega) hD hlow
  have htd : t < d := by omega
  generalize hc : capture obs G D true M = outcome at h
  cases outcome with
  | batch got T =>
    obtain rfl : got = items := h
    obtain ⟨hT, rfl⟩ := capture_eq_batch hc
    rw [hruns] at hT ⊢
    exact levelAt_completedBefore_low (completedBefore_idleTick_ne_nil hG hT) htd
  | timeout got T =>
    obtain ⟨rfl, hne⟩ := h
    obtain rfl := capture_eq_timeout hc
    rw [hruns] at hne ⊢
    exact levelAt_completedBefore_low hne htd
  | overflow => exact h.elim

/-- A connected master holds the line low through its low item (R201, R202). -/
theorem line_readSlot_low {P : Profile} {env : SlotEnv} (hc : env.txConnected = true) {t : Nat} (ht : t < P.write1Low) :
    line env (txSeq .readSlot P) t = .low := by
  have hdrive : levelAt (txSeq .readSlot P) t = .low := by
    rw [txSeq, encodeReadTrigger, levelAt_lowHigh, if_pos ht]
  exact if_pos (.inl ⟨hc, hdrive⟩)

/-- Settles O25: the captured items begin with the master's own low phase, in which the sample falls. -/
theorem earlySampleNeverReadsOne : Obligations.EarlySampleNeverReadsOne := by
  rintro p P env r T - hvalid ⟨halive, hconn⟩ hearly hrun
  obtain htimeout | ⟨items, hitems, rfl⟩ := runSlot_finished rfl hrun
  · exact .inr htimeout
  · rw [slotCapture, halive] at hitems
    obtain ⟨-, -, -, -, -, -, hgap, -⟩ := validProfile_facts hvalid
    have hdeadline : P.write1Low ≤ captureDeadline p P (txSeq .readSlot P) := by
      simp only [captureDeadline, txSeq, encodeReadTrigger, dur]
      omega
    have hsample : levelAt items P.sampleOffset = .low :=
      hitems.low hgap hdeadline (fun t ht => line_readSlot_low hconn ht) hearly
    exact .inl (by simp [decodeSlot, decodeReadBit, hsample])

end Sys2Proof.Machine
end

section
/-! SUPPORT. The pulse codec (R170 to R181): the encoders' sequences, the level at a tick, the item that decides a presence,
and the loop-back of a written bit. -/

namespace Sys2Proof.Machine

/-! ### The encoders (R170 to R173) -/

/-- Settles O11: every duration of a sequence is one of the profile's, which V1 keeps from 0. -/
theorem encodersGiveLowThenHigh : Obligations.EncodersGiveLowThenHigh := by
  intro p P k hvalid
  obtain ⟨hreset, hone, honeHigh, hzero, hzeroHigh, -, hgap, -⟩ := validProfile_facts hvalid
  cases k with
  | resetSlot => exact ⟨_, _, rfl, hreset, hgap⟩
  | readSlot => exact ⟨_, _, rfl, hone, honeHigh⟩
  | writeSlot b =>
    cases b with
    | false => exact ⟨_, _, rfl, hzero, hzeroHigh⟩
    | true => exact ⟨_, _, rfl, hone, honeHigh⟩

/-! ### The level at a tick (R174) -/

/-- The items before the `k`-th take the level up to its start, and there it gives its own. -/
theorem levelAt_of_covers {items : Seq} {k t : Nat} {x : Item} (hk : items[k]? = some x) (hs : startOf items k ≤ t)
    (he : t < startOf items k + x.dur) : levelAt items t = x.level := by
  obtain ⟨hlt, rfl⟩ := List.getElem?_eq_some_iff.1 hk
  have hsplit : items = items.take k ++ items[k] :: items.drop (k + 1) := by
    rw [← List.drop_eq_getElem_cons hlt, List.take_append_drop]
  rw [startOf] at hs he
  conv_lhs => rw [hsplit, levelAt, levelFrom_append 0 _ _ t (by omega), Nat.zero_add]
  exact if_pos ⟨hs, he⟩

theorem levelAt_past_end {items : Seq} {t : Nat} (h : dur items ≤ t) : levelAt items t = .high := by
  rw [levelAt, ← List.append_nil items, levelFrom_append 0 items [] t (by omega), levelFrom]

/-- Settles O12: the level inside an item and the level past them all. -/
theorem levelAtCoveringItem : Obligations.LevelAtCoveringItem := fun _ _ =>
  ⟨fun _ _ => levelAt_of_covers, levelAt_past_end⟩

/-! ### The presence (R176) -/

section presence
variable (P : Profile) (s : Nat) (x : Item) (xs : Seq) (k : Nat)

theorem startOf_cons_succ : startOf (x :: xs) (k + 1) = x.dur + startOf xs k := rfl

/-- Item `k` of a sequence that starts at tick `s` is low and begins after `resetLow`. -/
def PostResetLowAt (items : Seq) : Prop :=
  ∃ x, items[k]? = some x ∧ x.level = .low ∧ P.resetLow < s + startOf items k

/-- Item `k` is the first low item that begins after `resetLow`: the one that the scan of `presenceFrom` stops at. -/
def FirstPostResetLow (items : Seq) : Prop :=
  PostResetLowAt P s k items ∧ ∀ j < k, ¬ PostResetLowAt P s j items

theorem postResetLowAt_zero : PostResetLowAt P s 0 (x :: xs) ↔ x.level = .low ∧ P.resetLow < s := by
  simp [PostResetLowAt, startOf, dur]

theorem postResetLowAt_succ : PostResetLowAt P s (k + 1) (x :: xs) ↔ PostResetLowAt P (s + x.dur) k xs := by
  simp only [PostResetLowAt, List.getElem?_cons_succ, startOf_cons_succ, Nat.add_assoc]

theorem not_firstPostResetLow_nil : ¬ FirstPostResetLow P s k [] := by
  simp [FirstPostResetLow, PostResetLowAt]

theorem firstPostResetLow_zero : FirstPostResetLow P s 0 (x :: xs) ↔ x.level = .low ∧ P.resetLow < s := by
  simp [FirstPostResetLow, postResetLowAt_zero]

theorem firstPostResetLow_succ : FirstPostResetLow P s (k + 1) (x :: xs) ↔
    ¬ (x.level = .low ∧ P.resetLow < s) ∧ FirstPostResetLow P (s + x.dur) k xs := by
  simp only [FirstPostResetLow, Nat.forall_lt_succ_left, postResetLowAt_zero, postResetLowAt_succ]
  exact and_left_comm

end presence

/-- The scan stops at the first post-reset low item, and answers by where that item begins. -/
theorem presenceFrom_eq_present (P : Profile) (items : Seq) (s : Nat) : presenceFrom P s items = .present ↔
    ∃ k, FirstPostResetLow P s k items ∧ s + startOf items k < P.resetLow + P.rxIdleGap := by
  induction items generalizing s with
  | nil => simp [presenceFrom, not_firstPostResetLow_nil]
  | cons x xs ih =>
    rw [← Nat.or_exists_add_one, presenceFrom]
    simp only [firstPostResetLow_zero, firstPostResetLow_succ, startOf_cons_succ]
    by_cases hstop : x.level = .low ∧ P.resetLow < s
    · simp [hstop, startOf, dur]
    · rw [if_neg hstop, ih]
      simp only [hstop, false_and, false_or, not_false_eq_true, true_and, Nat.add_assoc]

/-- Settles O13: the scan of `decodePresence` starts at tick 0. -/
theorem firstPostResetLowDecides : Obligations.FirstPostResetLowDecides := by
  intro items P
  rw [decodePresence, presenceFrom_eq_present]
  simp only [FirstPostResetLow, PostResetLowAt, Nat.zero_add]
  constructor
  · rintro ⟨k, ⟨⟨x, hx, hlow, hafter⟩, hfirst⟩, hbefore⟩
    exact ⟨k, x, hx, hlow, hafter, hbefore, fun j y hj hy hl => not_lt.1 fun h => hfirst j hj ⟨y, hy, hl, h⟩⟩
  · rintro ⟨k, x, hx, hlow, hafter, hbefore, hfirst⟩
    exact ⟨k, ⟨⟨x, hx, hlow, hafter⟩, fun j hj ⟨y, hy, hl, h⟩ => (hfirst j y hj hy hl).not_gt h⟩, hbefore⟩

/-! ### The loop-back of a written bit (R180) -/

theorem encodeWriteBit_eq (b : Bool) (P : Profile) : encodeWriteBit b P =
    [⟨.low, if b then P.write1Low else P.write0Low⟩, ⟨.high, if b then P.write1High else P.write0High⟩] := by
  cases b <;> rfl

theorem levelAt_low (n t : Nat) : levelAt [⟨.low, n⟩] t = if t < n then .low else .high := by
  simp [levelAt, levelFrom]

/-- A sequence that is low up to tick `n` and high from there on reads as whether the sample falls past `n`. -/
theorem decodeReadBit_of_lowUntil {items : Seq} {n : Nat}
    (h : ∀ t, levelAt items t = if t < n then .low else .high) (P : Profile) :
    decodeReadBit items P = decide (n ≤ P.sampleOffset) := by
  rw [decodeReadBit, h]
  by_cases hs : P.sampleOffset < n
  · rw [if_pos hs, decide_eq_false (by omega)]; rfl
  · rw [if_neg hs, decide_eq_true (by omega)]; rfl

/-- The low time of a written bit is over by the sample exactly when the bit is 1. -/
theorem writeLow_le_sampleOffset {P : Profile} (hone : P.write1Low ≤ P.sampleOffset)
    (hzero : P.sampleOffset < P.write0Low) (b : Bool) :
    decide ((if b then P.write1Low else P.write0Low) ≤ P.sampleOffset) = b := by
  cases b <;> simp [hone, hzero]

theorem two_le_rxMaxItems {p : Params} (h : p.wf = true) : 2 ≤ p.rxMaxItems := by
  simp only [Params.wf, Bool.and_eq_true, decide_eq_true_eq] at h
  exact h.2

/-- Settles O14: the sent sequence and the captured batch are the same waveform, low up to the bit's low time. -/
theorem loopedBackBitReadsBack : Obligations.LoopedBackBitReadsBack := by
  intro p P b D hp hvalid hone hzero hD
  obtain ⟨-, hlow1, -, hlow0, -, -, hgap, -⟩ := validProfile_facts hvalid
  have hreads := writeLow_le_sampleOffset hone hzero b
  have hn : 0 < if b then P.write1Low else P.write0Low := by split <;> assumption
  have hitems := two_le_rxMaxItems hp
  rw [encodeWriteBit_eq]
  generalize (if b then P.write1Low else P.write0Low) = n at *
  refine ⟨?_, ?_, ?_⟩
  · rw [decodeReadBit_of_lowUntil (levelAt_lowHigh n _), hreads]
  · refine capture_oneLow hn hgap (by omega) hD (fun t ht => ?_) (fun t ht _ => ?_)
    · rw [levelAt_lowHigh, if_pos ht]
    · rw [levelAt_lowHigh, if_neg (by omega)]
  · rw [decodeReadBit_of_lowUntil (levelAt_low n), hreads]

end Sys2Proof.Machine
end

section
/-! SUPPORT. The channel session (R200 to R238): the form of a captured batch, the trigger of a slot, its run against
the closed form, the dormant session, and the timeout of a capture without items. -/

namespace Sys2Proof.Machine

/-! ### The form of a batch (R216) -/

/-- A batch is the runs before the first high run that reaches the idle gap, and it ends `G` ticks into that run
(R219). -/
theorem capture_batch_runs {obs : Nat → Level} {G D M T : Nat} {alive : Bool} {items : Seq} (hG : 1 ≤ G)
    (h : capture obs G D alive M = .batch items T) :
    ∃ d rest, runsOf obs D = items ++ ⟨.high, d⟩ :: rest ∧ NoGap G items ∧ G ≤ d ∧ T = dur items + G := by
  obtain ⟨hT, rfl⟩ := capture_eq_batch h
  obtain ⟨init, d, rest, hruns, hgap, hd, rfl⟩ := idleTick_some _ _ _ hT
  rw [hruns, completedBefore_append (by omega) (by omega)]
  exact ⟨d, rest, rfl, hgap, hd, by omega⟩

/-- The line is that of the batch's items up to their end, and high from there to the idle gap (R216). -/
theorem levelAt_batch {obs : Nat → Level} {D d t : Nat} {items rest : Seq}
    (hruns : runsOf obs D = items ++ ⟨.high, d⟩ :: rest) (ht : t < dur items + d) : obs t = levelAt items t := by
  have hD : dur items + (d + dur rest) = D := by rw [← dur_runsOf obs D, hruns, dur_append, dur]
  have hline : obs t = levelFrom 0 (items ++ ⟨.high, d⟩ :: rest) t := by
    rw [← hruns, ← levelAt, levelAt_runsOf obs D t (by omega)]
  by_cases hin : t < dur items
  · rw [hline, levelFrom_append_lt 0 items _ t (by omega) (Nat.zero_le t), levelAt]
  · rw [hline, levelFrom_append 0 items _ t (by omega), levelAt_past_end (by omega)]
    exact if_pos (by simp only; omega)

/-- The master's own low phase, when it is connected, is the line's first level (R173, R202). -/
theorem line_zero_low {p : Params} {P : Profile} (k : SlotKind) {env : SlotEnv} (hvalid : validProfile p P = true)
    (hconn : env.txConnected = true) : line env (txSeq k P) 0 = .low := by
  obtain ⟨a, b, hseq, ha, -⟩ := encodersGiveLowThenHigh p P k hvalid
  refine if_pos (.inl ⟨hconn, ?_⟩)
  rw [hseq, levelAt_lowHigh, if_pos (by omega)]

/-- Settles O15: the batch and the run that reaches the idle gap stand at the start of the runs of the line, which
alternate, are not empty and give the line back. -/
theorem batchForm : Obligations.BatchForm := by
  refine ⟨fun obs G D M T items hG h => ?_, fun p P k env => line_zero_low k⟩
  obtain ⟨d, rest, hruns, hgap, hd, rfl⟩ := capture_batch_runs hG h
  obtain ⟨halt, hpos⟩ := runsOf_alternate obs D
  rw [hruns, List.isChain_append] at halt
  obtain ⟨hitems, -, hlast⟩ := halt
  have hline : ∀ t, t < dur items + G → obs t = levelAt items t := fun t ht => levelAt_batch hruns (by omega)
  refine ⟨fun k x y hx hy => ?_, fun x hx => ?_, fun x hx => ?_, fun x hx hhigh => ?_, rfl, hline⟩
  · obtain ⟨hk, rfl⟩ := List.getElem?_eq_some_iff.1 hx
    obtain ⟨hk', rfl⟩ := List.getElem?_eq_some_iff.1 hy
    exact List.isChain_iff_getElem.1 hitems k hk'
  · have hx0 : 0 < x.dur := hpos x (by rw [hruns]; exact List.mem_append_left _ (List.mem_of_getElem? hx))
    rw [hline 0 (by omega), levelAt_of_covers hx (Nat.le_refl 0) (by simpa [startOf, dur] using hx0)]
  · have hne : x.level ≠ .high := hlast x hx ⟨.high, d⟩ rfl
    cases hl : x.level with
    | low => rfl
    | high => exact absurd hl hne
  · exact not_le.1 fun hge => hgap x hx ⟨hhigh, hge⟩

/-! ### The trigger (R210) -/

/-- Settles O16: the premises are the guards of the trigger, and what it writes is `trigger` by the kind of the slot. -/
theorem triggerStartsSlot : Obligations.TriggerStartsSlot := by
  intro s i x b o env tx rx hlive hs ho htx hbusy hrx
  have hgather : gather s x b = some ⟨x, tx, rx⟩ := gather_eq.2 ⟨rfl, htx, hrx⟩
  have hstarts : triggerInst s i env =
      .next (scatter s i b (trigger s.params b.profile (slotKindOf o) env ⟨x, tx, rx⟩)) := by
    simp [triggerInst, hlive.inst, hlive.live, hs, ho, hlive.bound, hgather, hbusy]
  rw [hstarts]
  constructor
  · intro hk
    rw [trigger, if_pos hk]; rfl
  · intro hk
    rw [trigger, if_neg (by simp [hk])]; rfl

/-! ### The slot against the closed form (R219, R236, R238) -/

/-- A slot without a gap before it: the trigger, the ticks before the last one, and the last one. -/
theorem slotEvents_zero (i : Nat) (env : SlotEnv) (T grant : Nat) :
    slotEvents i 0 env T grant = (.trigger i env :: List.replicate T (.tick i grant)) ++ [.tick i grant] := by
  simp [slotEvents, List.replicate_succ']

/-- The tick that overflows the capture leaves the transceiver as it was, with the fault (R218, R328). -/
theorem Wired.tick_overflows {s : State} {i g : Nat} {b : Binding} (hw : Wired s i b) {o : Op} {env : SlotEnv} {t : Nat}
    {u w : Xcvr} (hu : InFlight b o env t u)
    (hv : slotTick (ctxOf s.params b.profile o env t) u = .raise .captureOverflow w) (hwu : w.inst = u.inst) :
    ∃ v, runEvent (.tick i g) (scatter s i b u) = .next v ∧
      v.inst? i = some { u.inst with fault := some .captureOverflow } := by
  obtain ⟨x, hx⟩ := hw.inst
  refine ⟨_, by rw [hw.tick g hu, hv, afterTick], ?_⟩
  rw [scatter_scatter, inst_raiseFault_self (hw.inst_scatter_self w), hwu, hu.live]
  rfl

/-- Settles O17: a slot's ticks follow the runs of the line to the tick that ends it. -/
theorem slotMatchesClosedForm : Obligations.SlotMatchesClosedForm := by
  intro s i grant x b o env hc hlive hs ho
  have hw := hc.wired hlive.inst hlive.bound
  obtain ⟨u, T', v, htrig, hrun, hfl, hend⟩ :=
    slot_run (g := grant) (env := env) hc hlive.inst hlive.live hlive.bound hs ho
  have hticks : runEvents (.trigger i env :: List.replicate T' (.tick i grant)) s = .next (scatter s i b v) := by
    rw [runEvents_cons_next htrig, hrun]
  refine ⟨fun r T hr => ?_, fun hover => ?_⟩
  · obtain ⟨r', w, hr', -⟩ | ⟨hr', -⟩ := hend <;> cases hr.symm.trans hr'
    obtain ⟨w, hdone, hleft⟩ :=
      slot_completes (g := grant) (gap := 0) hc hlive.inst hlive.live hlive.bound hs ho hr
    rw [Nat.zero_add] at hleft
    obtain ⟨-, hlock, hwaiters, -⟩ := hleft.frame
    exact ⟨⟨_, _, hticks, hw.inst_scatter_self v, hfl.session⟩,
      _, _, hdone, hw.inst_scatter_self w, hleft.session, hleft.result, hleft.op, hlock, hwaiters, hleft.regs⟩
  · obtain ⟨r', w, hr', -⟩ | ⟨-, hcap, hlock, w, hraise, hwv⟩ := hend
    · cases hover.symm.trans hr'
    · rw [← ctxOf_opAfter (n := T')] at hraise
      obtain ⟨t, ht, hti⟩ := hw.tick_overflows (g := grant) hfl hraise hwv
      refine ⟨T', t, _, ?_, hti, rfl, hcap, hlock⟩
      rw [slotEvents_zero, runEvents_append_next hticks, runEvents_cons_next ht, runEvents]

/-! ### The dormant session (R231) -/

/-- Settles O20: the state after the step is coherent, and a coherent slot that is idle is dormant. -/
theorem idleMeansDormant : Obligations.IdleMeansDormant := by
  intro s t i x b tx rx hc hstep hx hs htx hrx
  obtain ⟨hqueue, hslot⟩ := (step_coherent hc hstep).slots i x b tx rx hx.inst hx.live hx.bound htx hrx
  simp only [hs] at hslot
  exact ⟨hslot.1, hslot.2, hqueue⟩

/-! ### The capture timeout (R222, R224) -/

/-- A capture of a line that is low to the deadline completes no run (R217, R219). -/
theorem capture_heldLow {obs : Nat → Level} {G D M : Nat} (hD : 0 < D) (hlow : ∀ t, t < D → obs t = .low) :
    capture obs G D true M = .timeout [] D := by
  have hgap : NoGap G ([] ++ [⟨.low, D⟩]) := by simp [NoGap]
  rw [capture_late (init := []) (runsOf_start obs hD hlow) hD (by simp [dur]) hgap]
  exact if_neg (Nat.not_lt_zero M)

/-- Settles O26: either way the capture ends at the deadline with no items. -/
theorem noItemsTimesOut : Obligations.NoItemsTimesOut := by
  intro p P k env _ hvalid hk hcause
  have hgap := validProfile_gap hvalid
  have hcap : slotCapture p k P env = .timeout [] (captureDeadline p P (txSeq k P)) := by
    unfold slotCapture
    cases halive : env.rxAlive with
    | false => exact capture_dead _ _ _ _
    | true =>
      have hlow := hcause.resolve_left (by simp [halive])
      exact capture_heldLow (by unfold captureDeadline; omega) fun t ht => if_pos (.inr (hlow t ht))
  rw [runSlot, if_neg (by simp [hk]), hcap]
  rfl

end Sys2Proof.Machine
end

section
/-! SUPPORT. The generate engine of a triggered sequence (R211, R212): only the end of the sequence stops it. -/

namespace Sys2Proof.Machine

/-- What a tick leaves, whether it went on or raised a fault. -/
def TickResult.left : TickResult → Xcvr
  | .ok u      => u
  | .raise _ u => u

@[simp] theorem TickResult.left_ok (u : Xcvr) : (TickResult.ok u).left = u := rfl
@[simp] theorem TickResult.left_raise (r : FaultReason) (u : Xcvr) : (TickResult.raise r u).left = u := rfl

/-! ### `busy` through the steps of a tick (R237) -/

/-- A step that leaves `busy` as the step before it did. -/
theorem andThen_busy {a : TickResult} {f : Xcvr → TickResult} (hf : ∀ v, (f v).left.tx.busy = v.tx.busy) :
    (andThen a f).left.tx.busy = a.left.tx.busy := by
  cases a with
  | ok v => exact hf v
  | raise r v => rfl

theorem rxIdleCheck_busy (k : SlotCtx) (u : Xcvr) : (rxIdleCheck k u).left.tx.busy = u.tx.busy := by
  unfold rxIdleCheck
  repeat' split
  all_goals rfl

theorem popBatch_busy (u : Xcvr) : (popBatch u).tx.busy = u.tx.busy := by
  unfold popBatch
  split <;> rfl

theorem timeoutCheck_busy (k : SlotCtx) (u : Xcvr) : (timeoutCheck k u).left.tx.busy = u.tx.busy := by
  unfold timeoutCheck onTimeout
  repeat' split
  all_goals rfl

theorem complete_busy (k : SlotCtx) (u : Xcvr) : (complete k u).left.tx.busy = u.tx.busy := by
  unfold complete
  repeat' split
  all_goals rfl

/-- The sample writes the capture engine alone (R214). -/
theorem rxSample_left (k : SlotCtx) (u : Xcvr) :
    (rxSample k u).left.inst = u.inst ∧ (rxSample k u).left.tx = u.tx := by
  unfold rxSample
  simp only
  repeat' split
  all_goals exact ⟨rfl, rfl⟩

theorem slotGoesOn_busy (k : SlotCtx) (u : Xcvr) : (slotGoesOn k u).left.tx.busy = u.tx.busy := by
  unfold slotGoesOn
  split
  · rfl
  · have hrest : ∀ v, (TickResult.ok (sessAdvance k (txDrive v))).left.tx.busy = v.tx.busy := fun _ => rfl
    rw [andThen_busy hrest, (rxSample_left k u).2]

/-- Only step 1 of a tick stops the generate engine, and only at the end of its sequence (R211, R212). -/
theorem slotTick_busy (k : SlotCtx) (u : Xcvr) :
    (slotTick k u).left.tx.busy = u.tx.busy ∨ k.t = dur k.seq := by
  by_cases hend : k.t = dur k.seq
  · exact .inr hend
  · refine .inl ?_
    have hdone : txDone k u = u := if_neg hend
    rw [slotTick, hdone, andThen_busy, rxIdleCheck_busy]
    intro v
    rw [andThen_busy, timeoutCheck_busy, popBatch_busy]
    intro w
    rw [andThen_busy (slotGoesOn_busy k), complete_busy]

theorem slotTick_left_seq (k : SlotCtx) (u : Xcvr) : (slotTick k u).left.tx.seq = u.tx.seq := by
  cases hv : slotTick k u with
  | ok v => exact (slotTick_ok_frame hv).2.2.2
  | raise r v => exact (slotTick_raise_frame hv).2.2.2

/-! ### A busy engine runs on -/

/-- The generate engine `e` still holds the sequence `q`, and is busy unless the slot of `x` is at its end (R212). -/
def RunsOn (x : Inst) (q : Seq) (e : TxEngine) : Prop :=
  e.seq = some q ∧ (e.busy = true ∨ x.sessT = some (dur q))

/-- A tick lets a busy engine run on, whatever else it does. -/
theorem runsOn_slotTick {s : State} {x : Inst} {b : Binding} {e : TxEngine} {rx : RxEngine} {k : SlotCtx} {q : Seq}
    (hk : slotCtx s x b e = some k) (hbusy : e.busy = true) (hq : e.seq = some q) :
    RunsOn x q (slotTick k ⟨x, e, rx⟩).left.tx := by
  obtain ⟨o, env, seq, n, -, -, hseq, htimer, rfl⟩ := slotCtx_some hk
  cases hq.symm.trans hseq
  refine ⟨by rw [slotTick_left_seq, hq], ?_⟩
  obtain hsame | hend := slotTick_busy ⟨s.params, b.profile, slotKindOf o, env, q, n⟩ ⟨x, e, rx⟩
  · exact .inl (hsame.trans hbusy)
  · exact .inr (htimer.trans (congrArg some hend))

/-- An effect on a live transceiver lets its busy engine run on: a trigger and an UNBIND ask for an engine at rest. -/
theorem Effect.runsOn {s t : State} {i : Nat} {x : Inst} {b : Binding} {e : TxEngine} {q : Seq} (hc : s.Coherent)
    (he : Effect s i t) (hlive : LiveBound s i x b) (htx : s.tx? b.tx = some e) (hbusy : e.busy = true)
    (hq : e.seq = some q) : ∃ e', t.tx? b.tx = some e' ∧ RunsOn x q e' := by
  obtain ⟨hx, hf, hb⟩ := hlive
  have same : RunsOn x q e := ⟨hq, .inl hbusy⟩
  have notIdle : x.session ≠ .idle := by
    intro hs
    obtain ⟨rx, hrx⟩ := (hc.wired hx hb).rx
    obtain ⟨-, hslot⟩ := hc.slots i x b e rx hx hf hb htx hrx
    simp only [hs, hbusy] at hslot
    exact absurd hslot.1 (by decide)
  have ticked : ∀ {x' b' tx rx k r}, s.inst? i = some x' → x'.binding = some b' → s.tx? b'.tx = some tx →
      slotCtx s x' b' tx = some k → slotTick k ⟨x', tx, rx⟩ = r → t.tx? b'.tx = some r.left.tx →
      ∃ e', t.tx? b.tx = some e' ∧ RunsOn x q e' := by
    rintro x' b' tx rx k _ hx' hb' htx' hk rfl ht
    cases hx.symm.trans hx'; cases hb.symm.trans hb'; cases htx.symm.trans htx'
    exact ⟨_, ht, runsOn_slotTick hk hbusy hq⟩
  cases he with
  | nothing => exact ⟨e, htx, same⟩
  | fault r => exact ⟨e, by simpa using htx, same⟩
  | answer st hp => exact ⟨e, by simpa using htx, same⟩
  | lock x' b' cmd => exact ⟨e, by simpa using htx, same⟩
  | gap x' => exact ⟨e, by simpa using htx, same⟩
  | bind x' b' hp hx' hf' hb' => cases hx.symm.trans hx'; cases hb.symm.trans hb'
  | unbind x' b' hp hx' hf' hb' hl hs => cases hx.symm.trans hx'; exact absurd hs notIdle
  | started x' b' o tx rx env hx' hf' hs => cases hx.symm.trans hx'; exact absurd hs notIdle
  | tick x' b' o tx rx k v hx' hf' hs ho hb' htx' hrx hk hv =>
    exact ticked hx' hb' htx' hk hv (by simp [tx_scatter, htx'])
  | raise x' b' o tx rx k v r hx' hf' hs ho hb' htx' hrx hk hv =>
    exact ticked hx' hb' htx' hk hv (by simp [tx_scatter, htx'])
  | lost x' b' o tx rx k v hx' hf' hs ho hb' htx' hrx hk hv =>
    exact ticked hx' hb' htx' hk hv (by simp [tx_scatter, htx'])
  | nextSlot x' b' o tx rx k v o1 o' r c hx' hf' hs ho hb' htx' hrx hk hv =>
    exact ticked hx' hb' htx' hk hv (by simp [tx_scatter, htx'])
  | finish x' b' o tx rx k v o1 r c g st d hx' hf' hs ho hb' htx' hrx hk hv =>
    exact ticked hx' hb' htx' hk hv (by simp [tx_scatter, htx'])

/-- Settles O19: an effect on another transceiver does not reach the engine, and one on this transceiver lets it run
on. -/
theorem triggeredSequenceRunsOn : Obligations.TriggeredSequenceRunsOn := by
  intro s t i x b e q hc hstep hlive htx hbusy hq
  obtain ⟨s', hc', he, hinsts, htxs, -⟩ := step_effect_coherent hc hstep
  have hlive' : LiveBound s' i x b := ⟨(hinsts i).trans hlive.inst, hlive.live, hlive.bound⟩
  have htx' : s'.tx? b.tx = some e := (htxs b.tx).trans htx
  by_cases hi : i = eventTarget (nextEvent s)
  · subst hi
    obtain ⟨e', he', hseq, hruns⟩ := he.runsOn hc' hlive' htx' hbusy hq
    exact ⟨e', he', hseq, hruns⟩
  · obtain ⟨hsame, -⟩ := effect_engines hc' he hlive'.inst hlive.bound (.inl hi)
    exact ⟨e, hsame.trans htx', hq, .inl hbusy⟩

end Sys2Proof.Machine
end

section
/-! SUPPORT. The transitions of `SESSION` (R230): which of them a tick of a slot makes, and that no other move than a
trigger and a tick changes a session. -/

namespace Sys2Proof.Machine

/-! ### What a tick makes of a session -/

/-- The condition of a transition out of the session of `x` holds at tick `n` (R230). -/
def Due (p : Params) (b : Binding) (o : Op) (env : SlotEnv) (n : Nat) (x : Inst) (rx : RxEngine) : Prop :=
  (x.session = .triggered ∧ n = dur (opSeq b o)) ∨
    (x.session = .capturing ∧ (GapAt b.profile env n rx ∨ n = opDeadline p b o)) ∨
    (x.session = .draining ∧ dur (opSeq b o) ≤ n)

/-- What ends a capture at tick `n`, and the session and the result it leaves (R223, R224). -/
inductive CaptureOver (p : Params) (b : Binding) (o : Op) (env : SlotEnv) (n : Nat) (x y : Inst) (rx : RxEngine) : Prop
  /-- A batch that arrives while the sequence still runs. -/
  | batch (hgap : GapAt b.profile env n rx) (hn : n ≤ opDeadline p b o) (hitems : y.decodeItems = some rx.items)
      (hrun : n < dur (opSeq b o)) (hy : y.session = .draining)
  /-- A batch that arrives when the sequence has ended. -/
  | batchDecoded (hgap : GapAt b.profile env n rx) (hn : n ≤ opDeadline p b o) (hitems : y.decodeItems = some rx.items)
      (hover : dur (opSeq b o) ≤ n) (hy : y.session = .idle)
      (hr : y.slotResult = some (decodeSlot (slotKindOf o) rx.items b.profile))
  /-- The deadline, with items completed by then. -/
  | someItems (hgap : ¬ GapAt b.profile env n rx) (hn : n = opDeadline p b o) (hne : rx.items ≠ [])
      (hitems : y.decodeItems = some rx.items) (hy : y.session = .idle)
      (hr : y.slotResult = some (decodeSlot (slotKindOf o) rx.items b.profile))
  /-- The deadline, with no items. -/
  | noItems (hgap : ¬ GapAt b.profile env n rx) (hn : n = opDeadline p b o) (hnil : rx.items = [])
      (hitems : y.decodeItems = x.decodeItems) (hy : y.session = .idle) (hr : y.slotResult = some .captureTimeout)

/-- The transitions that tick `n` of a slot can make, from `x` to `y`, with the capture engine going from `rx` to `rx'`
(R230). -/
inductive Transition (p : Params) (b : Binding) (o : Op) (env : SlotEnv) (n : Nat) (x y : Inst) (rx rx' : RxEngine) :
    Prop
  /-- The end of a write slot. -/
  | written (hs : x.session = .triggered) (hn : n = dur (opSeq b o)) (hy : y.session = .idle)
      (hr : y.slotResult = some .done)
  /-- The end of a capture. -/
  | captured (hs : x.session = .capturing) (hq : y.queue = some []) (hend : y.capEnd = some n)
      (hdis : rx'.armed = false) (hover : CaptureOver p b o env n x y rx)
  /-- The end of the sequence of a slot whose capture has ended. -/
  | decoded (hs : x.session = .draining) (hn : dur (opSeq b o) ≤ n) (hy : y.session = .idle) (items : Seq)
      (hitems : x.decodeItems = some items)
      (hr : y.slotResult = some (decodeSlot (slotKindOf o) items b.profile))

section transitions
variable {p : Params} {b : Binding} {o : Op} {env : SlotEnv} {n : Nat} {x y v : Inst} {rx rx' : RxEngine}

theorem CaptureOver.not_capturing (h : CaptureOver p b o env n x y rx) : y.session ≠ .capturing := by
  cases h <;> simp [*]

/-- A transition leaves the session it starts from. -/
theorem Transition.session_ne (h : Transition p b o env n x y rx rx') : y.session ≠ x.session := by
  cases h with
  | written hs _ hy => simp [hs, hy]
  | captured hs _ _ _ hover => rw [hs]; exact hover.not_capturing
  | decoded hs _ hy => simp [hs, hy]

/-- The operation writes none of the registers a transition is about. -/
theorem Transition.of_regs (hregs : y = { v with lock := y.lock, waiters := y.waiters, op := y.op, fault := y.fault })
    (h : Transition p b o env n x v rx rx') : Transition p b o env n x y rx rx' := by
  rw [hregs]
  cases h with
  | written hs hn hy hr => exact .written hs hn hy hr
  | decoded hs hn hy items hitems hr => exact .decoded hs hn hy items hitems hr
  | captured hs hq hend hdis hover =>
    refine .captured hs hq hend hdis ?_
    cases hover with
    | batch hgap hn hitems hrun hy => exact .batch hgap hn hitems hrun hy
    | batchDecoded hgap hn hitems hover hy hr => exact .batchDecoded hgap hn hitems hover hy hr
    | someItems hgap hn hne hitems hy hr => exact .someItems hgap hn hne hitems hy hr
    | noItems hgap hn hnil hitems hy hr => exact .noItems hgap hn hnil hitems hy hr

theorem idleGapReached_iff : idleGapReached (ctxOf p b.profile o env n) rx = true ↔ GapAt b.profile env n rx := by
  simp only [idleGapReached, Bool.and_eq_true, decide_eq_true_eq, beq_iff_eq]
  exact ⟨fun ⟨⟨⟨⟨ha, hl⟩, ht⟩, hh⟩, hf⟩ => ⟨ha, hl, ht, hh, hf⟩, fun ⟨ha, hl, ht, hh, hf⟩ => ⟨⟨⟨⟨ha, hl⟩, ht⟩, hh⟩, hf⟩⟩

theorem idleGapReached_false (h : ¬ GapAt b.profile env n rx) :
    idleGapReached (ctxOf p b.profile o env n) rx = false :=
  Bool.eq_false_iff.2 (mt idleGapReached_iff.1 h)

/-- A tick makes a transition of `x`, or no transition is due and the session stays. -/
def Makes (p : Params) (b : Binding) (o : Op) (env : SlotEnv) (n : Nat) (x : Inst) (rx : RxEngine) (r : TickResult) :
    Prop :=
  (∃ v, r = .ok v ∧ Transition p b o env n x v.inst rx v.rx) ∨
    (r.left.inst.session = x.session ∧ ¬ Due p b o env n x rx)

variable {tx : TxEngine}

/-- A tick of a write slot (R232). -/
theorem slotTick_makes_triggered (hs : x.session = .triggered) (ha : rx.armed = false)
    (hk : (slotKindOf o).captures = false) (htx : tx = txAt (opSeq b o) n) :
    Makes p b o env n x rx (slotTick (ctxOf p b.profile o env n) ⟨x, tx, rx⟩) := by
  rw [slotTick_triggered (k := ctxOf p b.profile o env n) hs ha hk htx]
  split
  next hn => exact .inl ⟨_, rfl, .written hs hn rfl rfl⟩
  next hn =>
    refine .inr ⟨rfl, ?_⟩
    have hlater : n ≠ dur (opSeq b o) := hn
    simp [Due, hs, hlater]

/-- A tick of a slot whose capture has ended (R234). -/
theorem slotTick_makes_draining {items : Seq} (hs : x.session = .draining) (ha : rx.armed = false)
    (hi : x.decodeItems = some items) (htx : tx = txAt (opSeq b o) n) (hle : n ≤ dur (opSeq b o)) :
    Makes p b o env n x rx (slotTick (ctxOf p b.profile o env n) ⟨x, tx, rx⟩) := by
  rw [slotTick_draining (k := ctxOf p b.profile o env n) hs ha hi htx hle]
  split
  next hn => exact .inl ⟨_, rfl, .decoded hs hn.ge rfl items hi rfl⟩
  next hn =>
    have hlt : n < dur (opSeq b o) := lt_of_le_of_ne hle hn
    refine .inr ⟨rfl, ?_⟩
    simp [Due, hs, hlt]

/-- A tick that reaches the idle gap (R215, R223). -/
theorem slotTick_makes_gap (hs : x.session = .capturing) (hq : x.queue = some []) (hd : 1 ≤ p.queueDepth)
    (hgap : GapAt b.profile env n rx) (htx : tx = txAt (opSeq b o) n) (hle : n ≤ opDeadline p b o) :
    Makes p b o env n x rx (slotTick (ctxOf p b.profile o env n) ⟨x, tx, rx⟩) := by
  rw [slotTick_idleGap (k := ctxOf p b.profile o env n) hs hq hd (idleGapReached_iff.2 hgap) htx]
  split
  next hn => exact .inl ⟨_, rfl, .captured hs rfl rfl rfl (.batchDecoded hgap hle rfl hn rfl rfl)⟩
  next hn => exact .inl ⟨_, rfl, .captured hs rfl rfl rfl (.batch hgap hle rfl (not_le.1 hn) rfl)⟩

/-- A tick at the deadline without the idle gap (R224). -/
theorem slotTick_makes_timeout (hs : x.session = .capturing) (hq : x.queue = some []) (hD : x.deadline = some n)
    (hgap : ¬ GapAt b.profile env n rx) (htx : tx = txAt (opSeq b o) n) (hn : n = opDeadline p b o)
    (hlt : dur (opSeq b o) < n) :
    Makes p b o env n x rx (slotTick (ctxOf p b.profile o env n) ⟨x, tx, rx⟩) := by
  rw [slotTick_timeout (k := ctxOf p b.profile o env n) hs hq hD (idleGapReached_false hgap) htx hlt]
  refine .inl ⟨_, rfl, .captured hs hq rfl rfl ?_⟩
  by_cases hi : rx.items = []
  · exact .noItems hgap hn hi (if_pos hi) rfl (congrArg some (if_pos hi))
  · exact .someItems hgap hn hi (if_neg hi) rfl (congrArg some (if_neg hi))

/-- A tick of a capture that nothing ends: it samples, or overflows, and the session stays (R214, R218). -/
theorem slotTick_makes_sample (hs : x.session = .capturing) (hq : x.queue = some [])
    (hD : x.deadline = some (opDeadline p b o)) (hgap : ¬ GapAt b.profile env n rx) (hn : n ≠ opDeadline p b o) :
    Makes p b o env n x rx (slotTick (ctxOf p b.profile o env n) ⟨x, tx, rx⟩) := by
  rw [slotTick_sample (k := ctxOf p b.profile o env n) hs hq hD hn (idleGapReached_false hgap)]
  refine .inr ⟨?_, by simp [Due, hs, hgap, hn]⟩
  obtain ⟨hinst, -⟩ := rxSample_left (ctxOf p b.profile o env n) (txDone (ctxOf p b.profile o env n) ⟨x, tx, rx⟩)
  rw [txDone_inst] at hinst
  rw [← congrArg Inst.session hinst]
  cases rxSample (ctxOf p b.profile o env n) (txDone (ctxOf p b.profile o env n) ⟨x, tx, rx⟩) <;> rfl

/-- Every tick of a coherent slot in flight makes the transition that is due, and no other (R230, R237). -/
theorem slotTick_makes (hp : p.wf = true) (hP : validProfile p b.profile = true) (hok : SlotOk p b.profile x tx rx)
    (hs : x.session ≠ .idle) (ho : x.op = some o) (he : x.env = some env) (hn : x.sessT = some n) :
    Makes p b o env n x rx (slotTick (ctxOf p b.profile o env n) ⟨x, tx, rx⟩) := by
  obtain ⟨hq, hok⟩ := hok
  cases hsess : x.session with
  | idle => exact absurd hsess hs
  | triggered =>
    simp only [hsess, ho, he, hn] at hok
    obtain ⟨_, _, _, ⟨⟩, ⟨⟩, ⟨⟩, hk, htx, -, ha⟩ := hok
    exact slotTick_makes_triggered hsess ha hk htx
  | draining =>
    simp only [hsess, ho, he, hn] at hok
    obtain ⟨_, _, _, items, ⟨⟩, ⟨⟩, ⟨⟩, -, htx, hle, hi, ha⟩ := hok
    exact slotTick_makes_draining hsess ha hi htx hle
  | capturing =>
    simp only [hsess, ho, he, hn] at hok
    obtain ⟨_, _, _, ⟨⟩, ⟨⟩, ⟨⟩, -, htx, hD, hle, -⟩ := hok
    have hG := validProfile_gap hP
    have hd : 1 ≤ p.queueDepth := by
      simp only [Params.wf, Bool.and_eq_true, decide_eq_true_eq] at hp; omega
    by_cases hgap : GapAt b.profile env n rx
    · exact slotTick_makes_gap hsess hq hd hgap htx hle
    · by_cases hdl : n = opDeadline p b o
      · have hlt : dur (opSeq b o) < n := by rw [hdl, opDeadline, captureDeadline]; omega
        exact slotTick_makes_timeout hsess hq (hdl ▸ hD) hgap htx hdl hlt
      · exact slotTick_makes_sample hsess hq hD hgap hdl

end transitions

/-! ### What a move makes of a session -/

section moves
variable {s t : State} {i : Nat} {x y : Inst}

/-- A tick of a coherent state finds all that it reads (R48). -/
theorem State.Coherent.slotAt (hc : s.Coherent) (hx : s.inst? i = some x) (hf : x.fault = none)
    (hs : x.session ≠ .idle) : ∃ b o env n tx rx, SlotAt s x b o env n tx rx := by
  obtain ⟨b, o, env, n, tx, rx, hb, ho, he, hn, htx, hrx, -⟩ := hc.tickInst_eq hx hf hs 0
  exact ⟨b, o, env, n, tx, rx, hb, ho, he, hn, htx, hrx⟩

/-- A tick of a coherent state makes the transition that is due, and no other (R230). -/
theorem State.Coherent.tickInst_transition (hc : s.Coherent) (hx : s.inst? i = some x) (hf : x.fault = none)
    (hs : x.session ≠ .idle) {b : Binding} {o : Op} {env : SlotEnv} {n g : Nat} {tx : TxEngine} {rx : RxEngine}
    (hslot : SlotAt s x b o env n tx rx) (hy : t.inst? i = some y) (h : tickInst s i g = .next t) :
    (∃ rx', t.rx? b.rx = some rx' ∧ Transition s.params b o env n x y rx rx') ∨
      (y.session = x.session ∧ ¬ Due s.params b o env n x rx) := by
  obtain ⟨hb, ho, he, hn, htx, hrx⟩ := hslot
  obtain ⟨_, _, _, _, _, _, hb', ho', he', hn', htx', hrx', hok, heq, -⟩ := hc.tickInst_eq hx hf hs g
  cases hb.symm.trans hb'; cases ho.symm.trans ho'; cases he.symm.trans he'; cases hn.symm.trans hn'
  cases htx.symm.trans htx'; cases hrx.symm.trans hrx'
  have hmakes := slotTick_makes hc.params (hc.owners.bound i x b hx hb).profile hok hs ho he hn
  rw [heq] at h
  cases hv : slotTick (ctxOf s.params b.profile o env n) ⟨x, tx, rx⟩ with
  | raise r v =>
    rw [hv] at h hmakes
    obtain ⟨v', hv', -⟩ | ⟨hsame, hdue⟩ := hmakes
    · cases hv'
    · cases h
      rw [inst_raiseFault_self (inst_scatter_self hx)] at hy
      cases hy
      exact .inr ⟨hsame, hdue⟩
  | ok v =>
    rw [hv] at h hmakes
    obtain ⟨-, hrxt, z, hz, hregs⟩ := (hc.wired hx hb).afterTick_regs h
    cases hy.symm.trans hz
    obtain ⟨v', hv', htr⟩ | ⟨hsame, hdue⟩ := hmakes
    · cases hv'
      exact .inl ⟨v.rx, hrxt, htr.of_regs hregs⟩
    · exact .inr ⟨(congrArg Inst.session hregs).trans hsame, hdue⟩

/-- With a free lock there is no operation, so no slot (R36, R38). -/
theorem LockOk.idle_of_free (h : LockOk x) (hl : x.lock = .free) : x.session = .idle := by
  by_contra hs
  exact h.flight hs (h.opHeld.2 hl)

/-- No command changes the session: BIND finds it idle, and so does an UNBIND that is no misuse (R230, R296). -/
theorem State.Coherent.issue_session (hc : s.Coherent) {c : Nat} {ws : List Word} {a : Bool} (hx : s.inst? i = some x)
    (hy : t.inst? i = some y) (h : issue s i c ws a = .next t) : y.session = x.session := by
  have hx' : (s.accept i c a).inst? i = some x := by simpa using hx
  have ht : t.Coherent := runEvent_coherent (e := .issue i c ws a) hc h
  obtain hsame | rfl | ⟨cmd, -, e⟩ := issue_cases hx h
  · cases hy.symm.trans hsame; rfl
  · rw [inst_raiseFault_self hx'] at hy
    cases hy; rfl
  · obtain rfl | ⟨r, -, rfl⟩ | ⟨q, -, rfl⟩ | ⟨_, _, _, _, -, hb, rfl⟩ | ⟨-, rfl⟩ := e.inst_cases hx' hy
    · rfl
    · rfl
    · rw [acquireLock_frame]
    · exact ((hc.locks i x hx).unbound hb).2.symm
    · have hfree : x.lock = .free := (ht.locks i _ hy).opHeld.1 rfl
      exact ((hc.locks i x hx).idle_of_free hfree).symm

theorem gapInst_session (hx : s.inst? i = some x) (hy : t.inst? i = some y) (h : gapInst s i = .next t) :
    y.session = x.session := by
  simp only [gapInst, hx] at h
  split at h <;> cases h
  · cases hx.symm.trans hy; rfl
  · rw [inst_setInst_self hx] at hy; cases hy; rfl

theorem trigger_session (p : Params) (P : Profile) (k : SlotKind) (env : SlotEnv) (u : Xcvr) :
    (trigger p P k env u).inst.session = if k.captures then .capturing else .triggered := by
  unfold trigger
  split <;> rfl

/-- A trigger changes the session only from `Idle`, with an operation in flight (R210, R230). -/
theorem State.Coherent.triggerInst_session (hc : s.Coherent) {env : SlotEnv} (hx : s.inst? i = some x)
    (hf : x.fault = none) (hy : t.inst? i = some y) (h : triggerInst s i env = .next t) (hne : y.session ≠ x.session) :
    x.session = .idle ∧ ∃ o, x.op = some o ∧
      y.session = if (slotKindOf o).captures then .capturing else .triggered := by
  have same : s ≠ t := by
    rintro rfl; cases hx.symm.trans hy; exact hne rfl
  by_cases hs : x.session = .idle
  · cases ho : x.op with
    | none =>
      simp only [triggerInst, hx, ho, ite_self] at h
      exact absurd (by injection h) same
    | some o =>
      obtain ⟨b, tx, rx, -, -, -, -, heq⟩ := hc.triggerInst_eq hx hf hs ho env
      rw [heq] at h; cases h
      rw [inst_scatter_self hx] at hy; cases hy
      exact ⟨hs, o, rfl, trigger_session _ _ _ _ _⟩
  · simp only [triggerInst, hx, ne_eq, hs, not_false_eq_true, or_true, if_true] at h
    exact absurd (by injection h) same

theorem tickInst_idle {g : Nat} (hx : s.inst? i = some x) (hs : x.session = .idle) : tickInst s i g = .next s := by
  simp [tickInst, hx, hs]

/-- Taking a move leaves what a tick reads. -/
theorem slotAt_popEvent {b : Binding} {o : Op} {env : SlotEnv} {n : Nat} {tx : TxEngine} {rx : RxEngine} :
    SlotAt (popEvent s) x b o env n tx rx ↔ SlotAt s x b o env n tx rx := by
  constructor <;> rintro ⟨hb, ho, he, hn, htx, hrx⟩ <;> exact ⟨hb, ho, he, hn, by simpa using htx, by simpa using hrx⟩

/-- The moves that change a session: a trigger, and a tick that makes a transition (R230). -/
inductive SessionMove (s t : State) (i : Nat) (x y : Inst) : Prop
  | started (env : SlotEnv) (o : Op) (hev : nextEvent s = .trigger i env) (hs : x.session = .idle) (ho : x.op = some o)
      (hy : y.session = if (slotKindOf o).captures then .capturing else .triggered)
  | ticked (g : Nat) (b : Binding) (o : Op) (env : SlotEnv) (n : Nat) (tx : TxEngine) (rx rx' : RxEngine)
      (hev : nextEvent s = .tick i g) (hslot : SlotAt s x b o env n tx rx) (hrx : t.rx? b.rx = some rx')
      (htr : Transition s.params b o env n x y rx rx')

/-- A step that changes a session is one of these moves, on a transceiver that is not faulted. -/
theorem step_sessionMove (hc : s.Coherent) (h : step s = .next t) (hx : s.inst? i = some x) (hy : t.inst? i = some y)
    (hne : y.session ≠ x.session) : SessionMove s t i x y := by
  have changed : t.inst? i ≠ some x := by
    intro hxt; cases hy.symm.trans hxt; exact hne rfl
  have hi : i = eventTarget (nextEvent s) := by
    by_contra hi
    exact changed ((step_inst_other h hi).trans hx)
  have hf : x.fault = none := by
    by_contra hf
    exact changed (step_faulted_frame hc h hx hf).1
  have hx' : (popEvent s).inst? i = some x := by simpa using hx
  rw [step] at h
  cases he : nextEvent s <;> rw [he] at h hi <;> cases hi
  case issue c ws a => exact absurd (hc.popEvent.issue_session hx' hy h) hne
  case gapTick => exact absurd (gapInst_session hx' hy h) hne
  case trigger env =>
    obtain ⟨hs, o, ho, hsess⟩ := hc.popEvent.triggerInst_session hx' hf hy h hne
    exact .started env o he hs ho hsess
  case tick g =>
    have hs : x.session ≠ .idle := by
      intro hs
      have hsame := (tickInst_idle (g := g) hx' hs).symm.trans h
      cases hsame; exact changed hx'
    obtain ⟨b, o, env, n, tx, rx, hslot⟩ := hc.popEvent.slotAt hx' hf hs
    obtain ⟨rx', hrx', htr⟩ | ⟨hsame, -⟩ := hc.popEvent.tickInst_transition hx' hf hs hslot hy h
    · exact .ticked g b o env n tx rx rx' he (slotAt_popEvent.1 hslot) hrx' (popEvent_params s ▸ htr)
    · exact absurd hsame hne

end moves

/-- Settles O18: a session changes only by the moves of `SessionMove`, and a tick at which a transition is due makes
it. -/
theorem sessionTransitions : Obligations.SessionTransitions := by
  refine ⟨fun s t i x y hc h hx hy hne => ?_, fun s t i g n x y b o env tx rx hc h hev hx hf hslot hy hdue => ?_⟩
  · cases step_sessionMove hc h hx hy hne with
    | started env o hev hs ho hsess => exact .inl ⟨hs, env, o, hev, ho, hsess⟩
    | ticked g b o env n tx rx rx' hev hslot hrx htr =>
      refine .inr ⟨g, b, o, env, n, tx, rx, hev, hslot, ?_⟩
      cases htr with
      | written hs hn hy hr => exact .inl ⟨hs, hn, hy, hr⟩
      | decoded hs hn hy items hitems hr => exact .inr (.inr ⟨hs, hn, hy, items, hitems, hr⟩)
      | captured hs hq hend hdis hover =>
        refine .inr (.inl ⟨hs, hq, hend, ⟨rx', hrx, hdis⟩, ?_⟩)
        cases hover with
        | batch hgap hn hitems hrun hy => exact .inl ⟨hgap, hn, hitems, .inl ⟨hrun, hy⟩⟩
        | batchDecoded hgap hn hitems hover hy hr => exact .inl ⟨hgap, hn, hitems, .inr ⟨hover, hy, hr⟩⟩
        | someItems hgap hn hne hitems hy hr => exact .inr (.inl ⟨hgap, hn, hne, hitems, hy, hr⟩)
        | noItems hgap hn hnil hitems hy hr => exact .inr (.inr ⟨hgap, hn, hnil, hitems, hy, hr⟩)
  · have hs : x.session ≠ .idle := by
      obtain ⟨hs, -⟩ | ⟨hs, -⟩ | ⟨hs, -⟩ := hdue <;> simp [hs]
    have hx' : (popEvent s).inst? i = some x := by simpa using hx
    rw [step, hev] at h
    obtain ⟨rx', -, htr⟩ | ⟨-, hnot⟩ :=
      hc.popEvent.tickInst_transition hx' hf hs (slotAt_popEvent.2 hslot) hy h
    · exact htr.session_ne
    · exact absurd hdue (popEvent_params s ▸ hnot)

end Sys2Proof.Machine
end

section
/-! SUPPORT. The slots of a healthy bus in closed form (R219, R238): a line with one low stretch, such as a reset slot with no
responder and a read slot, and a reset slot with a presence pulse; with the statements about them. -/

namespace Sys2Proof.Machine

/-! ### A line with one low stretch -/

section oneLow
variable {p : Params} {P : Profile} {k : SlotKind} {env : SlotEnv} {n : Nat}

/-- A slot whose capture is a batch decodes it at the end of the capture or of the sequence (R226, R238). -/
theorem runSlot_of_batch {items : Seq} {T : Nat} (hk : k.captures = true) (h : slotCapture p k P env = .batch items T) :
    runSlot p k P env = .finished (decodeSlot k items P) (max (dur (txSeq k P)) T) := by
  rw [slotCapture] at h
  rw [runSlot_capture hk, h]

/-- One low stretch whose idle gap comes by the deadline is a batch of one item. -/
theorem slotCapture_oneLow (hp : p.wf = true) (hvalid : validProfile p P = true) (halive : env.rxAlive = true)
    (hline : ∀ t, line env (txSeq k P) t = if t < n then .low else .high) (hn : 0 < n)
    (hD : n + P.rxIdleGap ≤ captureDeadline p P (txSeq k P)) :
    slotCapture p k P env = .batch [⟨.low, n⟩] (n + P.rxIdleGap) := by
  have hroom := two_le_rxMaxItems hp
  rw [slotCapture, halive]
  refine capture_oneLow hn (validProfile_gap hvalid) (by omega) hD (fun t ht => ?_) (fun t ht _ => ?_)
  · rw [hline, if_pos ht]
  · rw [hline, if_neg (by omega)]

theorem runSlot_oneLow (hp : p.wf = true) (hvalid : validProfile p P = true) (hk : k.captures = true)
    (halive : env.rxAlive = true) (hline : ∀ t, line env (txSeq k P) t = if t < n then .low else .high) (hn : 0 < n)
    (hD : n + P.rxIdleGap ≤ captureDeadline p P (txSeq k P)) :
    runSlot p k P env = .finished (decodeSlot k [⟨.low, n⟩] P) (max (dur (txSeq k P)) (n + P.rxIdleGap)) :=
  runSlot_of_batch hk (slotCapture_oneLow hp hvalid halive hline hn hD)

/-- A line that comes up too late for its idle gap leaves its low stretch to the deadline, as a partial item (R224). -/
theorem slotCapture_lateHigh (hp : p.wf = true) (halive : env.rxAlive = true)
    (hline : ∀ t, line env (txSeq k P) t = if t < n then .low else .high) (hn : 0 < n)
    (hup : n < captureDeadline p P (txSeq k P)) (hlate : captureDeadline p P (txSeq k P) < n + P.rxIdleGap) :
    slotCapture p k P env = .timeout [⟨.low, n⟩] (captureDeadline p P (txSeq k P)) := by
  have hroom := two_le_rxMaxItems hp
  rw [slotCapture, halive]
  generalize captureDeadline p P (txSeq k P) = D at *
  have hlow : runsOf (line env (txSeq k P)) n = [] ++ [⟨.low, n⟩] :=
    runsOf_start _ hn fun t ht => by rw [hline, if_pos ht]
  have hruns : runsOf (line env (txSeq k P)) (n + (D - n)) = [⟨.low, n⟩] ++ [⟨.high, D - n⟩] :=
    runsOf_other _ hlow (by decide) (by omega) fun t ht _ => by rw [hline, if_neg (by omega)]
  rw [Nat.add_sub_cancel' hup.le] at hruns
  have hshort : D - n < P.rxIdleGap := by omega
  rw [capture_late hruns (by omega) (by simp only [dur]; omega) (by simp [NoGap, hshort]),
    if_neg (by simp only [List.length_singleton]; omega)]

/-- One low stretch that is over before the deadline is what the slot decodes, with or without its idle gap. -/
theorem runSlot_oneLow_decodes (hp : p.wf = true) (hvalid : validProfile p P = true) (hk : k.captures = true)
    (halive : env.rxAlive = true) (hline : ∀ t, line env (txSeq k P) t = if t < n then .low else .high) (hn : 0 < n)
    (hup : n < captureDeadline p P (txSeq k P)) :
    ∃ T, runSlot p k P env = .finished (decodeSlot k [⟨.low, n⟩] P) T := by
  by_cases hD : n + P.rxIdleGap ≤ captureDeadline p P (txSeq k P)
  · exact ⟨_, runSlot_oneLow hp hvalid hk halive hline hn hD⟩
  · have hlate := slotCapture_lateHigh hp halive hline hn hup (by omega)
    rw [slotCapture] at hlate
    exact ⟨_, by rw [runSlot_capture hk, hlate]⟩

end oneLow

/-! ### Reset slots (R255) -/

/-- The low stretch of the reset pulse itself is no presence (R177). -/
theorem decodePresence_resetOnly (P : Profile) : decodePresence [⟨.low, P.resetLow⟩] P = .absent := by
  simp [decodePresence, presenceFrom]

/-- Settles O22: the line has one low stretch, the reset pulse. -/
theorem silentBusIsAbsent : Obligations.SilentBusIsAbsent := by
  intro p P hp hvalid
  obtain ⟨hreset, -⟩ := validProfile_facts hvalid
  rw [runSlot_oneLow hp hvalid rfl rfl (line_silent P.resetLow P.rxIdleGap) hreset
    (by simp only [captureDeadline, txSeq, encodeReset, dur]; omega)]
  simp only [decodeSlot, decodePresence_resetOnly, txSeq, encodeReset, dur, Nat.add_zero, Nat.max_self]

/-- A capture of two low stretches with less than the idle gap between them, and then silence. -/
theorem capture_twoLows {obs : Nat → Level} {a s e G D M : Nat} (ha : 0 < a) (has : a < s) (hse : s < e) (hs : s < a + G)
    (hM : 3 ≤ M) (hD : e + G ≤ D)
    (hline : ∀ t, obs t = if t < a ∨ (s ≤ t ∧ t < e) then .low else .high) :
    capture obs G D true M = .batch [⟨.low, a⟩, ⟨.high, s - a⟩, ⟨.low, e - s⟩] (e + G) := by
  have hreset : runsOf obs a = [] ++ [⟨.low, a⟩] := runsOf_start obs ha fun t ht => by rw [hline, if_pos (.inl ht)]
  have hgap : runsOf obs (a + (s - a)) = [⟨.low, a⟩] ++ [⟨.high, s - a⟩] :=
    runsOf_other obs hreset (by decide) (by omega) fun t _ _ => by rw [hline, if_neg (by omega)]
  rw [Nat.add_sub_cancel' has.le] at hgap
  have hpulse : runsOf obs (s + (e - s)) = [⟨.low, a⟩, ⟨.high, s - a⟩] ++ [⟨.low, e - s⟩] :=
    runsOf_other obs hgap (by decide) (by omega) fun t _ _ => by rw [hline, if_pos (by omega)]
  rw [Nat.add_sub_cancel' hse.le] at hpulse
  have hidle : runsOf obs (e + G) = [⟨.low, a⟩, ⟨.high, s - a⟩, ⟨.low, e - s⟩] ++ [⟨.high, G⟩] :=
    runsOf_other obs hpulse (by decide) (by omega) fun t _ _ => by rw [hline, if_neg (by omega)]
  have hshort : s - a < G := by omega
  rw [capture_gap (by omega) hD hidle (by simp only [dur]; omega) (by simp [NoGap, hshort])]
  exact if_neg (not_lt.2 hM)

/-- A pulse that begins in the presence window is the low item that decides (R176). -/
theorem decodePresence_pulse {P : Profile} {s w : Nat} (hafter : P.resetLow < s) (hbefore : s < P.resetLow + P.rxIdleGap) :
    decodePresence [⟨.low, P.resetLow⟩, ⟨.high, s - P.resetLow⟩, ⟨.low, w⟩] P = .present := by
  have hstart : P.resetLow + (s - P.resetLow) = s := by omega
  simp [decodePresence, presenceFrom, hstart, hafter, hbefore]

/-- Settles O23: the line is low in the reset pulse and in the responder's, and the second one decides. -/
theorem presencePulseIsPresent : Obligations.PresencePulseIsPresent := by
  intro p P s e _ hvalid hroom hafter hbefore hse hdeadline
  obtain ⟨hreset, -⟩ := validProfile_facts hvalid
  have hcap : slotCapture p .resetSlot P (healthyBus (lowOver s e)) =
      .batch [⟨.low, P.resetLow⟩, ⟨.high, s - P.resetLow⟩, ⟨.low, e - s⟩] (e + P.rxIdleGap) :=
    capture_twoLows hreset hafter hse hbefore hroom
      (by simp only [captureDeadline, txSeq, encodeReset, dur]; omega) fun t => line_pulse _ _ _ _ _ hse.le
  rw [runSlot_of_batch rfl hcap, decodeSlot, decodePresence_pulse hafter hbefore]
  rfl

/-! ### Read slots (R261) -/

section readSlot
variable {P : Profile} {n : Nat}

/-- A responder that is low from the trigger on, past the master's own low phase, makes one low stretch of the line. -/
theorem line_readSlot_held (h : P.write1Low ≤ n) (t : Nat) :
    line (healthyBus (lowOver 0 n)) (txSeq .readSlot P) t = if t < n then .low else .high := by
  rw [txSeq, encodeReadTrigger, line_pulse _ _ _ _ _ (Nat.zero_le n)]
  exact if_congr (by omega) rfl rfl

/-- A read slot reads one low stretch as whether the sample falls past it (R178). -/
theorem decodeSlot_read_oneLow (P : Profile) (n : Nat) :
    decodeSlot .readSlot [⟨.low, n⟩] P = .bit (decide (n ≤ P.sampleOffset)) := by
  rw [decodeSlot, decodeReadBit_of_lowUntil (levelAt_low n)]

theorem readSlot_deadline (p : Params) (P : Profile) : captureDeadline p P (txSeq .readSlot P) =
    P.write1Low + P.write1High + P.rxIdleGap + p.captureMargin := rfl

end readSlot

/-- Settles O24: the line has one low stretch, the master's own or the responder's. -/
theorem readSlotReadsResponder : Obligations.ReadSlotReadsResponder := by
  intro p P n hp hvalid hone
  obtain ⟨-, hlow, -⟩ := validProfile_facts hvalid
  constructor
  · rw [runSlot_oneLow hp hvalid rfl rfl (line_silent P.write1Low P.write1High) hlow
      (by rw [readSlot_deadline]; omega), decodeSlot_read_oneLow, decide_eq_true hone]
    rfl
  · intro hn hdeadline
    rw [runSlot_oneLow hp hvalid rfl rfl (line_readSlot_held hn) (by omega) hdeadline, decodeSlot_read_oneLow]
    rfl

end Sys2Proof.Machine
end

section
/-! SUPPORT. The bus lock and the gap between two slots (R250, R251, R253): a bus command at its port, the release of the
lock, and what a tick of the gap and a tick of a slot do; with the statements about them. -/

namespace Sys2Proof.Machine

/-! ### A bus command at its port (R109, R250) -/

/-- A bus command at a live, bound transceiver takes the lock or waits for it, and does nothing else. -/
theorem exec_busCommand {s : State} {x : Inst} {b : Binding} (h : LiveBound s s.port.inst x b) {cmd : Instr} {q : BusCmd}
    (hq : busCmdOf cmd = some q) :
    exec cmd s = .next (s.setInst s.port.inst (acquireLock x s.port.caller q)) := by
  have hbus : busCommand q s = .next (s.setInst s.port.inst (acquireLock x s.port.caller q)) := by
    rw [busCommand, onPort_live h.inst h.live]
    simp only [h.bound]
  cases cmd <;> cases hq <;> exact hbus

/-- Settles O33: the lock is free, so `acquireLock` grants it. -/
theorem busCommandTakesFreeLock : Obligations.BusCommandTakesFreeLock := by
  intro s x b hlive hfree
  have takes {cmd : Instr} {q : BusCmd} (hq : busCmdOf cmd = some q) : exec cmd s = .next (s.setInst s.port.inst
      { x with lock := .held s.port.caller, op := some (opStart q) }) := by
    rw [exec_busCommand hlive hq, acquireLock_free hfree]
  exact ⟨takes rfl, fun _ => takes rfl, takes rfl, fun _ => takes rfl, takes rfl⟩

/-- Settles O34: the lock is held, so `acquireLock` adds a waiter. -/
theorem busCommandWaitsForHeldLock : Obligations.BusCommandWaitsForHeldLock := by
  intro s x b c cmd q hlive hheld hq
  rw [exec_busCommand hlive hq, acquireLock_held hheld]

/-! ### The release of the lock (R250) -/

theorem releaseLock_nil {x : Inst} (h : x.waiters = []) (g : Nat) :
    releaseLock x g = { x with op := none, lock := .free } := by
  rw [releaseLock, pickWaiter_none.2 h]

/-- The draw of a waiter's own position picks that waiter. -/
theorem pickWaiter_index {ws : List Waiter} {g : Nat} (h : g < ws.length) :
    pickWaiter ws g = some (ws[g], ws.eraseIdx g) := by
  simp only [pickWaiter, Nat.mod_eq_of_lt h, List.getElem?_eq_getElem h]

theorem releaseLock_some {x : Inst} {g : Nat} {w : Waiter} {ws : List Waiter}
    (h : pickWaiter x.waiters g = some (w, ws)) :
    releaseLock x g = { x with op := some (opStart w.cmd), lock := .held w.caller, waiters := ws } := by
  rw [releaseLock, h]

/-- Settles O35: a draw picks one of the waiters, and the draw of a waiter's position picks it. -/
theorem releaseGrantsSomeWaiter : Obligations.ReleaseGrantsSomeWaiter := by
  refine fun x => ⟨fun hnil g => ?_, fun hne g => ?_, fun w hw => ?_⟩
  · rw [releaseLock_nil hnil]
    exact ⟨rfl, rfl⟩
  · obtain ⟨hnil, -⟩ | ⟨w, ws, hpick, hrel⟩ := releaseLock_cases x g
    · exact absurd hnil hne
    · obtain ⟨hw, hothers⟩ := pickWaiter_some hpick
      rw [hrel]
      exact ⟨w, hw, rfl, rfl, hothers⟩
  · obtain ⟨g, hg, rfl⟩ := List.getElem_of_mem hw
    refine ⟨g, ?_⟩
    rw [releaseLock_some (pickWaiter_index hg)]
    exact ⟨rfl, rfl⟩

/-! ### A tick of a slot: the lock and the responses (R253) -/

/-- A bus command ends with `OK` or with `CAPTURE_TIMEOUT` (R255 to R267). -/
theorem afterSlot_finished_status {o : Op} {r : SlotResult} {st : Status} {d : Byte}
    (h : afterSlot o r = .finished st d) : st = .ok ∨ st = .captureTimeout := by
  unfold afterSlot at h
  split at h
  · -- RESET: a presence or a timeout
    cases r <;> cases h
    · exact .inl rfl
    · exact .inr rfl
  · -- WRITE_BIT
    cases h
    exact .inl rfl
  · -- READ_BIT: a bit or a timeout
    cases r <;> cases h
    · exact .inl rfl
    · exact .inr rfl
  · -- WRITE_BYTE: after the last slot
    unfold afterWriteByte at h
    split at h <;> cases h
    exact .inl rfl
  · -- READ_BYTE: the last bit or a timeout
    cases r with
    | bit b =>
      simp only [afterReadByte] at h
      split at h <;> cases h
      exact .inl rfl
    | captureTimeout => cases h; exact .inr rfl
    | done | presence => cases h

/-- The lock of `x` has been released, and `y` is the transceiver after it (R250): one of the waiters holds it, with its
operation started, or it is free. -/
def Released (x y : Inst) : Prop :=
  (x.waiters = [] ∧ y.lock = .free ∧ y.op = none) ∨
    ∃ w ∈ x.waiters, y.lock = .held w.caller ∧ y.op = some ⟨w.cmd, 0, 0#8, 0⟩

theorem released_releaseLock (x : Inst) (g : Nat) : Released x (releaseLock x g) := by
  obtain ⟨hnil, hrel⟩ | ⟨w, ws, hpick, hrel⟩ := releaseLock_cases x g <;> rw [hrel]
  · exact .inl ⟨hnil, rfl, rfl⟩
  · exact .inr ⟨w, (pickWaiter_some hpick).1, rfl, rfl⟩

/-- What a tick does to the lock of transceiver `i`, which takes it from `x` to `y`, and to the responses: nothing to
either, or it releases the lock and answers the holder `c` (R253). -/
inductive LockMove (i c : Nat) (x y : Inst) (old new : List Response) : Prop
  | kept (hnew : new = old) (hlock : y.lock = x.lock) (hwaiters : y.waiters = x.waiters)
  | answered (st : Status) (d : Byte) (n : Nat) (hst : st = .ok ∨ st = .captureTimeout)
      (hnew : new = ⟨i, c, responseWord st d, n⟩ :: old) (hrel : Released x y)

section lockMoves
variable {s t : State} {i g c : Nat} {x v y : Inst}

/-- A step of the tick that wrote neither the lock nor the waiters may come before. -/
theorem LockMove.of_frame {old new : List Response} (hframe : TickFrame x v) (h : LockMove i c v y old new) :
    LockMove i c x y old new := by
  cases h with
  | kept hnew hlock hwaiters => exact .kept hnew (hlock.trans hframe.lock) (hwaiters.trans hframe.waiters)
  | answered st d n hst hnew hrel =>
    rw [Released, hframe.waiters] at hrel
    exact .answered st d n hst hnew hrel

theorem raiseFault_lockMove {r : FaultReason} (hx : s.inst? i = some x) (hy : (raiseFault s i r).inst? i = some y) :
    LockMove i c x y s.responses (raiseFault s i r).responses := by
  rw [inst_raiseFault_self hx] at hy
  cases hy
  exact .kept (by simp) rfl rfl

/-- A completed slot leaves the lock when the operation goes on, and releases it as the operation answers. -/
theorem slotDone_lockMove (hx : s.inst? i = some x) (hl : x.lock = .held c) (hy : t.inst? i = some y)
    (h : slotDone s i g = .next t) : LockMove i c x y s.responses t.responses := by
  unfold slotDone at h
  rw [hx] at h
  simp only at h
  split at h
  case h_1 o r c' _ _ hc =>
    cases hl.symm.trans hc
    split at h <;> cases h
    case h_1 =>
      rw [inst_setInst_self hx] at hy
      cases hy
      exact .kept rfl rfl rfl
    case h_2 st d ha =>
      rw [respond_inst_read, inst_setInst_self hx] at hy
      cases hy
      exact .answered st d _ (afterSlot_finished_status ha) rfl (released_releaseLock x g)
    case h_3 => exact raiseFault_lockMove hx hy
  case h_2 =>
    cases h
    exact raiseFault_lockMove hx hy

/-- Whatever the steps of a tick leave, they write neither the lock nor the waiters (R237). -/
theorem afterTick_lockMove {b : Binding} {k : SlotCtx} {u : Xcvr} (hx : s.inst? i = some u.inst)
    (hl : u.inst.lock = .held c) (hy : t.inst? i = some y) (h : afterTick s i b g (slotTick k u) = .next t) :
    LockMove i c u.inst y s.responses t.responses := by
  cases hv : slotTick k u with
  | raise r v =>
    rw [hv] at h; cases h
    exact (raiseFault_lockMove (inst_scatter_self hx) hy).of_frame (slotTick_raise_frame hv).1
  | ok v =>
    have hframe := (slotTick_ok_frame hv).1
    rw [hv] at h
    simp only [afterTick] at h
    split at h
    · exact (slotDone_lockMove (inst_scatter_self hx) (hframe.lock.trans hl) hy h).of_frame hframe
    · cases h
      rw [inst_scatter_self hx] at hy; cases hy
      exact .kept rfl hframe.lock hframe.waiters

theorem tickInst_lockMove (hx : s.inst? i = some x) (hl : x.lock = .held c) (hy : t.inst? i = some y)
    (h : tickInst s i g = .next t) : LockMove i c x y s.responses t.responses := by
  simp only [tickInst, hx] at h
  have faulted : raiseFault s i .noValue = t → LockMove i c x y s.responses t.responses := by
    rintro rfl; exact raiseFault_lockMove hx hy
  split at h
  · cases h; cases hx.symm.trans hy
    exact .kept rfl rfl rfl
  · split at h
    · exact faulted (by injection h)
    · split at h
      · exact faulted (by injection h)
      · rename_i u hu
        obtain ⟨rfl, -, -⟩ := gather_eq.1 hu
        split at h
        · exact faulted (by injection h)
        · exact afterTick_lockMove hx hl hy h

end lockMoves

/-- Settles O55: the step is the tick, which makes one of the two moves of `LockMove`. -/
theorem responseReleasesLock : Obligations.ResponseReleasesLock := by
  intro s t i g c x y h he hx hl hy
  rw [step, he] at h
  obtain ⟨hnew, hlock, hwaiters⟩ | ⟨st, d, n, hst, hnew, hrel⟩ :=
    tickInst_lockMove (s := popEvent s) (by simpa using hx) hl hy h
  · exact .inl ⟨by simpa using hnew, hlock, hwaiters⟩
  · exact .inr ⟨st, d, n, hst, by simpa using hnew, hrel⟩

/-! ### A tick of the gap (R251) -/

section gap
variable {s : State} {i : Nat} {x : Inst}

theorem gapInst_idle (hx : s.inst? i = some x) (hf : x.fault = none) (hs : x.session = .idle) :
    gapInst s i = .next (s.setInst i { x with op := x.op.map opTick }) := by
  simp [gapInst, hx, hf, hs]

theorem gapInst_not_idle (hx : s.inst? i = some x) (h : x.fault ≠ none ∨ x.session ≠ .idle) :
    gapInst s i = .next s := by
  simp only [gapInst, hx, Option.isSome_iff_ne_none, if_pos h]

/-- A generate engine that is not busy releases the line (R43, R201). -/
theorem TxEngine.drive_of_not_busy {e : TxEngine} (h : e.busy = false) : e.drive = .high := by
  simp [TxEngine.drive, h]

end gap

/-- Settles O60: a tick of the gap is `gapInst`, and after it an idle session is dormant. -/
theorem gapTickFrame : Obligations.GapTickFrame := by
  refine ⟨fun s i x he hx => ?_, fun s t i x b tx hc _ hstep hlive hs htx => ?_⟩
  · have hx' : (popEvent s).inst? i = some x := by simpa using hx
    rw [step, he]
    exact ⟨gapInst_idle hx', gapInst_not_idle hx'⟩
  · obtain ⟨rx, hrx⟩ := ((step_coherent hc hstep).wired hlive.inst hlive.bound).rx
    obtain ⟨hbusy, -, -⟩ := idleMeansDormant s t i x b tx rx hc hstep hlive hs htx hrx
    exact TxEngine.drive_of_not_busy hbusy

end Sys2Proof.Machine
end

section
/-! SUPPORT. The bus commands from their issue to their response (R252 to R271): one slot for a bit and for RESET, up to eight
for a byte; with the statements about them. -/

namespace Sys2Proof.Machine

/-! ### Commands of one slot (R255, R258, R261) -/

/-- A slot that ends the command gives its response, the gap and the completion tick after the grant of the lock. -/
theorem single_completes {s : State} {x : Inst} {b : Binding} (hready : Ready s x b) {cmd : Instr} {q : BusCmd}
    (hq : busCmdOf cmd = some q) {env : SlotEnv} {gap T g : Nat} {r : SlotResult} {st : Status} {d : Byte}
    (hr : runSlot s.params (slotKindOf (opStart q)) b.profile env = .finished r T)
    (hends : afterSlot (opAfter (opStart q) (gap + T)) r = .finished st d) :
    ∃ u, Completes cmd s b (slotEvents s.port.inst gap env T g) (responseWord st d) (gap + T) u := by
  obtain ⟨u, hu, -⟩ := holding_single (g := g) hready hq hr hends
  exact ⟨u, hu⟩

theorem presenceData_eq (pr : Presence) : presenceData pr = if pr = .present then 1#8 else 0#8 := by
  cases pr <;> rfl

/-- Settles O36: the reset slot ends the operation, with the presence as its data. -/
theorem resetCompletes : Obligations.ResetCompletes := by
  intro s x b env gap T grant hready
  refine ⟨fun pr hr => ?_, fun hr => single_completes (q := .reset) hready rfl hr rfl⟩
  rw [← presenceData_eq]
  exact single_completes (q := .reset) hready rfl hr rfl

/-- Settles O37: the write slot ends with its sequence and has no capture. -/
theorem writeBitCompletes : Obligations.WriteBitCompletes := by
  intro s x b v env gap grant hready
  obtain ⟨u, hu, -, hrxe⟩ := holding_single (gap := gap) (g := grant) hready (cmd := .writeBit v) rfl
    (runSlot_write (env := env) rfl) rfl
  exact ⟨u, hu, hrxe rfl⟩

/-- Settles O38: the read slot ends the operation, with the bit as its data. -/
theorem readBitCompletes : Obligations.ReadBitCompletes := fun _ _ _ _ _ _ _ hready =>
  ⟨fun _ hr => single_completes (q := .readBit) hready rfl hr rfl,
    fun hr => single_completes (q := .readBit) hready rfl hr rfl⟩

/-! ### RESET again (R270) -/

/-- Where a command has completed, the next one can start at once. -/
theorem Completes.ready {cmd : Instr} {s u : State} {b : Binding} {moves : List Event} {word : Word} {ticks : Nat}
    (h : Completes cmd s b moves word ticks u) (hc : u.Coherent) : ∃ y, Ready u y b := by
  obtain ⟨y, hy, hb, hf, hl, -⟩ := h.rested
  obtain ⟨-, hport, -⟩ := h.rest
  exact ⟨y, hc, ⟨hport ▸ hy, hf, hb⟩, hl⟩

/-- Every result of a reset slot ends RESET, the same way after any number of ticks (R255). -/
theorem afterSlot_resetSlot {p : Params} {P : Profile} {env : SlotEnv} {r : SlotResult} {T : Nat}
    (h : runSlot p .resetSlot P env = .finished r T) :
    ∃ st d, ∀ n, afterSlot (opAfter (opStart .reset) n) r = .finished st d := by
  obtain rfl | ⟨items, -, rfl⟩ := runSlot_finished rfl h
  · exact ⟨_, _, fun _ => rfl⟩
  · exact ⟨_, _, fun _ => rfl⟩

/-- Settles O43: the first RESET leaves the parameters and the binding, so the second one has the same slot. -/
theorem repeatedResetAgrees : Obligations.RepeatedResetAgrees := by
  intro s x b env gap gap' grant grant' r T hready hr
  obtain ⟨st, d, hends⟩ := afterSlot_resetSlot hr
  obtain ⟨u, hu, hc, -⟩ :=
    holding_single (gap := gap) (g := grant) hready (cmd := .reset) (q := .reset) rfl hr (hends _)
  obtain ⟨y, hready'⟩ := hu.ready hc
  obtain ⟨hparams, hport, -⟩ := hu.rest
  rw [← hparams] at hr
  obtain ⟨u', hu'⟩ :=
    single_completes (gap := gap') (g := grant') hready' (cmd := .reset) (q := .reset) rfl hr (hends _)
  rw [hport] at hu'
  exact ⟨responseWord st d, u, u', hu, hu'⟩

/-! ### Byte commands, slot by slot (R264, R267) -/

/-- The operation of a byte command before its slot `j`, with the bits `acc j` assembled so far. -/
def byteOp (q : BusCmd) (acc : Nat → Byte) (gap T : Nat → Nat) (j : Nat) : Op :=
  ⟨q, Fin.ofNat 8 j, acc j, byteTicks j gap T⟩

/-- Slot `j` of the byte command ends with `r j` at its tick `T j`, and leaves the next slot to run. -/
structure SlotRunsOn (p : Params) (P : Profile) (q : BusCmd) (acc : Nat → Byte) (gap T : Nat → Nat) (env : Nat → SlotEnv)
    (r : Nat → SlotResult) (j : Nat) : Prop where
  ends   : runSlot p (slotKindOf (byteOp q acc gap T j)) P (env j) = .finished (r j) (T j)
  runsOn : afterSlot (opAfter (byteOp q acc gap T j) (gap j + T j)) (r j) = .nextSlot (byteOp q acc gap T (j + 1))

section byteSlots
variable {s0 s : State} {i c n g : Nat} {b : Binding} {x : Inst} {q : BusCmd} {acc : Nat → Byte} {gap T : Nat → Nat}
  {env : Nat → SlotEnv} {r : Nat → SlotResult}

/-- The first `n` slots of a byte command run under one hold of the lock. -/
theorem Holding.byteSlots (h : Holding s0 s i c b (byteOp q acc gap T 0) x)
    (hslots : ∀ j < n, SlotRunsOn s0.params b.profile q acc gap T env r j) :
    ∃ u y, runEvents (byteEvents i n gap env T g) s = .next u ∧ Holding s0 u i c b (byteOp q acc gap T n) y ∧
      ((∀ j < n, (slotKindOf (byteOp q acc gap T j)).captures = false) → u.rxe = s.rxe) := by
  induction n with
  | zero => exact ⟨s, x, rfl, h, fun _ => rfl⟩
  | succ n ih =>
    obtain ⟨u, y, hrun, hold, hrxe⟩ := ih fun j hj => hslots j (Nat.lt_succ_of_lt hj)
    obtain ⟨hends, hrunsOn⟩ := hslots n (Nat.lt_succ_self n)
    obtain ⟨u', y', hrun', hold', hrxe'⟩ := holding_next (g := g) hold hends hrunsOn
    refine ⟨u', y', ?_, hold', fun hk => ?_⟩
    · rw [byteEvents_succ, runEvents_append_next hrun, hrun']
    · rw [hrxe' (hk n (Nat.lt_succ_self n)), hrxe fun j hj => hk j (Nat.lt_succ_of_lt hj)]

/-- A byte command, from its issue to the response after slot `n`, the slot that ends it. -/
theorem byte_completes (hready : Ready s x b) {cmd : Instr} (hq : busCmdOf cmd = some q) (hacc : acc 0 = 0#8)
    {last : SlotResult} {st : Status} {d : Byte}
    (hslots : ∀ j < n, SlotRunsOn s.params b.profile q acc gap T env r j)
    (hr : runSlot s.params (slotKindOf (byteOp q acc gap T n)) b.profile (env n) = .finished last (T n))
    (hends : afterSlot (opAfter (byteOp q acc gap T n) (gap n + T n)) last = .finished st d) :
    ∃ u, Completes cmd s b (byteEvents s.port.inst (n + 1) gap env T g) (responseWord st d) (byteTicks (n + 1) gap T) u ∧
      ((∀ j ≤ n, (slotKindOf (byteOp q acc gap T j)).captures = false) → u.rxe = s.rxe) := by
  obtain ⟨t, hexec, hrxe, hold⟩ := holding_start hready hq
  have hstart : opStart q = byteOp q acc gap T 0 := by rw [byteOp, hacc]; rfl
  rw [hstart] at hold
  obtain ⟨v, y, hrun, hold', hrxe'⟩ := hold.byteSlots (g := g) hslots
  obtain ⟨u, hrun', hresp, hblocked, hrested, hinsts, hengines, howners, hrest, -, hrxe''⟩ :=
    holding_finish (g := g) hold' hr hends
  refine ⟨u, ⟨⟨t, hexec, ?_⟩, ?_, hblocked, hrested, hinsts, hengines, howners, hrest⟩, fun hk => ?_⟩
  · rw [byteEvents_succ, runEvents_append_next hrun, hrun']
  · rw [hresp, byteTicks_succ]
    rfl
  · rw [hrxe'' (hk n le_rfl), hrxe' fun j hj => hk j hj.le, hrxe]

end byteSlots

section byteOps
variable {j k : Nat} {acc : Nat → Byte} {gap T : Nat → Nat}

theorem byteOp_slot {q : BusCmd} (hj : j < 8) : (byteOp q acc gap T j).slot.val = j := Nat.mod_eq_of_lt hj

theorem byteOp_slot_succ {q : BusCmd} : (byteOp q acc gap T j).slot + 1 = (byteOp q acc gap T (j + 1)).slot := by
  simp [byteOp, Fin.ext_iff, Fin.val_add]

theorem slotKindOf_writeByte {v : Byte} (hj : j < 8) :
    slotKindOf (byteOp (.writeByte v) acc gap T j) = .writeSlot (v.getLsbD j) := by
  rw [slotKindOf]
  simp only [byteOp_slot hj]
  rfl

/-- After a slot that leaves another to run, it is the byte command before the next slot. -/
theorem opAfter_byteOp_next {q : BusCmd} : { opAfter (byteOp q acc gap T j) (gap j + T j) with
    slot := (byteOp q acc gap T j).slot + 1, acc := acc (j + 1) } = byteOp q acc gap T (j + 1) := by
  rw [byteOp_slot_succ]
  simp only [opAfter, byteOp, byteTicks_succ]

theorem afterSlot_writeByte_next {v : Byte} {r : SlotResult} (hj : j < 7) :
    afterSlot (opAfter (byteOp (.writeByte v) (fun _ => 0#8) gap T j) (gap j + T j)) r =
      .nextSlot (byteOp (.writeByte v) (fun _ => 0#8) gap T (j + 1)) := by
  rw [← opAfter_byteOp_next]
  exact if_pos (by simpa only [opAfter, byteOp_slot (show j < 8 by omega)] using hj)

theorem runSlot_writeByte {p : Params} {P : Profile} {env : SlotEnv} {v : Byte} (hj : j < 8) :
    runSlot p (slotKindOf (byteOp (.writeByte v) acc gap T j)) P env =
      .finished .done (dur (encodeWriteBit (v.getLsbD j) P)) := by
  rw [slotKindOf_writeByte hj]
  exact runSlot_write rfl

/-- The byte that READ_BYTE has assembled from the bits of the slots before `j`. -/
def assembled (bits : Nat → Bool) : Nat → Byte
  | 0     => 0#8
  | j + 1 => accWith (assembled bits j) (Fin.ofNat 8 j) (bits j)

theorem getLsbD_bitData (b : Bool) (k : Nat) : (bitData b).getLsbD k = (decide (k = 0) && b) := by
  cases b <;> cases k <;> simp [bitData, BitVec.getLsbD_one]

/-- The bits assembled so far stand at their slots, and the others are 0 (R75). -/
theorem getLsbD_assembled (bits : Nat → Bool) (hj : j ≤ 8) :
    (assembled bits j).getLsbD k = (decide (k < j) && bits k) := by
  induction j with
  | zero => simp [assembled]
  | succ j ih =>
    have hmod : j % 8 = j := Nat.mod_eq_of_lt hj
    simp only [assembled, accWith, BitVec.getLsbD_or, BitVec.getLsbD_shiftLeft, ih (by omega), getLsbD_bitData,
      Fin.val_ofNat, hmod]
    obtain hlt | rfl | hgt := lt_trichotomy k j
    · simp [hlt, hlt.le, show k < j + 1 by omega]
    · simp [show k < 8 by omega]
    · simp [show ¬ k < j by omega, show ¬ k < j + 1 by omega, show k - j ≠ 0 by omega]

theorem assembled_getLsbD (v : Byte) : assembled v.getLsbD 8 = v := by
  refine BitVec.eq_of_getLsbD_eq fun k hk => ?_
  rw [getLsbD_assembled v.getLsbD le_rfl, decide_eq_true hk, Bool.true_and]

variable {bits : Nat → Bool}

theorem afterSlot_readByte_next (hj : j < 7) :
    afterSlot (opAfter (byteOp .readByte (assembled bits) gap T j) (gap j + T j)) (.bit (bits j)) =
      .nextSlot (byteOp .readByte (assembled bits) gap T (j + 1)) := by
  rw [← opAfter_byteOp_next]
  exact if_pos (by simpa only [opAfter, byteOp_slot (show j < 8 by omega)] using hj)

/-- A read slot that ends in a bit before the last slot leaves the next one to run. -/
theorem slotRunsOn_readByte {p : Params} {P : Profile} {env : Nat → SlotEnv} (hj : j < 7)
    (hr : runSlot p .readSlot P (env j) = .finished (.bit (bits j)) (T j)) :
    SlotRunsOn p P .readByte (assembled bits) gap T env (fun j => .bit (bits j)) j :=
  ⟨hr, afterSlot_readByte_next hj⟩

end byteOps

/-- Settles O39: each write slot ends with its sequence, and the eighth ends the operation. -/
theorem writeByteCompletes : Obligations.WriteByteCompletes := by
  intro s x b v env gap grant hready
  obtain ⟨u, hu, hrxe⟩ := byte_completes (n := 7) (acc := fun _ => 0#8) (g := grant) hready (cmd := .writeByte v) rfl
    rfl (fun j hj => ⟨runSlot_writeByte (by omega), afterSlot_writeByte_next hj⟩)
    (runSlot_writeByte (by omega)) rfl
  exact ⟨u, hu, hrxe fun j hj => by rw [slotKindOf_writeByte (by omega)]; rfl⟩

/-- Settles O40: each slot adds its bit to the byte, and the eighth ends the operation. -/
theorem readByteCompletes : Obligations.ReadByteCompletes := by
  intro s x b v env gap T grant hready hr
  obtain ⟨u, hu, -⟩ := byte_completes (n := 7) (acc := assembled v.getLsbD) (gap := gap) (g := grant) hready
    (cmd := .readByte) rfl rfl (fun j hj => slotRunsOn_readByte hj (hr j (by omega))) (hr 7 (by omega)) rfl
  exact ⟨u, assembled_getLsbD v ▸ hu⟩

/-- Settles O41: the slots before `n` leave another to run, and the timeout of slot `n` ends the operation. -/
theorem readByteStopsAtTimeout : Obligations.ReadByteStopsAtTimeout := by
  intro s x b n bits env gap T grant hready hn hr hout
  obtain ⟨u, hu, -⟩ := byte_completes (acc := assembled bits) (gap := gap) (g := grant) hready (cmd := .readByte) rfl rfl
    (fun j hj => slotRunsOn_readByte (by omega) (hr j hj)) hout rfl
  exact ⟨u, hu⟩

/-! ### The byte round trip (R271) -/

/-- A read slot whose responder echoes the bit `v`, and is up again by the deadline, reads `v`. -/
theorem runSlot_echo {p : Params} {P : Profile} (hp : p.wf = true) (hvalid : validProfile p P = true)
    (hone : P.write1Low ≤ P.sampleOffset) (hzero : P.sampleOffset < P.write0Low)
    (hup : P.write0Low < captureDeadline p P (txSeq .readSlot P)) (v : Bool) :
    ∃ T, runSlot p .readSlot P (healthyBus (if v then [] else lowOver 0 P.write0Low)) = .finished (.bit v) T := by
  cases v with
  | true => exact ⟨_, (readSlotReadsResponder p P 0 hp hvalid hone).1⟩
  | false =>
    obtain ⟨T, hT⟩ := runSlot_oneLow_decodes hp hvalid rfl rfl (line_readSlot_held (by omega)) (by omega) hup
    rw [decodeSlot_read_oneLow, decide_eq_false (by omega)] at hT
    exact ⟨T, hT⟩

/-- Settles O42: each slot reads the bit its responder echoes. -/
theorem echoedByteReadsBack : Obligations.EchoedByteReadsBack := by
  intro s x b v gap grant hready hone hzero hup
  have hvalid := (hready.coherent.owners.bound _ x b hready.target.inst hready.target.bound).profile
  obtain ⟨-, -, -, -, -, -, -, -, -, hextra⟩ := validProfile_facts hvalid
  have hdeadline : b.profile.write0Low < captureDeadline s.params b.profile (txSeq .readSlot b.profile) := by
    rw [readSlot_deadline]
    obtain hchecked | hup := hup
    · have hzeroGap := hextra hchecked
      omega
    · exact hup
  choose T hT using runSlot_echo hready.coherent.params hvalid hone hzero hdeadline
  obtain ⟨u, hu⟩ := readByteCompletes s x b v _ gap (fun j => T (v.getLsbD j)) grant hready fun j _ => hT (v.getLsbD j)
  exact ⟨_, u, hu⟩

end Sys2Proof.Machine
end

section
/-! SUPPORT. The lifecycle of a transceiver (R290 to R298): what BIND and UNBIND answer and write, the misuses that raise a
model fault instead (R297), and what a command or a step leaves of everything it does not name (R298). -/

namespace Sys2Proof.Machine

/-! ### BIND and UNBIND at the port of a live transceiver (R290, R295 to R297) -/

/-- The commands that `busCmdOf` names run as bus commands (R109). -/
theorem exec_eq_busCommand {s : State} {cmd : Instr} {q : BusCmd} (hq : busCmdOf cmd = some q) :
    exec cmd s = busCommand q s := by
  cases cmd <;> cases hq <;> rfl

section liveAtPort
variable {s : State} {x : Inst} {b : Binding} {pin : Pin} {tx rx : Chan} {sel : ProfileSel}
variable (hx : s.inst? s.port.inst = some x) (hf : x.fault = none)
include hx hf

theorem exec_bind_bound (hb : x.binding = some b) :
    exec (.bind pin tx rx sel) s = .next (raiseFault s s.port.inst .alreadyBound) := by
  rw [exec, execBind, onPort_live hx hf, hb]

/-- A BIND of an unbound transceiver looks at the profile first and at the causes of `INIT_ERROR` next (R295). -/
theorem exec_bind_unbound (hb : x.binding = none) :
    exec (.bind pin tx rx sel) s =
      if validProfile s.params (profileOf sel) = false then .next (respondPort s .timingError 0#8)
      else if bindRefused s pin tx rx then .next (respondPort s .initError 0#8)
      else .next (respondPort (bindInst s s.port.inst x ⟨pin, tx, rx, profileOf sel⟩) .ok 0#8) := by
  rw [exec, execBind, onPort_live hx hf, hb]

theorem exec_unbind_bound (hb : x.binding = some b) :
    exec .unbind s =
      if x.lock ≠ .free ∨ x.session ≠ .idle then .next (raiseFault s s.port.inst .inFlightMutation)
      else .next (respondPort (unbindInst s s.port.inst x b) .ok 0#8) := by
  rw [exec, execUnbind, onPort_live hx hf, hb]

/-- Every command that needs a binding raises `F_NOT_BOUND` where there is none (R297). -/
theorem exec_notBound (hb : x.binding = none) {cmd : Instr} (hcmd : busCmdOf cmd ≠ none ∨ cmd = .unbind) :
    exec cmd s = .next (raiseFault s s.port.inst .notBound) := by
  obtain hbus | rfl := hcmd
  · obtain ⟨q, hq⟩ := Option.ne_none_iff_exists'.1 hbus
    rw [exec_eq_busCommand hq, busCommand, onPort_live hx hf, hb]
  · rw [exec, execUnbind, onPort_live hx hf, hb]

end liveAtPort

/-- The causes of `INIT_ERROR` (R292 to R294). -/
theorem bindRefused_iff {s : State} {pin : Pin} {tx rx : Chan} : bindRefused s pin tx rx = true ↔
    s.params.nch ≤ tx.toNat ∨ s.params.nch ≤ rx.toNat ∨ tx = rx ∨
      ownerOf s.chanOwner tx.toNat ≠ none ∨ ownerOf s.chanOwner rx.toNat ≠ none ∨
      pin ∉ s.params.validPins ∨ ownerOf s.pinOwner pin.toNat ≠ none ∨ s.port.allocOk = false := by
  simp [bindRefused, or_assoc, Option.isSome_iff_ne_none]

/-! ### What BIND and UNBIND write (R290, R296) -/

section writes
variable (s : State) (i : Nat) (x : Inst) (b : Binding)

@[simp] theorem bindInst_blocked : (bindInst s i x b).blocked = s.blocked := by simp [bindInst]
@[simp] theorem unbindInst_blocked : (unbindInst s i x b).blocked = s.blocked := by simp [unbindInst]

theorem ownerOf_claim_two (o : Owners) (k k' c : Nat) :
    ownerOf (claim (claim o k i) k' i) c = if c = k ∨ c = k' then some i else ownerOf o c := by
  rw [ownerOf_claim, ownerOf_claim]
  by_cases hk' : k' = c
  · simp [hk']
  · simp [hk', Ne.symm hk', eq_comm]

theorem ownerOf_release_two (o : Owners) (k k' c : Nat) :
    ownerOf (release (release o k) k') c = if c = k ∨ c = k' then none else ownerOf o c := by
  rw [ownerOf_release, ownerOf_release]
  by_cases hk' : k' = c
  · simp [hk']
  · simp [hk', Ne.symm hk', eq_comm]

theorem tx_bindInst (c : Chan) : (bindInst s i x b).tx? c =
    if c = b.tx then (s.tx? c).map fun e => { e with busy := false } else s.tx? c := by
  simp [bindInst, tx_quietTx, eq_comm]

theorem rx_bindInst (c : Chan) : (bindInst s i x b).rx? c =
    if c = b.rx then (s.rx? c).map fun e => { e with armed := false, items := [] } else s.rx? c := by
  simp [bindInst, rx_quietRx, eq_comm]

theorem tx_unbindInst (c : Chan) : (unbindInst s i x b).tx? c =
    if c = b.tx then (s.tx? c).map fun e => { e with busy := false } else s.tx? c := by
  simp [unbindInst, tx_quietTx, eq_comm]

theorem rx_unbindInst (c : Chan) : (unbindInst s i x b).rx? c =
    if c = b.rx then (s.rx? c).map fun e => { e with armed := false, items := [] } else s.rx? c := by
  simp [unbindInst, rx_quietRx, eq_comm]

end writes

/-- An UNBIND of a live transceiver with a free lock leaves it as at power-on, but for those who wait (R49, R296). -/
theorem unboundInst_eq_powerOn {x : Inst} (hf : x.fault = none) (hl : x.lock = .free) :
    unboundInst x = { Inst.powerOn with lock := .free, waiters := x.waiters } := by
  simp [unboundInst, Inst.powerOn, hf, hl]

/-- Settles O28: no cause of `INIT_ERROR` holds, so the BIND reaches `bindInst`, whose writes are read field by field. -/
theorem bindSucceeds : Obligations.BindSucceeds := by
  intro s x pin tx rx sel hx hf hb hvalid htx hrx hne htxFree hrxFree hpin hpinFree halloc
  have hrefused : ¬ bindRefused s pin tx rx = true := by
    simp [bindRefused_iff, htx, hrx, hne, htxFree, hrxFree, hpin, hpinFree, halloc]
  have hexec : exec (.bind pin tx rx sel) s =
      .next (respondPort (bindInst s s.port.inst x ⟨pin, tx, rx, profileOf sel⟩) .ok 0#8) := by
    rw [exec_bind_unbound hx hf hb, if_neg (by simp [hvalid]), if_neg hrefused]
  refine ⟨_, hexec, ?_, fun j hj => ?_, fun c => ?_, fun c => ?_, fun c => ?_, fun c => ?_, ?_, ?_, ?_⟩
  · rw [respondPort_inst_read, inst_bindInst_self hx, boundInst]
  · simp [inst_bindInst, hj.symm]
  · simp [ownerOf_claim_two]
  · simp [ownerOf_claim, eq_comm]
  · rw [respondPort_tx_read, tx_bindInst]
  · rw [respondPort_rx_read, rx_bindInst]
  · simp [answered]
  · simp [answered]
  · simp

/-- Settles O29: the profile is looked at before the causes of `INIT_ERROR`. -/
theorem bindTimingErrorFirst : Obligations.BindTimingErrorFirst := by
  intro s x pin tx rx sel hx hf hb hinvalid
  rw [exec_bind_unbound hx hf hb, if_pos hinvalid, respondPort_eq_answered]

/-- Settles O30: each cause refuses the BIND. -/
theorem bindInitErrorCauses : Obligations.BindInitErrorCauses := by
  intro s x pin tx rx sel hx hf hb hvalid hcause
  rw [exec_bind_unbound hx hf hb, if_neg (by simp [hvalid]), if_pos (bindRefused_iff.2 hcause),
    respondPort_eq_answered]

/-- Settles O31: nothing is in flight, so the UNBIND reaches `unbindInst`, whose writes are read field by field. -/
theorem unbindReleases : Obligations.UnbindReleases := by
  intro s x b ⟨hx, hf, hb⟩ hfree hidle
  have hexec : exec .unbind s = .next (respondPort (unbindInst s s.port.inst x b) .ok 0#8) := by
    rw [exec_unbind_bound hx hf hb, if_neg (by simp [hfree, hidle])]
  refine ⟨_, hexec, ?_, fun j hj => ?_, fun c => ?_, fun c => ?_, fun c => ?_, fun c => ?_, ?_, ?_, ?_⟩
  · rw [respondPort_inst_read, inst_unbindInst_self hx, unboundInst_eq_powerOn hf hfree]
  · simp [inst_unbindInst, hj.symm]
  · simp [ownerOf_release_two]
  · simp [ownerOf_release, eq_comm]
  · rw [respondPort_tx_read, tx_unbindInst]
  · rw [respondPort_rx_read, rx_unbindInst]
  · simp [answered]
  · simp [answered]
  · simp

/-- Settles O32: the port reaches `raiseFault`, which on a live transceiver sets `FAULT` and nothing else. -/
theorem misuseRaisesModelFault : Obligations.MisuseRaisesModelFault := by
  intro s x hx hf
  have raises (r : FaultReason) : raiseFault s s.port.inst r = s.setInst s.port.inst { x with fault := some r } :=
    raiseFault_live hx hf r
  refine ⟨fun hb pin tx rx sel => ?_, fun hb cmd hcmd => ?_, fun hb hflight => ?_⟩
  · obtain ⟨b, hb⟩ := Option.ne_none_iff_exists'.1 hb
    rw [exec_bind_bound hx hf hb, raises]
  · rw [exec_notBound hx hf hb hcmd, raises]
  · obtain ⟨b, hb⟩ := Option.ne_none_iff_exists'.1 hb
    rw [exec_unbind_bound hx hf hb, if_pos hflight, raises]

/-! ### The frame of a bus command at its port (R250, R298) -/

section busFrame
variable {s t : State} {x y : Inst} {cmd : Instr}

/-- Of its transceiver a bus command writes at most `LOCK`, `WAITERS` and `OP`, or `FAULT` for a misuse. -/
theorem CommandEffect.bus_inst (e : CommandEffect s x cmd t) (hc : busCmdOf cmd ≠ none)
    (hx : s.inst? s.port.inst = some x) (hy : t.inst? s.port.inst = some y) :
    y = { x with lock := y.lock, waiters := y.waiters, op := y.op, fault := y.fault } := by
  obtain rfl | ⟨r, -, rfl⟩ | ⟨q, -, rfl⟩ | ⟨_, _, _, _, rfl, -, -⟩ | ⟨rfl, -⟩ := e.inst_cases hx hy
  · rfl
  · rfl
  · rw [acquireLock_frame]
  · exact absurd rfl hc
  · exact absurd rfl hc

/-- A bus command writes no owner and no engine, and answers no caller. -/
theorem CommandEffect.bus_frame (e : CommandEffect s x cmd t) (hc : busCmdOf cmd ≠ none) :
    t.chanOwner = s.chanOwner ∧ t.pinOwner = s.pinOwner ∧ t.txe = s.txe ∧ t.rxe = s.rxe ∧
      t.responses = s.responses ∧ t.blocked = s.blocked := by
  cases e with
  | frozen => simp
  | answer st hnone => exact absurd hnone hc
  | misuse => simp
  | lock => simp
  | bind => exact absurd rfl hc
  | unbind => exact absurd rfl hc

end busFrame

/-- Settles O44: each part is a frame of `CommandEffect`. -/
theorem busCommandFrame : Obligations.BusCommandFrame := by
  intro s t x y cmd hc h hx hy
  have e := exec_commandEffect hx h
  obtain ⟨hchan, hpin, htx, hrx, hresp, hblocked⟩ := e.bus_frame hc
  exact ⟨e.bus_inst hc hx hy, fun j => e.insts_other, hchan, hpin, htx, hrx, hresp, hblocked, e.rest⟩

/-! ### Independence of the transceivers (R298) -/

/-- A step on another transceiver leaves the engines of a bound one: no channel has two owners (R41). -/
theorem step_engines_other {s t : State} {j : Nat} {x : Inst} {b : Binding} (hc : s.Coherent) (hs : step s = .next t)
    (hj : j ≠ eventTarget (nextEvent s)) (hx : s.inst? j = some x) (hb : x.binding = some b) :
    t.tx? b.tx = s.tx? b.tx ∧ t.rx? b.rx = s.rx? b.rx := by
  obtain ⟨s', hc', e, hinsts, htx, hrx⟩ := step_effect_coherent hc hs
  obtain ⟨h1, h2⟩ := effect_engines hc' e ((hinsts j).trans hx) hb (.inl hj)
  exact ⟨h1.trans (htx _), h2.trans (hrx _)⟩

/-- Settles O52: the registers and the engines stay, and the coherent state after the step has the ownership the binding
names. -/
theorem instancesAreIndependent : Obligations.InstancesAreIndependent := by
  intro s t j x hc hs hj hx
  have ht : t.inst? j = some x := (step_inst_other hs hj).trans hx
  refine ⟨ht, fun b hb => ?_⟩
  obtain ⟨htx, hrx⟩ := step_engines_other hc hs hj hx hb
  have hown := (step_coherent hc hs).owners.bound j x b ht hb
  exact ⟨htx, hrx, hown.txOwned, hown.rxOwned, hown.pinOwned⟩

end Sys2Proof.Machine
end

section
/-! SUPPORT. The causes of the model faults (R325): the misuse or the illegal command that a port answers with a fault, and
the edge that overflows a capture (R214, R218); no move raises another one. -/

namespace Sys2Proof.Machine

/-! ### The edge that overflows a capture (R214, R218) -/

section overflow
variable {p : Params} {b : Binding} {o : Op} {env : SlotEnv} {n : Nat} {x : Inst} {tx : TxEngine} {rx : RxEngine}

/-- The run of a coherent capture always has a length, which a sample may read. -/
theorem RxOk.len_some {P : Profile} (h : RxOk p P env n rx) : ∃ d, rx.len = some d := by
  cases halive : env.rxAlive with
  | false => exact ⟨0, (h.dead halive).2⟩
  | true =>
    obtain rfl | hn := n.eq_zero_or_pos
    · exact ⟨0, (h.start rfl).2⟩
    · obtain ⟨_, d, -, hd, -⟩ := h.run halive hn
      exact ⟨d, hd⟩

/-- A sample overflows at exactly the edges of `OverflowAt`, and then writes nothing. -/
theorem rxSample_overflow_iff {u v : Xcvr} {d : Nat} (hd : u.rx.len = some d) :
    rxSample (ctxOf p b.profile o env n) u = .raise .captureOverflow v ↔ v = u ∧ OverflowAt p b o env n u.rx := by
  constructor
  · intro h
    cases hl : u.rx.lvl with
    | none =>
      simp only [rxSample, hl] at h
      split_ifs at h
      cases h
    | some l =>
      simp only [rxSample, hl, hd] at h
      split_ifs at h with harmed halive hn hedge hfull
      cases h
      rw [Bool.not_eq_false] at harmed halive
      exact ⟨rfl, harmed, halive, Nat.pos_of_ne_zero hn, hfull, by simp [hl],
        by rw [hl]; exact fun he => hedge (Option.some.inj he).symm⟩
  · rintro ⟨rfl, harmed, halive, hn, hfull, hsome, hedge⟩
    obtain ⟨l, hl⟩ := Option.isSome_iff_exists.1 hsome
    have hl' : line env (opSeq b o) n ≠ l := fun he => hedge (by rw [hl, he])
    simp [rxSample, ctxOf, harmed, halive, hn.ne', hl, hd, hl', hfull]

/-- A tick of a capture that nothing ends overflows when its sample does, and leaves the transceiver (R218, R328). -/
theorem slotTick_sample_overflow_iff {v : Xcvr} {d : Nat} (hs : x.session = .capturing) (hq : x.queue = some [])
    (hD : x.deadline = some (opDeadline p b o)) (hn : n ≠ opDeadline p b o) (hgap : ¬ GapAt b.profile env n rx)
    (hd : rx.len = some d) :
    slotTick (ctxOf p b.profile o env n) ⟨x, tx, rx⟩ = .raise .captureOverflow v ↔
      v = txDone (ctxOf p b.profile o env n) ⟨x, tx, rx⟩ ∧ OverflowAt p b o env n rx := by
  rw [slotTick_sample (k := ctxOf p b.profile o env n) hs hq hD hn (idleGapReached_false hgap)]
  have hiff := rxSample_overflow_iff (p := p) (b := b) (o := o) (env := env) (n := n) (v := v)
    (u := txDone (ctxOf p b.profile o env n) ⟨x, tx, rx⟩) (by rwa [txDone_rx])
  rw [txDone_rx] at hiff
  rw [← hiff]
  cases rxSample (ctxOf p b.profile o env n) (txDone (ctxOf p b.profile o env n) ⟨x, tx, rx⟩) <;> simp [andThen]

/-- A coherent slot in flight that is not capturing raises nothing at its tick. -/
theorem slotTick_ok_of_not_capturing (hok : SlotOk p b.profile x tx rx) (hs : x.session ≠ .idle)
    (hcap : x.session ≠ .capturing) (ho : x.op = some o) (he : x.env = some env) (hn : x.sessT = some n) :
    ∃ v, slotTick (ctxOf p b.profile o env n) ⟨x, tx, rx⟩ = .ok v := by
  obtain ⟨-, hok⟩ := hok
  cases hsess : x.session with
  | idle => exact absurd hsess hs
  | capturing => exact absurd hsess hcap
  | triggered =>
    simp only [hsess, ho, he, hn] at hok
    obtain ⟨_, _, _, ⟨⟩, ⟨⟩, ⟨⟩, hk, htx, -, ha⟩ := hok
    rw [slotTick_triggered (k := ctxOf p b.profile o env n) hsess ha hk htx]
    split <;> exact ⟨_, rfl⟩
  | draining =>
    simp only [hsess, ho, he, hn] at hok
    obtain ⟨_, _, _, items, ⟨⟩, ⟨⟩, ⟨⟩, -, htx, hle, hi, ha⟩ := hok
    rw [slotTick_draining (k := ctxOf p b.profile o env n) hsess ha hi htx hle]
    split <;> exact ⟨_, rfl⟩

/-- What a coherent capture holds: no batch, its deadline, not yet passed, and a current run. -/
theorem SlotOk.capturing (hok : SlotOk p b.profile x tx rx) (hs : x.session = .capturing) (ho : x.op = some o)
    (he : x.env = some env) (hn : x.sessT = some n) :
    x.queue = some [] ∧ x.deadline = some (opDeadline p b o) ∧ n ≤ opDeadline p b o ∧ ∃ d, rx.len = some d := by
  obtain ⟨hq, hok⟩ := hok
  simp only [hs, ho, he, hn] at hok
  obtain ⟨_, _, _, ⟨⟩, ⟨⟩, ⟨⟩, -, -, hD, hle, hrx⟩ := hok
  exact ⟨hq, hD, hle, hrx.len_some⟩

/-- A tick of a coherent slot in flight overflows only a capture that nothing ends, at an edge of `OverflowAt`. -/
theorem slotTick_overflow_cause {v : Xcvr} (hp : p.wf = true) (hP : validProfile p b.profile = true)
    (hok : SlotOk p b.profile x tx rx) (hs : x.session ≠ .idle) (ho : x.op = some o) (he : x.env = some env)
    (hn : x.sessT = some n) (h : slotTick (ctxOf p b.profile o env n) ⟨x, tx, rx⟩ = .raise .captureOverflow v) :
    x.session = .capturing ∧ ¬ GapAt b.profile env n rx ∧ n < opDeadline p b o ∧ OverflowAt p b o env n rx := by
  have hcap : x.session = .capturing := by
    by_contra hcap
    obtain ⟨w, hw⟩ := slotTick_ok_of_not_capturing hok hs hcap ho he hn
    cases hw.symm.trans h
  obtain ⟨w, hw, -⟩ | ⟨-, hdue⟩ := slotTick_makes hp hP hok hs ho he hn
  · cases hw.symm.trans h
  · have hgap : ¬ GapAt b.profile env n rx := fun hgap => hdue (.inr (.inl ⟨hcap, .inl hgap⟩))
    have hne : n ≠ opDeadline p b o := fun hne => hdue (.inr (.inl ⟨hcap, .inr hne⟩))
    obtain ⟨hq, hD, hle, d, hd⟩ := hok.capturing hcap ho he hn
    exact ⟨hcap, hgap, lt_of_le_of_ne hle hne, ((slotTick_sample_overflow_iff hcap hq hD hne hgap hd).1 h).2⟩

end overflow

/-! ### What a move raises (R325) -/

section causes
variable {s t : State} {i : Nat} {x y : Inst}

/-- Issuing words faults a live transceiver only for an illegal command or a misuse (R108, R297). -/
theorem issue_fault_cause {c : Nat} {ws : List Word} {a : Bool} {r : FaultReason} (hx : s.inst? i = some x)
    (hf : x.fault = none) (hy : t.inst? i = some y) (hr : y.fault = some r) (h : issue s i c ws a = .next t) :
    (r = .illegalCommand ∧ isIllegal ws = true) ∨ ∃ cmd, decode ws = .ok cmd ∧ Misuse x cmd r := by
  have hx' : (s.accept i c a).inst? i = some x := by simpa using hx
  have changed : y.fault ≠ x.fault := by simp [hf, hr]
  have moved : issue s i c ws a ≠ .next s := by
    intro hsame
    cases hsame.symm.trans h; cases hx.symm.trans hy; exact changed rfl
  have hc : c ∉ s.blocked := fun hc => moved (issue_blocked hc)
  cases hd : decode ws with
  | incomplete => exact absurd (issue_incomplete hd) moved
  | illegal why =>
    rw [issue_illegal hx hf hc hd] at h
    cases h
    rw [inst_setInst_self hx'] at hy
    cases hy; cases hr
    exact .inl ⟨rfl, isIllegal_eq_true.2 ⟨why, hd⟩⟩
  | ok cmd =>
    rw [issue_ok hc hd] at h
    obtain hsame | ⟨r', hmis, hr'⟩ := (exec_commandEffect hx' h).fault_cases hx' hy
    · exact absurd hsame changed
    · cases hr.symm.trans hr'
      exact .inr ⟨cmd, rfl, hmis⟩

/-- Taking the result of a completed slot never overflows a capture. -/
theorem slotDone_fault_ne_overflow {g : Nat} (hx : s.inst? i = some x) (hf : x.fault = none) (hy : t.inst? i = some y)
    (h : slotDone s i g = .next t) : y.fault ≠ some .captureOverflow := by
  have lost : raiseFault s i .noValue = t → y.fault ≠ some .captureOverflow := by
    rintro rfl
    rw [inst_raiseFault_self hx, hf] at hy
    cases hy; simp
  simp only [slotDone, hx] at h
  split at h
  next =>
    split at h
    next => cases h; rw [inst_setInst_self hx] at hy; cases hy; simp [hf]
    next =>
      cases h
      rw [respond_inst_read, inst_setInst_self hx] at hy
      cases hy
      rw [releaseLock_frame]; simp [hf]
    next => exact lost (by injection h)
  next => exact lost (by injection h)

/-- A tick of a coherent state is the tick of the slot that `SlotAt` describes, which is coherent. -/
theorem State.Coherent.tickInst_slotAt (hc : s.Coherent) (hx : s.inst? i = some x) (hf : x.fault = none)
    (hs : x.session ≠ .idle) {b : Binding} {o : Op} {env : SlotEnv} {n : Nat} {tx : TxEngine} {rx : RxEngine}
    (hslot : SlotAt s x b o env n tx rx) (g : Nat) :
    SlotOk s.params b.profile x tx rx ∧
      tickInst s i g = afterTick s i b g (slotTick (ctxOf s.params b.profile o env n) ⟨x, tx, rx⟩) := by
  obtain ⟨hb, ho, he, hn, htx, hrx⟩ := hslot
  obtain ⟨_, _, _, _, _, _, hb', ho', he', hn', htx', hrx', hok, heq, -⟩ := hc.tickInst_eq hx hf hs g
  cases hb.symm.trans hb'; cases ho.symm.trans ho'; cases he.symm.trans he'; cases hn.symm.trans hn'
  cases htx.symm.trans htx'; cases hrx.symm.trans hrx'
  exact ⟨hok, heq⟩

/-- A tick raises the overflow of a capture only where a step of the tick does. -/
theorem afterTick_overflow {b : Binding} {k : SlotCtx} {u : Xcvr} {g : Nat} (hx : s.inst? i = some u.inst)
    (hf : u.inst.fault = none) (hy : t.inst? i = some y) (hr : y.fault = some .captureOverflow)
    (h : afterTick s i b g (slotTick k u) = .next t) : ∃ v, slotTick k u = .raise .captureOverflow v := by
  cases hv : slotTick k u with
  | raise r v =>
    rw [hv] at h; cases h
    rw [inst_raiseFault_self (inst_scatter_self hx), (slotTick_raise_frame hv).1.fault, hf] at hy
    cases hy; cases hr
    exact ⟨v, rfl⟩
  | ok v =>
    have hvf : v.inst.fault = none := (slotTick_ok_frame hv).1.fault.trans hf
    rw [hv] at h
    simp only [afterTick] at h
    split at h
    next => exact absurd hr (slotDone_fault_ne_overflow (inst_scatter_self hx) hvf hy h)
    next =>
      cases h
      rw [inst_scatter_self hx] at hy
      cases hy; cases hvf.symm.trans hr

/-- The edge of `OverflowAt`, in a capture that nothing ends, faults its transceiver, whose session stays (R218, R328). -/
theorem State.Coherent.tickInst_overflows (hc : s.Coherent) (hx : s.inst? i = some x) (hf : x.fault = none)
    (hs : x.session = .capturing) {b : Binding} {o : Op} {env : SlotEnv} {n : Nat} {tx : TxEngine} {rx : RxEngine}
    (hslot : SlotAt s x b o env n tx rx) (hgap : ¬ GapAt b.profile env n rx) (hn : n ≠ opDeadline s.params b o)
    (hover : OverflowAt s.params b o env n rx) (g : Nat) :
    ∃ t, tickInst s i g = .next t ∧ t.inst? i = some { x with fault := some .captureOverflow } := by
  obtain ⟨hok, heq⟩ := hc.tickInst_slotAt hx hf (by simp [hs]) hslot g
  obtain ⟨hq, hD, -, d, hd⟩ := hok.capturing hs hslot.inOp hslot.draws hslot.timer
  rw [heq, (slotTick_sample_overflow_iff hs hq hD hn hgap hd).2 ⟨rfl, hover⟩]
  refine ⟨_, rfl, ?_⟩
  rw [inst_raiseFault_self (inst_scatter_self hx), txDone_inst, hf]
  rfl

/-- The causes for which a step faults transceiver `i`, which is `x` before it (R325). -/
inductive FaultCause (s : State) (i : Nat) (x : Inst) : FaultReason → Prop
  | illegal (c : Nat) (ws : List Word) (a : Bool) (hev : nextEvent s = .issue i c ws a) (hill : isIllegal ws = true) :
      FaultCause s i x .illegalCommand
  | misuse {r : FaultReason} (c : Nat) (ws : List Word) (a : Bool) (cmd : Instr) (hev : nextEvent s = .issue i c ws a)
      (hd : decode ws = .ok cmd) (hmis : Misuse x cmd r) : FaultCause s i x r
  | overflow (g : Nat) (b : Binding) (o : Op) (env : SlotEnv) (n : Nat) (tx : TxEngine) (rx : RxEngine)
      (hev : nextEvent s = .tick i g) (hs : x.session = .capturing) (hslot : SlotAt s x b o env n tx rx)
      (hgap : ¬ GapAt b.profile env n rx) (hn : n < opDeadline s.params b o) (hover : OverflowAt s.params b o env n rx) :
      FaultCause s i x .captureOverflow

/-- A step that faults a live transceiver of a coherent state has one of these causes. -/
theorem step_faultCause {r : FaultReason} (hc : s.Coherent) (h : step s = .next t) (hx : s.inst? i = some x)
    (hf : x.fault = none) (hy : t.inst? i = some y) (hr : y.fault = some r) : FaultCause s i x r := by
  have hi : i = eventTarget (nextEvent s) := by
    by_contra hi
    rw [step_inst_other h hi, hx] at hy
    cases hy; cases hf.symm.trans hr
  have hx' : (popEvent s).inst? i = some x := by simpa using hx
  rw [step] at h
  cases hev : nextEvent s <;> rw [hev] at h hi <;> cases hi
  case issue c ws a =>
    obtain ⟨rfl, hill⟩ | ⟨cmd, hd, hmis⟩ := issue_fault_cause hx' hf hy hr h
    · exact .illegal c ws a hev hill
    · exact .misuse c ws a cmd hev hd hmis
  case gapTick => cases (gapInst_fault hx' hf hy h).symm.trans hr
  case trigger env => cases (hc.popEvent.triggerInst_fault hx' hf hy h).symm.trans hr
  case tick g =>
    obtain hn | hover := hc.popEvent.tickInst_fault hx' hf hy h
    · cases hn.symm.trans hr
    · cases hr.symm.trans hover
      have hs : x.session ≠ .idle := by
        intro hs
        cases (tickInst_idle (g := g) hx' hs).symm.trans h
        cases hx'.symm.trans hy; cases hf.symm.trans hr
      obtain ⟨b, o, env, n, tx, rx, hslot⟩ := hc.popEvent.slotAt hx' hf hs
      obtain ⟨hok, heq⟩ := hc.popEvent.tickInst_slotAt hx' hf hs hslot g
      obtain ⟨v, hv⟩ := afterTick_overflow hx' hf hy hr (heq.symm.trans h)
      obtain ⟨hcap, hgap, hn, hover⟩ := slotTick_overflow_cause hc.popEvent.params
        (hc.popEvent.owners.bound _ x b hx' hslot.bound).profile hok hs hslot.inOp hslot.draws hslot.timer hv
      rw [popEvent_params] at hn hover
      exact .overflow g b o env n tx rx hev hcap (slotAt_popEvent.1 hslot) hgap hn hover

end causes

/-- Settles O50: a fault has a cause of `FaultCause`, each of which gives its own reasons, and the edge that overflows a
capture is a tick of `tickInst_overflows`. -/
theorem modelFaultCauses : Obligations.ModelFaultCauses := by
  refine ⟨fun s t i x y r hc h hx hf hy hr => ?_,
    fun s i g n x b o env tx rx hc hev hx hf hs hslot hgap hn hover => ?_⟩
  · cases step_faultCause hc h hx hf hy hr with
    | illegal c ws a hev hill => exact ⟨c, ws, a, hev, hill⟩
    | overflow g b o env n tx rx hev hs hslot hgap hn hover =>
      exact ⟨g, b, o, env, n, tx, rx, hev, hs, hslot, hgap, hn, hover⟩
    | misuse c ws a cmd hev hd hmis =>
      cases r with
      | notBound => exact ⟨c, ws, a, cmd, hev, hd, hmis⟩
      | alreadyBound =>
        obtain ⟨⟨pin, tx, rx, sel, rfl⟩, hb⟩ := hmis
        exact ⟨c, ws, a, pin, tx, rx, sel, hev, hd, hb⟩
      | inFlightMutation =>
        obtain ⟨rfl, hbusy⟩ := hmis
        exact ⟨c, ws, a, hev, hd, hbusy⟩
      | illegalCommand => exact hmis.elim
      | captureOverflow => exact hmis.elim
      | queueOverflow => exact hmis.elim
      | noValue => exact hmis.elim
  · rw [← popEvent_params s] at hn hover
    obtain ⟨t, ht, hti⟩ := hc.popEvent.tickInst_overflows (by simpa using hx) hf hs (slotAt_popEvent.2 hslot) hgap hn
      hover g
    exact ⟨t, _, by rw [step, hev]; exact ht, hti, rfl, hs⟩

end Sys2Proof.Machine
end
